-- ==== Sys2Proof/Word.lean ====
section
/-! DEFINITION. The word types of the machine. -/

namespace Sys2Proof

/-- One byte of memory, one status image, one opcode or operand byte (20_memory.md R26, R29). -/
abbrev Byte := BitVec 8

/-- A vector or a JPU operand: 16 bits (20_memory.md R31, 30_encoding.md R44). -/
abbrev Half := BitVec 16

/-- The container of an `ADDR_BITS`-wide value (00_scope.md R1): the value stands in the low `ADDR_BITS` bits and the
bits above are zero. -/
abbrev Addr := BitVec 64

end Sys2Proof
end

