-- ==== Sys2Proof/Machine/Memory.lean ====
section
/-! DEFINITION. Memory: a list of (address, byte) pairs in one canonical form, and reading and writing one byte of it. -/

namespace Sys2Proof

/-- Memory (20_memory.md R26): the bytes that do not read as an unlisted byte does, by address. -/
abbrev Memory := List Host.Cell

/-- The canonical form: addresses strictly rising, and no entry equal to what an unlisted address reads as. -/
abbrev Memory.wf (fill : Byte) (m : Memory) : Prop :=
  m.Pairwise (fun x y => x.1 < y.1) ∧ ∀ c ∈ m, c.2 ≠ fill

/-- Every listed address lies below `limit`. -/
abbrev Memory.below (limit : Nat) (m : Memory) : Prop := ∀ c ∈ m, c.1 < limit

/-- The byte at an address; an unlisted address reads as `fill` (93_implementation_defined.md U14, log 7). -/
def Memory.read (fill : Byte) : Memory → Nat → Byte
  | [], _ => fill
  | (k, b) :: m, a => if a = k then b else Memory.read fill m a

/-- Store a byte, keeping the canonical form: storing `fill` removes the entry. -/
def Memory.write (fill : Byte) : Memory → Nat → Byte → Memory
  | [], a, v => if v = fill then [] else [(a, v)]
  | (k, b) :: m, a, v =>
    if a < k then (if v = fill then (k, b) :: m else (a, v) :: (k, b) :: m)
    else if a = k then (if v = fill then m else (a, v) :: m)
    else (k, b) :: Memory.write fill m a v

end Sys2Proof
end

