-- ==== Sys2Proof/Syntax.lean ====
section
/-! DEFINITION. The instructions: one constructor per row of spec/opcode_table.json. -/

namespace Sys2Proof

/-- The instructions of the spec (30_encoding.md R42, R45, R46). -/
inductive Instr where
  /-- BRK: software break, staying in the current mode (41_trap_and_brk.md R55). -/
  | brk
  /-- RTI: return from an interrupt, an abort handler or a BRK handler (42_rti_and_rtu.md R56). -/
  | rti
  /-- CLI: clear the interrupt flag and the effective interrupt mask (43_jpu_sei_cli.md R62). -/
  | cli
  /-- SEI: set the interrupt flag (43_jpu_sei_cli.md R61). -/
  | sei
  /-- TRAP #n: trap into hypervisor mode through vector `n` (41_trap_and_brk.md R54; operand 30_encoding.md R43). -/
  | trap (n : Byte)
  /-- RTU: return from a TRAP (42_rti_and_rtu.md R58). -/
  | rtu
  /-- JPU $hhll, also written JMP.U (43_jpu_sei_cli.md R60; operand 30_encoding.md R44). -/
  | jpuAbs (operand : Half)
  /-- JPU ($hhll), also written JMP.U (43_jpu_sei_cli.md R60; operand 30_encoding.md R44). -/
  | jpuInd (operand : Half)
  deriving DecidableEq, Repr

end Sys2Proof
end

