-- ==== Sys2Proof/Config.lean ====
section
/-! DEFINITION. The parameters of the spec (00_scope.md section 4) as one record of plain data, which the machine's state
carries: what is said of every state is said for every value of every parameter. A parameter function is plain data too:
a finite table, or a named reading of the spec. The free values (constants with no body) stand at the end. -/

namespace Sys2Proof

/-- The address width option, `ADDR_BITS` in {16, 32, 64} (00_scope.md R1). -/
inductive AddrWidth where
  | bits16
  | bits32
  | bits64
  deriving DecidableEq, Repr, Inhabited

/-- A width of 2, 4 or 8 bytes: `nativeWidth`, `frameWidth`, `JPU_PTR_BYTES` (00_scope.md section 4). -/
inductive FrameWidth where
  | w2
  | w4
  | w8
  deriving DecidableEq, Repr, Inhabited

/-- The two modes (10_state.md R6). -/
inductive Mode where
  /-- Hypervisor mode, also called supervisor mode. -/
  | hyp
  /-- User mode. -/
  | user
  deriving DecidableEq, Repr, Inhabited

/-- The three address spaces (20_memory.md R24). -/
inductive Space where
  | hyp
  | user
  | phys
  deriving DecidableEq, Repr, Inhabited

/-- The kind of an access, as `translate` sees it (20_memory.md R30). -/
inductive Access where
  | read
  | write
  | fetch
  deriving DecidableEq, Repr, Inhabited

/-- The seven abort conditions (60_exceptions.md R72). -/
inductive AbortCause where
  | nomem
  | wprot
  | noexec
  | privrti
  | privop
  | maxtrap
  | privmem
  deriving DecidableEq, Repr, Inhabited

/-- What an address translation rule answers: a physical address at a fixed distance, or an abort. -/
inductive TransResult where
  | offset (by_ : Addr)
  | abort (cause : AbortCause)
  deriving DecidableEq, Repr

/-- One entry of the table that stands for the parameter function `translate` (20_memory.md R30, log 16): the accesses
of one mode and one kind to the addresses `lo` to `hi`. -/
structure TransRule where
  mode : Mode
  kind : Access
  lo : Nat
  hi : Nat
  result : TransResult
  deriving DecidableEq, Repr

/-- How a stack pointer wraps, `SP_WRAP` (20_memory.md R36). -/
inductive SpWrap where
  /-- Modulo 2^`ADDR_BITS`. -/
  | full
  /-- Only the low 8 bits count. -/
  | page
  deriving DecidableEq, Repr, Inhabited

/-- How JPU's 16-bit operand becomes an address, `ext16` (92_eei_decisions.md D17, log 21). -/
inductive Ext16 where
  /-- Sign extension. -/
  | signExtend
  /-- Zero extension. -/
  | zeroExtend
  /-- Any other function: the constant `Config.ext16Unknown`, of which nothing is known. -/
  | unknown
  deriving DecidableEq, Repr, Inhabited

/-- The layout of the extended status byte (10_state.md R11; OPEN, 92_eei_decisions.md D7, log 4): where the mode bit and
the two address width bits lie, which value of the mode bit says user mode, and the codes of the three widths (`awEnc`).
The five other bits take the remaining positions in ascending order. -/
structure EsrLayout where
  modePos : Nat
  awHiPos : Nat
  awLoPos : Nat
  userBit : Bool
  code2 : BitVec 2
  code4 : BitVec 2
  code8 : BitVec 2
  deriving DecidableEq, Repr

/-- The opcodes (30_encoding.md R45, R46): a byte for each of the four 6502 instructions, a byte string for each of the
others. -/
structure OpcodeTable where
  brk : Byte
  rti : Byte
  cli : Byte
  sei : Byte
  trap : List Byte
  rtu : List Byte
  jpuAbs : List Byte
  jpuInd : List Byte
  deriving DecidableEq, Repr

/-- The values of the effective interrupt mask, the abstract type `EimVal` (10_state.md R16, log 10): what has happened to
the register since it was last clear. Every implementation's `EimVal` is an image of this type, since `EIM_CLEAR`,
`eimOnEntry` and a configuration write are all that ever make a value. What an implementation's register holds for a value,
and so what the value blocks, is its code (`Config.eimCode`). -/
inductive EimVal where
  /-- `EIM_CLEAR`. -/
  | clear
  /-- A value that a configuration write put there, by its code. -/
  | written (code : Nat)
  /-- `eimOnEntry(prev, n)`: the value after entry to interrupt `n`. -/
  | entered (prev : EimVal) (n : Nat)
  deriving DecidableEq, Repr

/-- What entry to an interrupt does to the code that the effective interrupt mask holds: the part of `eimOnEntry` that
`eimBlocks` sees (10_state.md R16; OPEN, 92_eei_decisions.md D11, log 10). The code 0 is `EIM_CLEAR`'s. -/
inductive EimEntry where
  /-- The register holds the latest interrupt: entry to `n` makes the code `n + 1`, whatever it was. -/
  | latest
  /-- The register collects the interrupts entered: entry to `n` sets bit `n` of the code. -/
  | collect
  /-- Rows of a code, an interrupt and the code after entry to it; the first row that fits answers, and where none does the
  code stays. Every function on a register of finite width is such a table. -/
  | table (rows : List (Nat × Nat × Nat))
  /-- Any other function: the constant `Config.eimEntryUnknown`, of which nothing is known. -/
  | unknown
  deriving DecidableEq, Repr

/-- One row of a mask: the codes from `codeLo` on, up to `codeHi` if there is one, block the interrupts `intLo` to `intHi`. -/
structure MaskRow where
  codeLo : Nat
  codeHi : Option Nat
  intLo : Nat
  intHi : Nat
  deriving DecidableEq, Repr

/-- Which interrupts the code of a mask register blocks: the parameter predicates `eimBlocks` and `uimBlocks` on codes
(10_state.md R16, R17; OPEN, 92_eei_decisions.md D11, D12, logs 10, 11). -/
inductive IntMask where
  /-- What some row blocks. Every predicate on a register of finite width is such a list of rows. -/
  | rows (rows : List MaskRow)
  /-- Bit `n` of the code blocks interrupt `n`. -/
  | bits
  /-- Any other predicate: a constant of which nothing is known. -/
  | unknown
  deriving DecidableEq, Repr

/-- The parameters of 00_scope.md section 4. -/
structure Config where
  /-- `ADDR_BITS` (R1). -/
  addrWidth : AddrWidth
  /-- `HAS_SUPERVISOR` (R2). -/
  hasSupervisor : Bool
  /-- `HAS_TRANSLATION` (R3). -/
  hasTranslation : Bool
  /-- The table of `translate` (20_memory.md R30); the first entry that covers an access answers. -/
  translation : List TransRule
  /-- `NUM_INT` (R4). -/
  numInt : Nat
  /-- `intPriority` (60_exceptions.md R76): the interrupt numbers, the one taken first in front. -/
  priority : List Nat
  /-- `nativeWidth(Hyp)` (92_eei_decisions.md D5). -/
  nativeHyp : FrameWidth
  /-- `nativeWidth(User)`. -/
  nativeUser : FrameWidth
  /-- `frameWidth(Hyp)` (92_eei_decisions.md D6). -/
  frameHyp : FrameWidth
  /-- `frameWidth(User)`. -/
  frameUser : FrameWidth
  /-- `esrEncode`, `esrDecode`, `awEnc`, `awDec` (10_state.md R11). -/
  esr : EsrLayout
  /-- `TMV_BITS` (10_state.md R15). -/
  tmvBits : Nat
  /-- `eimOnEntry`, on codes (10_state.md R16). -/
  eimEntry : EimEntry
  /-- `eimBlocks`, on codes (10_state.md R16). -/
  eimMask : IntMask
  /-- `uimBlocks` (10_state.md R17). -/
  uimMask : IntMask
  /-- `SP_WRAP` (20_memory.md R36). -/
  spWrap : SpWrap
  /-- `ext16` (30_encoding.md R44). -/
  ext16 : Ext16
  /-- `JPU_PTR_BYTES` (43_jpu_sei_cli.md R60). -/
  jpuPtr : FrameWidth
  /-- `BRK_RETURN_OFFSET` (41_trap_and_brk.md R55). -/
  brkReturnOffset : Nat
  /-- `BRK_SETS_I` (41_trap_and_brk.md R55). -/
  brkSetsI : Bool
  /-- `B_FLAG`: bit 4 of the status image that BRK pushes (41_trap_and_brk.md R52). -/
  brkImageB : Bool
  /-- `B_FLAG`: bit 4 of the status image that interrupt and abort entry push (41_trap_and_brk.md R52). -/
  entryImageB : Bool
  /-- `RTI_FORCES_I_CLEAR` (42_rti_and_rtu.md R57). -/
  rtiForcesIClear : Bool
  /-- `OPC_BRK` and the seven others (30_encoding.md R45, R46). -/
  opcodes : OpcodeTable
  /-- `IBR_RESET` (10_state.md R23). -/
  ibrReset : Addr
  /-- `ABR_RESET` (10_state.md R23). -/
  abrReset : Addr
  /-- `TBR_RESET` (10_state.md R23). -/
  tbrReset : Addr
  /-- `UIM_RESET` (10_state.md R23). -/
  uimReset : Nat
  /-- What a byte of memory that nothing has written reads as (93_implementation_defined.md U14, log 7). -/
  fill : Byte
  deriving DecidableEq, Repr

/-- The number of bits of an address (00_scope.md R1). -/
def AddrWidth.bits : AddrWidth → Nat
  | .bits16 => 16
  | .bits32 => 32
  | .bits64 => 64

/-- `ADDR_BYTES` (00_scope.md R1). -/
def AddrWidth.bytes : AddrWidth → Nat
  | .bits16 => 2
  | .bits32 => 4
  | .bits64 => 8

/-- The number of bytes of a width. -/
def FrameWidth.bytes : FrameWidth → Nat
  | .w2 => 2
  | .w4 => 4
  | .w8 => 8

/-- `nativeWidth(mode)` (92_eei_decisions.md D5). -/
def Config.nativeWidth (c : Config) : Mode → FrameWidth
  | .hyp => c.nativeHyp
  | .user => c.nativeUser

/-- `frameWidth(mode)` (92_eei_decisions.md D6). -/
def Config.frameWidth (c : Config) : Mode → FrameWidth
  | .hyp => c.frameHyp
  | .user => c.frameUser

/-- The byte strings that an open opcode table holds, before any law is asked of them. -/
structure OpenOpcodes where
  trap : List Byte
  rtu : List Byte
  jpuAbs : List Byte
  jpuInd : List Byte
  deriving DecidableEq, Repr, Inhabited

/-- FREE VALUE (log 3): the opcodes of TRAP, RTU and the two forms of JPU, which no source gives (30_encoding.md R46). -/
opaque Config.openOpcodes : OpenOpcodes

/-- FREE VALUE (log 20): the `k`-th address that the rules leave open: what `pc` becomes when a return address or a
pointer wider than `ADDR_BITS` is loaded. -/
opaque Config.freeAddr : Nat → Addr

/-- FREE VALUE (log 21): the parameter function `ext16` where it is neither sign nor zero extension. -/
opaque Config.ext16Unknown : Half → Addr

/-- FREE VALUE (log 10): the code after entry to an interrupt, from the code before it, where `eimOnEntry` is none of the
named readings. -/
opaque Config.eimEntryUnknown : Nat → Nat → Nat

/-- FREE VALUE (log 10): the parameter predicate `eimBlocks` on codes and interrupts where it is none of the named readings. -/
opaque Config.eimBlocksUnknown : Nat → Nat → Bool

/-- FREE VALUE (log 11): the parameter predicate `uimBlocks` where it is none of the named readings. -/
opaque Config.uimBlocksUnknown : Nat → Nat → Bool

end Sys2Proof
end

