-- ==== Sys2Proof/WellFormed.lean ====
section
/-! DEFINITION. What makes a table of opcodes, a layout of the extended status byte, a set of parameters and an instruction
well formed. -/

namespace Sys2Proof

/-- The opcode of an instruction as a byte string (30_encoding.md R42). -/
def Instr.opcode (t : OpcodeTable) : Instr → List Byte
  | .brk => [t.brk]
  | .rti => [t.rti]
  | .cli => [t.cli]
  | .sei => [t.sei]
  | .trap _ => t.trap
  | .rtu => t.rtu
  | .jpuAbs _ => t.jpuAbs
  | .jpuInd _ => t.jpuInd

/-- The opcodes of the table, row by row. -/
def OpcodeTable.rows (t : OpcodeTable) : List (List Byte) :=
  [[t.brk], [t.rti], [t.cli], [t.sei], t.trap, t.rtu, t.jpuAbs, t.jpuInd]

/-- Neither byte string begins with the other, so that a decoder can tell the two apart. -/
abbrev Apart (a b : List Byte) : Prop := ¬ a <+: b ∧ ¬ b <+: a

/-- The opcodes are non-empty byte strings, pairwise different (30_encoding.md R46); no opcode begins with another, so
that the bytes of an instruction say which one it is (DEDUCED, log 3). -/
abbrev OpcodeTable.wf (t : OpcodeTable) : Prop :=
  (∀ o ∈ t.rows, o ≠ []) ∧ t.rows.Pairwise Apart

/-- An instruction is well formed for a table whose opcodes its own stands apart from: every instruction is for a
well-formed table (30_encoding.md R46). -/
abbrev Instr.wf (t : OpcodeTable) (i : Instr) : Prop :=
  i.opcode t ≠ [] ∧ ∀ o ∈ t.rows.erase (i.opcode t), Apart (i.opcode t) o

/-- The three named bits of the extended status byte lie at different places, and the codes of the three widths differ
(10_state.md R11: `awEnc` is injective). -/
abbrev EsrLayout.wf (l : EsrLayout) : Prop :=
  (l.modePos < 8 ∧ l.awHiPos < 8 ∧ l.awLoPos < 8)
  ∧ (l.modePos ≠ l.awHiPos ∧ l.modePos ≠ l.awLoPos ∧ l.awHiPos ≠ l.awLoPos)
  ∧ (l.code2 ≠ l.code4 ∧ l.code2 ≠ l.code8 ∧ l.code4 ≠ l.code8)

/-- The value has no bit above `ADDR_BITS` (00_scope.md R1). -/
abbrev Config.fits (c : Config) (a : Addr) : Prop := a.toNat < 2 ^ c.addrWidth.bits

/-- What 00_scope.md section 4 asks of the parameters. -/
structure Config.Wf (c : Config) : Prop where
  /-- R4: `1 <= NUM_INT <= 128`. -/
  numInt : 1 ≤ c.numInt ∧ c.numInt ≤ 128
  /-- R76: `intPriority` is a total order on the interrupt numbers. -/
  priority : c.priority.Perm (List.range c.numInt)
  /-- `nativeWidth(mode)` is at most `ADDR_BYTES`. -/
  native : ∀ m, (c.nativeWidth m).bytes ≤ c.addrWidth.bytes
  /-- A frame holds no more bytes than an address has (DEDUCED, log 39). -/
  frame : ∀ m, (c.frameWidth m).bytes ≤ c.addrWidth.bytes
  /-- R11: the law of `esrEncode` and `esrDecode`. -/
  esr : c.esr.wf
  /-- R15: `TMV_BITS` is at least 8. -/
  tmvBits : 8 ≤ c.tmvBits
  /-- R46: the opcodes can be told apart. -/
  opcodes : c.opcodes.wf
  /-- R12, R13, R14: the base registers are `ADDR_BITS` wide. -/
  resets : c.fits c.ibrReset ∧ c.fits c.abrReset ∧ c.fits c.tbrReset

end Sys2Proof
end

