-- ==== Sys2Proof/Decode.lean ====
section
/-! DEFINITION. The decoder, total on any bytes, and the encoder, both over a table of opcodes (30_encoding.md). -/

namespace Sys2Proof

/-- What a decoder makes of the bytes it has so far. -/
inductive Decoded where
  /-- An instruction, and the bytes after it. -/
  | ok (i : Instr) (rest : List Byte)
  /-- The bytes begin an instruction and end before it does. -/
  | short
  /-- No opcode of the table begins these bytes (30_encoding.md R47, R48): an undefined opcode, or a prefix. -/
  | undefined
  deriving DecidableEq, Repr

/-- The bytes after the opcode `o`, where the bytes begin with it. -/
def stripOpcode : List Byte → List Byte → Option (List Byte)
  | [], bs => some bs
  | _ :: _, [] => none
  | o :: os, b :: bs => if o = b then stripOpcode os bs else none

/-- Format F1: one operand byte follows the opcode (30_encoding.md R42, R43). -/
def takeByte (f : Byte → Instr) : List Byte → Decoded
  | n :: rest => .ok (f n) rest
  | [] => .short

/-- Format F2: two operand bytes follow the opcode, the low one first (30_encoding.md R42, R44). -/
def takeHalf (f : Half → Instr) : List Byte → Decoded
  | lo :: hi :: rest => .ok (f (hi ++ lo)) rest
  | _ => .short

/-- The opcodes the 65002 adds (30_encoding.md R46), and the bytes that no opcode begins (R47, R48). -/
def decodeOpen (t : OpcodeTable) (bs : List Byte) : Decoded :=
  match stripOpcode t.trap bs with
  | some rest => takeByte .trap rest
  | none =>
    match stripOpcode t.rtu bs with
    | some rest => .ok .rtu rest
    | none =>
      match stripOpcode t.jpuAbs bs with
      | some rest => takeHalf .jpuAbs rest
      | none =>
        match stripOpcode t.jpuInd bs with
        | some rest => takeHalf .jpuInd rest
        | none =>
          if [t.trap, t.rtu, t.jpuAbs, t.jpuInd].any (fun o => bs.isPrefixOf o) then .short else .undefined

/-- The instruction that the bytes begin with (30_encoding.md R42): the opcodes of the original 6502 first (R45), then
the others. -/
def decode (t : OpcodeTable) : List Byte → Decoded
  | [] => .short
  | b :: rest =>
    if b = t.brk then .ok .brk rest
    else if b = t.rti then .ok .rti rest
    else if b = t.cli then .ok .cli rest
    else if b = t.sei then .ok .sei rest
    else decodeOpen t (b :: rest)

/-- The operand bytes of an instruction (30_encoding.md R42). -/
def Instr.operandBytes : Instr → List Byte
  | .brk => []
  | .rti => []
  | .cli => []
  | .sei => []
  | .trap n => [n]
  | .rtu => []
  | .jpuAbs a => [a.setWidth 8, (a >>> 8).setWidth 8]
  | .jpuInd a => [a.setWidth 8, (a >>> 8).setWidth 8]

/-- The bytes of an instruction, in ascending addresses (30_encoding.md R42). -/
def encode (t : OpcodeTable) (i : Instr) : List Byte := i.opcode t ++ i.operandBytes

/-- The length of an instruction in bytes (30_encoding.md R42). -/
def Instr.length (t : OpcodeTable) (i : Instr) : Nat := (encode t i).length

/-- The most bytes that an instruction of the table can have: its longest opcode and two operand bytes. -/
def OpcodeTable.maxLength (t : OpcodeTable) : Nat := (t.rows.map List.length).foldr max 0 + 2

/-- The table of the four opcodes that the 65002 shares with the original 6502 (30_encoding.md R45, PRESUMED, log 2) with
the given others. -/
def OpenOpcodes.table (o : OpenOpcodes) : OpcodeTable :=
  { brk := 0x00, rti := 0x40, cli := 0x58, sei := 0x78
    trap := o.trap, rtu := o.rtu, jpuAbs := o.jpuAbs, jpuInd := o.jpuInd }

/-- Four opcodes that satisfy 30_encoding.md R46, used only to write down `lawfulOpenOpcodes` (log 3). -/
def placeholderOpcodes : OpenOpcodes := { trap := [0x02], rtu := [0x12], jpuAbs := [0x22], jpuInd := [0x32] }

/-- The free opcodes of TRAP, RTU and JPU, with the law of 30_encoding.md R46: whatever byte strings the constant holds,
if they satisfy the law they are these (log 3). -/
def lawfulOpenOpcodes : OpenOpcodes :=
  if Config.openOpcodes.table.wf then Config.openOpcodes else placeholderOpcodes

/-- The opcodes of the machine that `State.reset` is a state of (logs 2, 3). -/
def implementationOpcodes : OpcodeTable := lawfulOpenOpcodes.table

/-- The `n` low bytes of a number, the least significant first. -/
def wordBytes : Nat → Nat → List Byte
  | 0, _ => []
  | n + 1, w => BitVec.ofNat 8 w :: wordBytes n (w / 256)

/-- The bytes of a row of spec/opcode_table.json whose bits are `w`: `nbits` in whole bytes, and two zero operand bytes. -/
def tableBytes (nbits w : Nat) : List Byte := wordBytes ((nbits + 7) / 8) w ++ [0, 0]

/-- The instruction the decoder reads from an instruction whose bits are `w`. -/
def decodeTableWord (nbits w : Nat) : Option Instr :=
  match decode implementationOpcodes (tableBytes nbits w) with
  | .ok i _ => some i
  | .short => none
  | .undefined => none

end Sys2Proof
end

