-- ==== Sys2Proof/Machine/Bits.lean ====
section
/-! DEFINITION. Bit fields, widths and byte order: the narrowing to `ADDR_BITS`, the two ways a narrow value becomes an
address, the bytes of a value, and the image of the extended status byte. -/

namespace Sys2Proof

/-- Keep the low `ADDR_BITS` bits: address arithmetic is modulo 2^`ADDR_BITS` (00_scope.md 5.1, 10_state.md R5). -/
def Config.trunc (c : Config) (a : Addr) : Addr := (a.setWidth c.addrWidth.bits).setWidth 64

/-- `SignExtend(v)`: a vector with its top bit copied up to `ADDR_BITS` (20_memory.md R32). -/
def Config.signExtend (c : Config) (v : Half) : Addr := c.trunc (BitVec.signExtend 64 v)

/-- `Augment(base, v)`: a vector with the bits above it taken from `base` (20_memory.md R32). -/
def Config.augment (c : Config) (base : Addr) (v : Half) : Addr :=
  c.trunc ((base &&& ~~~(0xFFFF : Addr)) ||| v.setWidth 64)

/-- The address `-k` at `ADDR_BITS` bits (00_scope.md 5.1). -/
def Config.negAddr (c : Config) (k : Nat) : Addr := c.trunc (-(BitVec.ofNat 64 k))

/-- The `n` low bytes of a value, the least significant first (20_memory.md R27). -/
def bytesLE : Nat → Addr → List Byte
  | 0, _ => []
  | n + 1, v => v.setWidth 8 :: bytesLE n (v >>> 8)

/-- The value of up to eight bytes, the least significant first (20_memory.md R27). -/
def valueLE : List Byte → Addr
  | [] => 0
  | b :: bs => b.setWidth 64 ||| (valueLE bs <<< 8)

/-- A value of `w` bytes, sign-extended (42_rti_and_rtu.md R56, 92_eei_decisions.md D32). -/
def FrameWidth.signExtend (w : FrameWidth) (v : Addr) : Addr :=
  match w with
  | .w2 => BitVec.signExtend 64 (v.setWidth 16)
  | .w4 => BitVec.signExtend 64 (v.setWidth 32)
  | .w8 => v

/-- The code of a width in the two address width bits, `awEnc` (10_state.md R11). -/
def EsrLayout.awEnc (l : EsrLayout) : FrameWidth → BitVec 2
  | .w2 => l.code2
  | .w4 => l.code4
  | .w8 => l.code8

/-- The width that a code stands for, `awDec`; none where no width has the code (10_state.md R11). -/
def EsrLayout.awDec (l : EsrLayout) (k : BitVec 2) : Option FrameWidth :=
  if k = l.code2 then some .w2
  else if k = l.code4 then some .w4
  else if k = l.code8 then some .w8
  else none

/-- The positions of the five bits of the extended status byte that the source does not describe, in ascending order. -/
def EsrLayout.otherPos (l : EsrLayout) : List Nat :=
  [0, 1, 2, 3, 4, 5, 6, 7].filter (fun p => p ≠ l.modePos && p ≠ l.awHiPos && p ≠ l.awLoPos)

/-- The byte with the given bits. -/
def byteOfBits (f : Nat → Bool) : Byte :=
  BitVec.ofNat 8 ((f 0).toNat + 2 * (f 1).toNat + 4 * (f 2).toNat + 8 * (f 3).toNat
    + 16 * (f 4).toNat + 32 * (f 5).toNat + 64 * (f 6).toNat + 128 * (f 7).toNat)

/-- `esrEncode(mode, w, other)` (10_state.md R11). -/
def EsrLayout.encode (l : EsrLayout) (m : Mode) (w : FrameWidth) (other : BitVec 5) : Byte :=
  byteOfBits fun p =>
    if p = l.modePos then (m == .user) == l.userBit
    else if p = l.awHiPos then (l.awEnc w).getLsbD 1
    else if p = l.awLoPos then (l.awEnc w).getLsbD 0
    else other.getLsbD (l.otherPos.idxOf p)

/-- The mode that an image of the extended status byte records (10_state.md R11). -/
def EsrLayout.decodeMode (l : EsrLayout) (e : Byte) : Mode :=
  if e.getLsbD l.modePos = l.userBit then .user else .hyp

/-- The width that an image of the extended status byte records; none where it is invalid (10_state.md R11). -/
def EsrLayout.decodeWidth (l : EsrLayout) (e : Byte) : Option FrameWidth :=
  l.awDec (BitVec.ofNat 2 ((e.getLsbD l.awLoPos).toNat + 2 * (e.getLsbD l.awHiPos).toNat))

/-- The five other bits of an image of the extended status byte (10_state.md R11). -/
def EsrLayout.decodeOther (l : EsrLayout) (e : Byte) : BitVec 5 :=
  let bit := fun k => (e.getLsbD (l.otherPos.getD k 8)).toNat
  BitVec.ofNat 5 (bit 0 + 2 * bit 1 + 4 * bit 2 + 8 * bit 3 + 16 * bit 4)

/-- Whether an abort cause can belong to an access of this mode and kind (20_memory.md R30). -/
def AbortCause.appliesTo (cause : AbortCause) (m : Mode) (k : Access) : Bool :=
  match cause with
  | .nomem => true
  | .wprot => k == .write
  | .noexec => k == .fetch
  | .privmem => m == .user
  | .privrti => false
  | .privop => false
  | .maxtrap => false

/-- Whether an entry of the translation table covers an access: an entry whose abort could not belong to it does not
(20_memory.md R30, log 16). -/
def TransRule.covers (r : TransRule) (m : Mode) (k : Access) (a : Addr) : Bool :=
  r.mode == m && r.kind == k && r.lo ≤ a.toNat && a.toNat ≤ r.hi
    && (match r.result with
        | .offset _ => true
        | .abort cause => cause.appliesTo m k)

/-- The parameter function `translate` (20_memory.md R30): the first entry that covers the access answers, and where none
does there is no mapping for the address. -/
def Config.translate (c : Config) (m : Mode) (a : Addr) (k : Access) : Except AbortCause Addr :=
  match c.translation.find? (fun r => r.covers m k a) with
  | some r =>
    match r.result with
    | .offset d => .ok (c.trunc (a + d))
    | .abort cause => .error cause
  | none => .error .nomem

/-- The code after entry to interrupt `n`, from the code before it (10_state.md R16, log 10). -/
def EimEntry.next (f : EimEntry) (code n : Nat) : Nat :=
  match f with
  | .latest => n + 1
  | .collect => code ||| 2 ^ n
  | .table rows =>
    match rows.find? fun r => r.1 == code && r.2.1 == n with
    | some r => r.2.2
    | none => code
  | .unknown => Config.eimEntryUnknown code n

/-- What an implementation's register holds for a value of EIM (10_state.md R16, log 10): 0 where it is clear. -/
def Config.eimCode (c : Config) : EimVal → Nat
  | .clear => 0
  | .written code => code
  | .entered prev n => c.eimEntry.next (c.eimCode prev) n

/-- The row blocks interrupt `n` for this code. -/
def MaskRow.blocks (r : MaskRow) (code n : Nat) : Bool :=
  decide (r.codeLo ≤ code) && r.codeHi.all (fun hi => decide (code ≤ hi)) && decide (r.intLo ≤ n) && decide (n ≤ r.intHi)

/-- The mask blocks interrupt `n` for this code; `other` is the predicate that the reading `unknown` stands for. -/
def IntMask.blocks (m : IntMask) (other : Nat → Nat → Bool) (code n : Nat) : Bool :=
  match m with
  | .rows list => list.any fun r => r.blocks code n
  | .bits => code.testBit n
  | .unknown => other code n

/-- `eimBlocks(EIM, n)`: never for a register that holds the code of `EIM_CLEAR`, else as the parameter says (10_state.md R16). -/
def Config.eimBlocks (c : Config) (e : EimVal) (n : Nat) : Bool :=
  c.eimCode e != 0 && c.eimMask.blocks Config.eimBlocksUnknown (c.eimCode e) n

/-- `uimBlocks(UIM, n)`: as the parameter says (10_state.md R17). -/
def Config.uimBlocks (c : Config) (u n : Nat) : Bool := c.uimMask.blocks Config.uimBlocksUnknown u n

/-- `eimCause(EIM)`: the interrupt that EIM tells of (10_state.md R16). -/
def EimVal.cause : EimVal → Option Nat
  | .clear => none
  | .written _ => none
  | .entered _ n => some n

/-- `dec(sp)` (20_memory.md R36). -/
def Config.decSp (c : Config) (a : Addr) : Addr :=
  match c.spWrap with
  | .full => c.trunc (a - 1)
  | .page => (a &&& ~~~(0xFF : Addr)) ||| ((a - 1) &&& 0xFF)

/-- `inc(sp)` (20_memory.md R36). -/
def Config.incSp (c : Config) (a : Addr) : Addr :=
  match c.spWrap with
  | .full => c.trunc (a + 1)
  | .page => (a &&& ~~~(0xFF : Addr)) ||| ((a + 1) &&& 0xFF)

/-- The slot of an abort condition in the abort table (60_exceptions.md R72). -/
def AbortCause.slot : AbortCause → Nat
  | .nomem => 2
  | .wprot => 3
  | .noexec => 4
  | .privrti => 5
  | .privop => 6
  | .maxtrap => 7
  | .privmem => 8

/-- The space that a mode's own accesses are made in (20_memory.md R25). -/
def Mode.space : Mode → Space
  | .hyp => .hyp
  | .user => .user

end Sys2Proof
end

