-- ==== Sys2Proof/Machine/Params.lean ====
section
/-! DEFINITION. The parameters of the machine that `State.reset` is a state of (log 1). No statement rests on them: State
carries its parameters, and a statement about every state is one about all of them. -/

namespace Sys2Proof.Machine

/-- The layout of the extended status byte in `State.reset` (DESIGN CHOICE, log 4). -/
def implementationEsr : EsrLayout :=
  { modePos := 7, awHiPos := 1, awLoPos := 0, userBit := true, code2 := 0, code4 := 1, code8 := 2 }

/-- The parameters in `State.reset` (DESIGN CHOICE, log 1): a 16-bit processor, where every width and extension has one
reading, with the supervisor feature and without translation; the spec's defaults where it decides one. -/
def implementation : Config :=
  { addrWidth := .bits16
    hasSupervisor := true
    hasTranslation := false
    translation := []
    numInt := 8
    priority := List.range 8
    nativeHyp := .w2
    nativeUser := .w2
    frameHyp := .w2
    frameUser := .w2
    esr := implementationEsr
    tmvBits := 8
    eimEntry := .latest
    eimMask := .rows []
    uimMask := .rows []
    spWrap := .full
    ext16 := .signExtend
    jpuPtr := .w2
    brkReturnOffset := 2
    brkSetsI := false
    brkImageB := true
    entryImageB := false
    rtiForcesIClear := false
    opcodes := implementationOpcodes
    ibrReset := 0
    abrReset := 0
    tbrReset := 0
    uimReset := 0
    fill := 0 }

end Sys2Proof.Machine
end

