-- ==== Sys2Proof/Machine/State.lean ====
section
/-! DEFINITION. The state of the machine as plain data, the reasons a step can stop, and the state after reset. -/

namespace Sys2Proof.Machine

/-- The stored bits of `P`, the low status byte (10_state.md R8, R9, R10): bits 5 and 4 of its image have no storage. The
places of the bits are those of the 6502 (PRESUMED, log 34). -/
structure Status where
  /-- Bit 7, negative. -/
  n : Bool
  /-- Bit 6, overflow. -/
  v : Bool
  /-- Bit 3, decimal. -/
  d : Bool
  /-- Bit 2, the interrupt flag `P.I`. -/
  i : Bool
  /-- Bit 1, zero. -/
  z : Bool
  /-- Bit 0, carry. -/
  c : Bool
  deriving DecidableEq, Repr

/-- A configuration register with a value for it: what `WriteConfig` stores and `ReadConfig` answers (10_state.md R19, R22). -/
inductive ConfigValue where
  | ibr (v : Addr)
  | abr (v : Addr)
  | tbr (v : Addr)
  | tmv (v : Nat)
  | eim (v : EimVal)
  | uim (v : Nat)
  /-- `WriteConfig(XLATE, b)`, the translation switch. -/
  | xlate (on : Bool)
  deriving DecidableEq, Repr

/-- The configuration registers that `ReadConfig` reads (10_state.md R19). -/
inductive ConfigReg where
  | ibr
  | abr
  | tbr
  | tmv
  | eim
  | uim
  deriving DecidableEq, Repr

/-- The two abstract actions on the configuration registers (10_state.md R19). -/
inductive ConfigAction where
  | write (v : ConfigValue)
  | read (r : ConfigReg)
  deriving DecidableEq, Repr

/-- What the environment does at an instruction boundary (10_state.md R20; 70_reset_and_hazards.md R84, R89; log 13). -/
inductive Input where
  /-- The asserting interrupt lines are these from now on. -/
  | lines (asserted : List Nat)
  /-- The reset input, at the boundary. -/
  | reset
  /-- The reset input, in the middle of the step at this boundary, when the step has stored so many bytes (60_exceptions.md
  R79 item 1, log 14). -/
  | resetWithin (stores : Nat)
  /-- An abstract configuration action takes the place of the next instruction (10_state.md R19, log 15). -/
  | config (a : ConfigAction)
  deriving DecidableEq, Repr

/-- The state of the machine (10_state.md, the summary table and R5 to R22). -/
structure State where
  /-- The parameters of the machine, which nothing changes (00_scope.md section 4). -/
  cfg : Config
  /-- The program counter (R5). -/
  pc : Addr
  /-- The mode bit of the extended status register (R6). -/
  mode : Mode
  /-- `SP[Hyp]` (R7). -/
  spHyp : Addr
  /-- `SP[User]` (R7). -/
  spUser : Addr
  /-- The low status byte (R8). -/
  p : Status
  /-- `ESR.other`, the five undescribed bits of the extended status register (R11). -/
  esrOther : BitVec 5
  /-- The interrupt base register (R12). -/
  ibr : Addr
  /-- The abort base register (R13). -/
  abr : Addr
  /-- The trap base register (R14). -/
  tbr : Addr
  /-- IBR has been written since reset (R18). -/
  ibrActive : Bool
  /-- ABR has been written since reset (R18). -/
  abrActive : Bool
  /-- TBR has been written since reset (R18). -/
  tbrActive : Bool
  /-- The maximum number of trap vectors allowed (R15). -/
  tmv : Nat
  /-- The effective interrupt mask (R16). -/
  eim : EimVal
  /-- The user mode interrupt mask, by its code (R17). -/
  uim : Nat
  /-- The asserting interrupt lines (R20). -/
  lines : List Nat
  /-- Every register the source does not name (R21). -/
  other : List Nat
  /-- Address translation is enabled (R22). -/
  xlateOn : Bool
  /-- Memory (20_memory.md R24, R26). -/
  mem : Memory
  /-- The model's own: what the environment does at the coming boundaries (log 13). -/
  inputs : List Input
  /-- The model's own: what the last `ReadConfig` answered (log 15). -/
  configRead : Option ConfigValue
  /-- The model's own: how many free values have been drawn (log 20). -/
  draws : Nat
  deriving DecidableEq, Repr

/-- Why the machine stops. -/
inductive Fault where
  /-- An abort is raised while interrupt entry or abort entry itself pushes its frame or reads its vector. Raised by the
  two entry procedures in Machine/Ops.lean; safe: the spec says fault (93_implementation_defined.md U8, log 19). -/
  | abortInEntry (cause : AbortCause)
  deriving DecidableEq, Repr

/-- Why the model gives a step no meaning. -/
inductive Refusal where
  /-- An instruction that has no meaning yet; raised by no arm. Safe. -/
  | notModelled (mnemonic : String)
  /-- The bytes at the program counter begin with no opcode of the table, or with a prefix. Raised by the boundary in
  Machine/Boundary.lean; safe: the spec says refuse (30_encoding.md R47, R48; U9, U11). -/
  | undefinedOpcode
  /-- RTI or RTU pulls an address width code that no width has. Raised by Machine/Returns.lean; safe: the spec says refuse
  (42_rti_and_rtu.md R56, R58; U4). -/
  | invalidAddressWidth
  /-- JPU, or an image that says user mode, on a processor without the supervisor feature. Raised by Machine/Returns.lean
  and Machine/UserEntry.lean; safe: the spec says refuse (U10). -/
  | noSupervisorFeature
  /-- `WriteConfig` or `ReadConfig` in user mode. Raised by Machine/Boundary.lean; safe: the spec says refuse
  (10_state.md R19). -/
  | configActionInUserMode
  /-- `WriteConfig` of a base register with a reserved low bit set. Raised by Machine/Boundary.lean; safe: the spec says
  refuse (U1). -/
  | reservedBaseBits
  /-- `WriteConfig(XLATE, b)` on a processor without address translation. Raised by Machine/Boundary.lean; safe: the spec
  gives the switch only where the feature is present (10_state.md R22, log 15). -/
  | noTranslationFeature
  deriving DecidableEq, Repr

/-- The state after reset (10_state.md R23, 70_reset_and_hazards.md R84) of the machine with the parameters
`implementation` and with no memory listed: the program counter is the sign extension of the two bytes at -4. -/
def State.reset : State :=
  { cfg := implementation
    pc := implementation.signExtend
      (Memory.read implementation.fill [] (implementation.negAddr 3).toNat
        ++ Memory.read implementation.fill [] (implementation.negAddr 4).toNat)
    mode := .hyp
    spHyp := 0x0100
    spUser := 0x0100
    p := { n := false, v := false, d := false, i := false, z := false, c := false }
    esrOther := 0
    ibr := implementation.ibrReset
    abr := implementation.abrReset
    tbr := implementation.tbrReset
    ibrActive := false
    abrActive := false
    tbrActive := false
    tmv := 0
    eim := .clear
    uim := implementation.uimReset
    lines := []
    other := []
    xlateOn := false
    mem := []
    inputs := []
    configRead := none
    draws := 0 }

end Sys2Proof.Machine
end

