-- ==== Sys2Proof/Machine/Flags.lean ====
section
/-! DEFINITION. The status byte: its stacked image, what a pulled byte restores, and the interrupt flag. -/

namespace Sys2Proof.Machine

/-- The stored bits of the status register, all zero (10_state.md R23). -/
def Status.zero : Status := { n := false, v := false, d := false, i := false, z := false, c := false }

/-- `PImage(b5, b4)`: the byte that is pushed for the status register (41_trap_and_brk.md R52). -/
def Status.image (p : Status) (b5 b4 : Bool) : Byte :=
  byteOfBits fun k =>
    match k with
    | 0 => p.c
    | 1 => p.z
    | 2 => p.i
    | 3 => p.d
    | 4 => b4
    | 5 => b5
    | 6 => p.v
    | _ => p.n

/-- The stored bits that a pulled byte restores: bits 5 and 4 are dropped (10_state.md R10; 42_rti_and_rtu.md R56). -/
def Status.ofImage (b : Byte) : Status :=
  { n := b.getLsbD 7, v := b.getLsbD 6, d := b.getLsbD 3, i := b.getLsbD 2, z := b.getLsbD 1, c := b.getLsbD 0 }

/-- Bit 5 of a pulled status byte: the frame is a standard one (10_state.md R10). -/
def isStandardFrame (b : Byte) : Bool := b.getLsbD 5

/-- The status register with the interrupt flag at `b` (10_state.md R9). -/
def Status.withI (p : Status) (b : Bool) : Status := { p with i := b }

/-- The status register that RTI restores (42_rti_and_rtu.md R57): the pulled byte's stored bits, with the interrupt flag
cleared where `RTI_FORCES_I_CLEAR` says so. -/
def statusAfterRti (c : Config) (b : Byte) : Status :=
  if c.rtiForcesIClear then (Status.ofImage b).withI false else Status.ofImage b

end Sys2Proof.Machine
end

