-- ==== Sys2Proof/Machine/Ops.lean ====
section
/-! DEFINITION. The named operations over memory, stacks, vectors and the program counter, interrupt entry, abort entry,
the return from a frame, reset, and the abstract configuration actions. -/

namespace Sys2Proof.Machine

/-! ### Registers -/

/-- `SP[m]` (10_state.md R7). -/
def State.sp (s : State) : Mode → Addr
  | .hyp => s.spHyp
  | .user => s.spUser

/-- `SP[m] <- a`. -/
def State.setSp (s : State) (m : Mode) (a : Addr) : State :=
  match m with
  | .hyp => { s with spHyp := a }
  | .user => { s with spUser := a }

/-- `pc + length`, modulo 2^`ADDR_BITS`: the address after an instruction (10_state.md R5). -/
def State.nextPc (s : State) (i : Instr) : Addr :=
  s.cfg.trunc (s.pc + BitVec.ofNat 64 (i.length s.cfg.opcodes))

/-- Load a value of `w` bytes into `pc`, sign-extended to `ADDR_BITS` (42_rti_and_rtu.md R56, R58; 43_jpu_sei_cli.md R60).
What a value wider than `ADDR_BITS` becomes is not stated: a free value (log 20). -/
def State.loadPc (s : State) (w : FrameWidth) (v : Addr) : State :=
  if w.bytes ≤ s.cfg.addrWidth.bytes then { s with pc := s.cfg.trunc (w.signExtend v) }
  else { s with pc := s.cfg.trunc (Config.freeAddr s.draws), draws := s.draws + 1 }

/-! ### Memory accesses -/

/-- The physical address of an access, or the abort it meets (20_memory.md R24, R30): translated where translation is
present and on and the space is not `Phys`. -/
def State.translate (s : State) (sp : Space) (a : Addr) (k : Access) : Except AbortCause Addr :=
  if s.cfg.hasTranslation && s.xlateOn then
    match sp with
    | .hyp => s.cfg.translate .hyp a k
    | .user => s.cfg.translate .user a k
    | .phys => .ok (s.cfg.trunc a)
  else .ok (s.cfg.trunc a)

/-- The byte at a physical address (20_memory.md R26). -/
def State.peek (s : State) (a : Addr) : Byte := Memory.read s.cfg.fill s.mem a.toNat

/-- The state with a byte stored at a physical address (20_memory.md R26). -/
def State.poke (s : State) (a : Addr) (b : Byte) : State :=
  { s with mem := Memory.write s.cfg.fill s.mem a.toNat b }

/-- `MemRead(space, addr, 1)` and `Fetch(space, addr)` (00_scope.md 5.3). -/
def State.readByte (s : State) (sp : Space) (a : Addr) (k : Access) : Except AbortCause Byte :=
  match s.translate sp a k with
  | .ok pa => .ok (s.peek pa)
  | .error c => .error c

/-- `MemWrite(space, addr, 1, b)` (00_scope.md 5.3). -/
def State.writeByte (s : State) (sp : Space) (a : Addr) (b : Byte) : Except AbortCause State :=
  match s.translate sp a .write with
  | .ok pa => .ok (s.poke pa b)
  | .error c => .error c

/-- `MemRead(space, addr, n)` as the bytes at ascending addresses: one byte access after the other, modulo 2^`ADDR_BITS`
(20_memory.md R29). The ascending order of the accesses is the spec's for a vector; for JPU's pointer of 4 or 8 bytes the spec
gives none, and ascending is the model's (DESIGN CHOICE, log 41). -/
def State.readBytes (s : State) (sp : Space) : Nat → Addr → Except AbortCause (List Byte)
  | 0, _ => .ok []
  | n + 1, a =>
    match s.readByte sp a .read with
    | .error c => .error c
    | .ok b =>
      match s.readBytes sp n (s.cfg.trunc (a + 1)) with
      | .error c => .error c
      | .ok bs => .ok (b :: bs)

/-- `ReadVector16(space, a)` (20_memory.md R31). -/
def State.readVector (s : State) (sp : Space) (a : Addr) : Except AbortCause Half :=
  match s.readBytes sp 2 a with
  | .error c => .error c
  | .ok bs => .ok ((valueLE bs).setWidth 16)

/-! ### Stacks -/

/-- What a run of pushes comes to: done, or an abort met at a push, with the state that the pushes before it left
(93_implementation_defined.md U7). -/
inductive Pushed where
  | done (s : State)
  | aborted (cause : AbortCause) (s : State)
  deriving DecidableEq, Repr

/-- `Push(m, 1, b)` for each byte of a list, the first one first (20_memory.md R34): store at `SP[m]`, then decrement. -/
def State.pushBytes (m : Mode) : List Byte → State → Pushed
  | [], s => .done s
  | b :: bs, s =>
    match s.writeByte m.space (s.sp m) b with
    | .error c => .aborted c s
    | .ok s' => State.pushBytes m bs (s'.setSp m (s'.cfg.decSp (s'.sp m)))

/-- `PullAt(t, m, n)` (20_memory.md R35, 42_rti_and_rtu.md R56): pull `n` bytes, the first pulled in front, by a temporary
stack pointer `t`, with what `t` becomes. The state does not change. -/
def State.pullBytes (s : State) (m : Mode) : Nat → Addr → Except AbortCause (List Byte × Addr)
  | 0, t => .ok ([], t)
  | n + 1, t =>
    match s.readByte m.space (s.cfg.incSp t) .read with
    | .error c => .error c
    | .ok b =>
      match s.pullBytes m n (s.cfg.incSp t) with
      | .error c => .error c
      | .ok (bs, t') => .ok (b :: bs, t')

/-- `PullAt(t, m, 1)`. -/
def State.pullByte (s : State) (m : Mode) (t : Addr) : Except AbortCause (Byte × Addr) :=
  match s.readByte m.space (s.cfg.incSp t) .read with
  | .error c => .error c
  | .ok b => .ok (b, s.cfg.incSp t)

/-- `PullAt(t, m, w)` as one value, the first byte pulled being the least significant (20_memory.md R35). -/
def State.pullValue (s : State) (m : Mode) (w : FrameWidth) (t : Addr) : Except AbortCause (Addr × Addr) :=
  match s.pullBytes m w.bytes t with
  | .error c => .error c
  | .ok (bs, t') => .ok (valueLE bs, t')

/-- The bytes of a pushed return address in the order of the pushes: most significant first (20_memory.md R34). -/
def addressBytes (w : FrameWidth) (a : Addr) : List Byte := (bytesLE w.bytes a).reverse

/-- `EImage(mode, w)` with `w = frameWidth(mode)`: the extended status byte that an entry pushes (41_trap_and_brk.md R53). -/
def State.extendedImage (s : State) : Byte := s.cfg.esr.encode s.mode (s.cfg.frameWidth s.mode) s.esrOther

/-- The extended stack frame without status, in the order of the pushes (41_trap_and_brk.md R54; 42_rti_and_rtu.md R59). -/
def State.trapFrame (s : State) (ra : Addr) : List Byte :=
  addressBytes (s.cfg.frameWidth s.mode) ra ++ [s.extendedImage]

/-- The extended stack frame with status, in the order of the pushes (60_exceptions.md R77, R78; 42_rti_and_rtu.md R59). -/
def State.entryFrame (s : State) (ra : Addr) : List Byte :=
  s.trapFrame ra ++ [s.p.image false s.cfg.entryImageB]

/-- The standard stack frame, in the order of the pushes (41_trap_and_brk.md R55; 42_rti_and_rtu.md R59). -/
def State.brkFrame (s : State) (ra : Addr) : List Byte :=
  addressBytes (s.cfg.nativeWidth s.mode) ra ++ [s.p.image true s.cfg.brkImageB]

/-! ### What a step stores, byte by byte -/

/-- The bytes that a run of pushes on the stack of mode `m` stores, each with its physical address, in the order of the
pushes, up to a push that meets an abort (20_memory.md R34). -/
def State.pushStores (s : State) (m : Mode) : List Byte → Addr → List (Addr × Byte)
  | [], _ => []
  | b :: bs, a =>
    match s.translate m.space a .write with
    | .error _ => []
    | .ok pa => (pa, b) :: s.pushStores m bs (s.cfg.decSp a)

/-- The bytes that interrupt entry or abort entry stores (60_exceptions.md R77, R78). -/
def State.entryStores (s : State) : List (Addr × Byte) := s.pushStores .hyp (s.entryFrame s.pc) s.spHyp

/-- The state with bytes stored, the first one first. -/
def State.storeAll (s : State) : List (Addr × Byte) → State
  | [] => s
  | (a, b) :: rest => (s.poke a b).storeAll rest

/-! ### Vectors -/

/-- `IntVectorAddr(n)` (60_exceptions.md R69). -/
def State.intVectorAddr (s : State) (n : Nat) : Addr :=
  s.cfg.trunc ((s.ibr &&& ~~~(0xFF : Addr)) + BitVec.ofNat 64 (2 * n))

/-- `AbortVectorAddr(k)` for slot `k` (60_exceptions.md R70). -/
def State.abortVectorAddr (s : State) (k : Nat) : Addr :=
  s.cfg.trunc ((s.abr &&& ~~~(0xFF : Addr)) + 0xFE - BitVec.ofNat 64 (2 * k))

/-- `TrapVectorAddr(n)` (60_exceptions.md R71). -/
def State.trapVectorAddr (s : State) (n : Byte) : Addr :=
  s.cfg.trunc ((s.tbr &&& ~~~(0x1FF : Addr)) ||| (n.setWidth 64 <<< 1))

/-- A vector from a table, augmented with the upper bits of its base register (20_memory.md R32). -/
def State.tableTarget (s : State) (base va : Addr) : Except AbortCause Addr :=
  match s.readVector .hyp va with
  | .error c => .error c
  | .ok v => .ok (s.cfg.augment base v)

/-- A legacy vector at `-k`, sign-extended (60_exceptions.md R67). -/
def State.legacyTarget (s : State) (sp : Space) (k : Nat) : Except AbortCause Addr :=
  match s.readVector sp (s.cfg.negAddr k) with
  | .error c => .error c
  | .ok v => .ok (s.cfg.signExtend v)

/-- Where interrupt `n` goes (60_exceptions.md R68, R77 steps 7 to 9). -/
def State.interruptTarget (s : State) (n : Nat) : Except AbortCause Addr :=
  if s.ibrActive then s.tableTarget s.ibr (s.intVectorAddr n)
  else if n = 0 then s.legacyTarget .hyp 6
  else s.legacyTarget .hyp 2

/-- Where an abort goes (60_exceptions.md R68, R78 steps 7 and 8). -/
def State.abortTarget (s : State) (cause : AbortCause) : Except AbortCause Addr :=
  if s.abrActive then s.tableTarget s.abr (s.abortVectorAddr cause.slot)
  else s.legacyTarget .hyp 8

/-- Where TRAP `n` goes (60_exceptions.md R68; 41_trap_and_brk.md R54 steps 7 to 11). -/
def State.trapTarget (s : State) (n : Byte) : Except AbortCause Addr :=
  if s.tbrActive then s.tableTarget s.tbr (s.trapVectorAddr n)
  else s.legacyTarget .hyp 10

/-- Where BRK goes (60_exceptions.md R68; 41_trap_and_brk.md R55 steps 6 to 11). -/
def State.brkTarget (s : State) : Except AbortCause Addr :=
  match s.mode with
  | .hyp => if s.abrActive then s.tableTarget s.abr (s.abortVectorAddr 0) else s.legacyTarget .hyp 2
  | .user => s.legacyTarget .user 2

/-! ### Taking an exception -/

/-- Abort entry, `raise Abort(c)` (60_exceptions.md R78): the extended frame with status on the hypervisor stack, stacking
`pc`, the address of the first byte of the aborting instruction; then hypervisor mode; then the vector. An abort inside
the entry is a fault (93_implementation_defined.md U8, log 19). -/
def raiseAbort (cause : AbortCause) (s : State) : Host.Outcome State Fault Refusal :=
  match State.pushBytes .hyp (s.entryFrame s.pc) s with
  | .aborted c _ => .fault (.abortInEntry c)
  | .done s1 =>
    match ({ s1 with mode := .hyp } : State).abortTarget cause with
    | .error c => .fault (.abortInEntry c)
    | .ok target => .next { s1 with mode := .hyp, pc := target }

/-- Interrupt entry, `TakeInterrupt(n)` (60_exceptions.md R77). -/
def takeInterrupt (n : Nat) (s : State) : Host.Outcome State Fault Refusal :=
  match State.pushBytes .hyp (s.entryFrame s.pc) s with
  | .aborted c _ => .fault (.abortInEntry c)
  | .done s1 =>
    match ({ s1 with mode := .hyp, eim := .entered s1.eim n } : State).interruptTarget n with
    | .error c => .fault (.abortInEntry c)
    | .ok target => .next { s1 with mode := .hyp, eim := .entered s1.eim n, pc := target }

/-- What an instruction itself comes to: it is complete, it raises an abort (00_scope.md section 5.4) in the state that the
steps before it left (93_implementation_defined.md U7, log 17), or the spec gives the case no meaning. -/
inductive Effect where
  | next (s : State)
  | abort (cause : AbortCause) (s : State)
  | refused (r : Refusal)
  deriving DecidableEq, Repr

/-- The abort that an instruction raises is taken. -/
def Effect.finish : Effect → Host.Outcome State Fault Refusal
  | .next s => .next s
  | .abort c s => raiseAbort c s
  | .refused r => .refused r

/-- Go on with the answer of a memory access, or abort in the state `s`. -/
def orAbort (s : State) (r : Except AbortCause Addr) (k : Addr → Effect) : Effect :=
  match r with
  | .error c => .abort c s
  | .ok a => k a

/-- Push a frame and go on, or abort in the state that the earlier pushes left (93_implementation_defined.md U7). -/
def pushOrAbort (m : Mode) (frame : List Byte) (s : State) (k : State → Effect) : Effect :=
  match State.pushBytes m frame s with
  | .aborted c s' => .abort c s'
  | .done s' => k s'

/-! ### Returning from one -/

/-- The end of an extended return (42_rti_and_rtu.md R56 steps 11 to 18, R58 steps 5 to 9): the width, mode and other bits
that the image `e` records, an address of that width pulled from the stack of mode `m` at `t`, then all committed at once.
`commit` is what the return does besides. -/
def returnExtended (m : Mode) (e : Byte) (t : Addr) (commit : State → State) (s : State) : Effect :=
  if s.cfg.hasSupervisor = false ∧ s.cfg.esr.decodeMode e = .user then .refused .noSupervisorFeature
  else
    match s.cfg.esr.decodeWidth e with
    | none => .refused .invalidAddressWidth
    | some w =>
      match s.pullValue m w t with
      | .error c => .abort c s
      | .ok (a, t') =>
        .next ((commit { s.setSp m t' with mode := s.cfg.esr.decodeMode e
                                           esrOther := s.cfg.esr.decodeOther e }).loadPc w a)

/-- The end of a standard return (42_rti_and_rtu.md R56 steps 4 to 6 and 14 to 18): an address of the native width of the
current mode; the mode and the other bits of ESR stay. -/
def returnStandard (t : Addr) (commit : State → State) (s : State) : Effect :=
  match s.pullValue s.mode (s.cfg.nativeWidth s.mode) t with
  | .error c => .abort c s
  | .ok (a, t') => .next ((commit (s.setSp s.mode t')).loadPc (s.cfg.nativeWidth s.mode) a)

/-! ### Reset -/

/-- The vector at `-4` in physical memory (70_reset_and_hazards.md R84 step 2): never translated, so it cannot abort. -/
def State.resetVector (s : State) : Half := s.peek (s.cfg.negAddr 3) ++ s.peek (s.cfg.negAddr 4)

/-- The reset sequence (70_reset_and_hazards.md R84, 10_state.md R23). Memory, the interrupt lines and the fields that are
the model's own stay. -/
def State.resetSequence (s : State) : State :=
  { s with
    pc := s.cfg.signExtend s.resetVector
    mode := .hyp
    spHyp := 0x0100
    spUser := 0x0100
    p := Status.zero
    esrOther := 0
    ibr := s.cfg.ibrReset
    abr := s.cfg.abrReset
    tbr := s.cfg.tbrReset
    ibrActive := false
    abrActive := false
    tbrActive := false
    tmv := 0
    eim := .clear
    uim := s.cfg.uimReset
    other := s.other.map fun _ => 0
    xlateOn := false }

/-! ### The configuration registers -/

/-- `WriteConfig(reg, v)` (10_state.md R18, R19, R22): available in hypervisor mode; a base register becomes active; a
reserved low bit that is set is refused (R12, R13, R14; 93_implementation_defined.md U1). -/
def writeConfig (v : ConfigValue) (s : State) : Host.Outcome State Fault Refusal :=
  match s.mode with
  | .user => .refused .configActionInUserMode
  | .hyp =>
    match v with
    | .ibr a => if a &&& 0xFF = 0 then .next { s with ibr := s.cfg.trunc a, ibrActive := true } else .refused .reservedBaseBits
    | .abr a => if a &&& 0xFF = 0 then .next { s with abr := s.cfg.trunc a, abrActive := true } else .refused .reservedBaseBits
    | .tbr a => if a &&& 0x1FF = 0 then .next { s with tbr := s.cfg.trunc a, tbrActive := true } else .refused .reservedBaseBits
    | .tmv n => .next { s with tmv := n % 2 ^ s.cfg.tmvBits }
    | .eim e => .next { s with eim := e }
    | .uim u => .next { s with uim := u }
    | .xlate b => if s.cfg.hasTranslation then .next { s with xlateOn := b } else .refused .noTranslationFeature

/-- The value of a configuration register (10_state.md R19). -/
def State.configValue (s : State) : ConfigReg → ConfigValue
  | .ibr => .ibr s.ibr
  | .abr => .abr s.abr
  | .tbr => .tbr s.tbr
  | .tmv => .tmv s.tmv
  | .eim => .eim s.eim
  | .uim => .uim s.uim

/-- `ReadConfig(reg)` (10_state.md R19): available in hypervisor mode. -/
def readConfig (r : ConfigReg) (s : State) : Host.Outcome State Fault Refusal :=
  match s.mode with
  | .user => .refused .configActionInUserMode
  | .hyp => .next { s with configRead := some (s.configValue r) }

/-- One of the two abstract actions (10_state.md R19). -/
def configAction (a : ConfigAction) (s : State) : Host.Outcome State Fault Refusal :=
  match a with
  | .write v => writeConfig v s
  | .read r => readConfig r s

end Sys2Proof.Machine
end

