-- ==== Sys2Proof/Machine/Operands.lean ====
section
/-! DEFINITION. The operand forms: TRAP's byte, JPU's absolute address and JPU's pointer in user space. -/

namespace Sys2Proof

/-- The operand address of JPU, `ext16(hi ++ lo)` (30_encoding.md R44; 92_eei_decisions.md D17, log 21): the identity at
16 bits. -/
def Config.extendOperand (c : Config) (operand : Half) : Addr :=
  match c.addrWidth, c.ext16 with
  | .bits16, _ => operand.setWidth 64
  | _, .signExtend => c.signExtend operand
  | _, .zeroExtend => operand.setWidth 64
  | _, .unknown => c.trunc (Config.ext16Unknown operand)

end Sys2Proof

namespace Sys2Proof.Machine

/-- The trap number, zero-extended for the comparison with TMV (30_encoding.md R43; 41_trap_and_brk.md R54 step 2). -/
def State.trapAllowed (s : State) (n : Byte) : Bool := n.toNat < s.tmv

/-- The pointer that JPU's indirect form reads in user space, `JPU_PTR_BYTES` wide (43_jpu_sei_cli.md R60 step 6). -/
def State.readPointer (s : State) (a : Addr) : Except AbortCause Addr :=
  match s.readBytes .user s.cfg.jpuPtr.bytes a with
  | .error c => .error c
  | .ok bs => .ok (valueLE bs)

end Sys2Proof.Machine
end

