-- ==== Sys2Proof/Machine/Entries.lean ====
section
/-! DEFINITION. The instructions that enter a handler: TRAP and BRK (41_trap_and_brk.md). -/

namespace Sys2Proof.Machine

/-- TRAP #n (41_trap_and_brk.md R54). A trap that TMV does not allow aborts before anything is pushed. -/
def trapEffect (n : Byte) (s : State) : Effect :=
  if s.trapAllowed n then
    pushOrAbort .hyp (s.trapFrame (s.nextPc (.trap n))) s fun s1 =>
      orAbort { s1 with mode := .hyp } (({ s1 with mode := .hyp } : State).trapTarget n) fun target =>
        .next { s1 with mode := .hyp, pc := target }
  else .abort .maxtrap s

/-- TRAP #n, with the abort it may raise taken (60_exceptions.md R78). -/
def execTrap (n : Byte) (s : State) : Host.Outcome State Fault Refusal := (trapEffect n s).finish

/-- The bytes that TRAP itself stores (41_trap_and_brk.md R54 steps 4 and 5). -/
def trapStores (n : Byte) (s : State) : List (Addr × Byte) :=
  if s.trapAllowed n then s.pushStores .hyp (s.trapFrame (s.nextPc (.trap n))) s.spHyp else []

/-- The address that BRK stacks, `pc + BRK_RETURN_OFFSET` (41_trap_and_brk.md R55 step 2). -/
def State.brkReturn (s : State) : Addr := s.cfg.trunc (s.pc + BitVec.ofNat 64 s.cfg.brkReturnOffset)

/-- `if BRK_SETS_I then P.I <- 1` (41_trap_and_brk.md R55 step 5). -/
def State.brkSetsFlag (s : State) : State := if s.cfg.brkSetsI then { s with p := s.p.withI true } else s

/-- BRK (41_trap_and_brk.md R55): the standard frame on the current stack, the BRK vector, the mode unchanged. -/
def brkEffect (s : State) : Effect :=
  pushOrAbort s.mode (s.brkFrame s.brkReturn) s fun s1 =>
    orAbort s1.brkSetsFlag s1.brkSetsFlag.brkTarget fun target =>
      .next { s1.brkSetsFlag with pc := target }

/-- BRK, with the abort it may raise taken (60_exceptions.md R78). -/
def execBrk (s : State) : Host.Outcome State Fault Refusal := (brkEffect s).finish

/-- The bytes that BRK itself stores (41_trap_and_brk.md R55 steps 3 and 4). -/
def brkStores (s : State) : List (Addr × Byte) := s.pushStores s.mode (s.brkFrame s.brkReturn) (s.sp s.mode)

end Sys2Proof.Machine
end

