-- ==== Sys2Proof/Machine/Returns.lean ====
section
/-! DEFINITION. The instructions that return from a handler: RTI and RTU (42_rti_and_rtu.md). -/

namespace Sys2Proof.Machine

/-- What RTI commits besides the frame (42_rti_and_rtu.md R56 steps 15 and 17, R57): the status register from the pulled
byte, and a clear EIM. -/
def rtiCommit (b : Byte) (s : State) : State := { s with p := statusAfterRti s.cfg b, eim := .clear }

/-- RTI (42_rti_and_rtu.md R56). In user mode an extended frame whose image says hypervisor mode aborts, with nothing
committed. -/
def rtiEffect (s : State) : Effect :=
  match s.pullByte s.mode (s.sp s.mode) with
  | .error c => .abort c s
  | .ok (b, t) =>
    if isStandardFrame b then returnStandard t (rtiCommit b) s
    else
      match s.pullByte s.mode t with
      | .error c => .abort c s
      | .ok (e, t') =>
        if s.mode = .user ∧ s.cfg.esr.decodeMode e = .hyp then .abort .privrti s
        else returnExtended s.mode e t' (rtiCommit b) s

/-- RTI, with the abort it may raise taken (60_exceptions.md R78). -/
def execRti (s : State) : Host.Outcome State Fault Refusal := (rtiEffect s).finish

/-- RTU (42_rti_and_rtu.md R58): privileged; the status register and EIM stay. -/
def rtuEffect (s : State) : Effect :=
  match s.mode with
  | .user => .abort .privop s
  | .hyp =>
    match s.pullByte .hyp s.spHyp with
    | .error c => .abort c s
    | .ok (e, t) => returnExtended .hyp e t id s

/-- RTU, with the abort it may raise taken (60_exceptions.md R78). -/
def execRtu (s : State) : Host.Outcome State Fault Refusal := (rtuEffect s).finish

end Sys2Proof.Machine
end

