-- ==== Sys2Proof/Machine/UserEntry.lean ====
section
/-! DEFINITION. JPU, which enters user mode, and the instructions of the interrupt flag, SEI and CLI (43_jpu_sei_cli.md). -/

namespace Sys2Proof.Machine

/-- The privilege test of JPU (43_jpu_sei_cli.md R60 step 1 and corner case b): no meaning without the supervisor feature
(U10), PRIVOP in user mode. -/
def enterUser (s : State) (k : State → Effect) : Effect :=
  if s.cfg.hasSupervisor then
    match s.mode with
    | .user => .abort .privop s
    | .hyp => k { s with mode := .user }
  else .refused .noSupervisorFeature

/-- JPU $hhll (43_jpu_sei_cli.md R60, absolute form). -/
def jpuAbsEffect (operand : Half) (s : State) : Effect :=
  enterUser s fun s1 => .next { s1 with pc := s1.cfg.extendOperand operand }

/-- JPU $hhll, with the abort it may raise taken (60_exceptions.md R78). -/
def execJpuAbs (operand : Half) (s : State) : Host.Outcome State Fault Refusal := (jpuAbsEffect operand s).finish

/-- JPU ($hhll) (43_jpu_sei_cli.md R60, indirect form): the pointer is read in user space after the mode has changed. -/
def jpuIndEffect (operand : Half) (s : State) : Effect :=
  enterUser s fun s1 =>
    orAbort s1 (s1.readPointer (s1.cfg.extendOperand operand)) fun ptr => .next (s1.loadPc s1.cfg.jpuPtr ptr)

/-- JPU ($hhll), with the abort it may raise taken (60_exceptions.md R78). -/
def execJpuInd (operand : Half) (s : State) : Host.Outcome State Fault Refusal := (jpuIndEffect operand s).finish

/-- SEI (43_jpu_sei_cli.md R61). -/
def seiEffect (s : State) : Effect := .next { s with p := s.p.withI true, pc := s.nextPc .sei }

/-- SEI, which raises no abort. -/
def execSei (s : State) : Host.Outcome State Fault Refusal := (seiEffect s).finish

/-- CLI (43_jpu_sei_cli.md R62). -/
def cliEffect (s : State) : Effect := .next { s with p := s.p.withI false, eim := .clear, pc := s.nextPc .cli }

/-- CLI, which raises no abort. -/
def execCli (s : State) : Host.Outcome State Fault Refusal := (cliEffect s).finish

end Sys2Proof.Machine
end

