-- ==== Sys2Proof/Machine/Dispatch.lean ====
section
/-! DEFINITION. One arm per instruction. -/

namespace Sys2Proof.Machine

-- The meaning of an instruction whose bytes lie at the program counter.
def exec (i : Instr) (s : State) : Host.Outcome State Fault Refusal :=
  match i with
  | .brk => Sys2Proof.Machine.execBrk s
  | .rti => Sys2Proof.Machine.execRti s
  | .cli => Sys2Proof.Machine.execCli s
  | .sei => Sys2Proof.Machine.execSei s
  | .trap n => Sys2Proof.Machine.execTrap n s
  | .rtu => Sys2Proof.Machine.execRtu s
  | .jpuAbs operand => Sys2Proof.Machine.execJpuAbs operand s
  | .jpuInd operand => Sys2Proof.Machine.execJpuInd operand s

end Sys2Proof.Machine
end

