-- ==== Sys2Proof/Machine/Fetch.lean ====
section
/-! DEFINITION. Fetching the bytes of an instruction, and placing an instruction where it is fetched. -/

namespace Sys2Proof.Machine

/-- What a fetch comes to. -/
inductive Fetched where
  | instr (i : Instr)
  | abort (cause : AbortCause)
  | undefined
  deriving DecidableEq, Repr

/-- The address of the `k`-th byte at the program counter (10_state.md R5). -/
def State.codeAddr (s : State) (k : Nat) : Addr := s.cfg.trunc (s.pc + BitVec.ofNat 64 k)

/-- `Fetch(space, addr)` of the `k`-th byte at the program counter, in the space of the current mode (20_memory.md R25). -/
def State.fetchByte (s : State) (k : Nat) : Except AbortCause Byte :=
  s.readByte s.mode.space (s.codeAddr k) .fetch

/-- Fetch byte after byte until the decoder has an instruction (60_exceptions.md R79: fetch aborts on the opcode byte,
then on the operand bytes). `bs` holds the bytes fetched so far; the first argument bounds how many more there can be. -/
def State.fetchMore (s : State) : Nat → List Byte → Fetched
  | 0, _ => .undefined
  | n + 1, bs =>
    match s.fetchByte bs.length with
    | .error c => .abort c
    | .ok b =>
      match decode s.cfg.opcodes (bs ++ [b]) with
      | .ok i _ => .instr i
      | .short => s.fetchMore n (bs ++ [b])
      | .undefined => .undefined

/-- The instruction at the program counter. -/
def State.fetchInstr (s : State) : Fetched := s.fetchMore s.cfg.opcodes.maxLength []

/-- The state with bytes stored where the next instruction's bytes from the `k`-th on are fetched. -/
def State.placeBytes : List Byte → Nat → State → State
  | [], _, s => s
  | b :: bs, k, s =>
    match s.translate s.mode.space (s.codeAddr k) .fetch with
    | .ok pa => State.placeBytes bs (k + 1) (s.poke pa b)
    | .error _ => State.placeBytes bs (k + 1) s

/-- The state with an instruction stored where it is fetched, and nothing at the boundary that would come before it: no
interrupt line asserts and the environment does nothing. -/
def State.withCode (s : State) (bs : List Byte) : State :=
  State.placeBytes bs 0 { s with lines := [], inputs := [] }

end Sys2Proof.Machine
end

