-- ==== Sys2Proof/Machine/Boundary.lean ====
section
/-! DEFINITION. An instruction boundary: reset, then an acceptable interrupt, then one instruction (60_exceptions.md R79); and
a reset in the middle of what the boundary begins. -/

namespace Sys2Proof.Machine

/-- `acceptable(n)` (60_exceptions.md R75). -/
def State.acceptable (s : State) (n : Nat) : Bool :=
  s.lines.contains n && decide (n < s.cfg.numInt) && !s.cfg.eimBlocks s.eim n
    && (n == 0 || !s.p.i || (s.mode == .user && !s.cfg.uimBlocks s.uim n))

/-- The interrupt that is taken at this boundary, the first acceptable one by `intPriority` (60_exceptions.md R76). -/
def State.nextInterrupt (s : State) : Option Nat := s.cfg.priority.find? fun n => s.acceptable n

/-- One instruction, fetched and executed (60_exceptions.md R79 item 3). -/
def runInstruction (s : State) : Host.Outcome State Fault Refusal :=
  match s.fetchInstr with
  | .instr i => exec i s
  | .abort c => raiseAbort c s
  | .undefined => .refused .undefinedOpcode

/-- What happens where no interrupt is taken: a configuration action that stands next in the environment's list takes the
place of an instruction (10_state.md R19, log 15), else one instruction executes. -/
def runAction (s : State) : Host.Outcome State Fault Refusal :=
  match s.inputs with
  | .config a :: rest => configAction a { s with inputs := rest }
  | .lines _ :: _ => runInstruction s
  | .reset :: _ => runInstruction s
  | .resetWithin _ :: _ => runInstruction s
  | [] => runInstruction s

/-- A boundary at which no reset occurs (60_exceptions.md R79 items 2 and 3). -/
def runBoundary (s : State) : Host.Outcome State Fault Refusal :=
  match s.nextInterrupt with
  | some n => takeInterrupt n s
  | none => runAction s

/-- The state with these interrupt lines asserting; a line the processor does not have cannot assert (10_state.md R20,
93_implementation_defined.md U18). -/
def State.withLines (s : State) (asserted : List Nat) : State :=
  { s with lines := asserted.filter fun n => n < s.cfg.numInt }

/-- What an instruction itself comes to, before the abort it may raise is taken: `exec` finishes it. -/
def instrEffect (i : Instr) (s : State) : Effect :=
  match i with
  | .brk => brkEffect s
  | .rti => rtiEffect s
  | .cli => cliEffect s
  | .sei => seiEffect s
  | .trap n => trapEffect n s
  | .rtu => rtuEffect s
  | .jpuAbs operand => jpuAbsEffect operand s
  | .jpuInd operand => jpuIndEffect operand s

/-- The bytes that an instruction itself stores: TRAP and BRK alone push. -/
def ownStores (i : Instr) (s : State) : List (Addr × Byte) :=
  match i with
  | .brk => brkStores s
  | .trap n => trapStores n s
  | .rti => []
  | .cli => []
  | .sei => []
  | .rtu => []
  | .jpuAbs _ => []
  | .jpuInd _ => []

/-- The bytes that abort entry stores after an instruction, if it raises an abort (60_exceptions.md R78). -/
def Effect.abortStores : Effect → List (Addr × Byte)
  | .next _ => []
  | .abort _ s => s.entryStores
  | .refused _ => []

/-- The bytes that `runInstruction` stores, in order. -/
def State.instructionStores (s : State) : List (Addr × Byte) :=
  match s.fetchInstr with
  | .instr i => ownStores i s ++ (instrEffect i s).abortStores
  | .abort _ => s.entryStores
  | .undefined => []

/-- The bytes that `runBoundary` stores, in order: those of interrupt entry, none for a configuration action, or those of
the instruction. -/
def State.boundaryStores (s : State) : List (Addr × Byte) :=
  match s.nextInterrupt with
  | some _ => s.entryStores
  | none =>
    match s.inputs with
    | .config _ :: _ => []
    | .lines _ :: _ => s.instructionStores
    | .reset :: _ => s.instructionStores
    | .resetWithin _ :: _ => s.instructionStores
    | [] => s.instructionStores

/-- A reset in the middle of what a boundary begins, when `k` bytes are stored: it discards everything but the bytes stored
(60_exceptions.md R79 item 1; 10_state.md R23). Where fewer bytes are stored it comes at the end, if there is one: what the
model stops on has no later moment (log 14). -/
def resetWithin (k : Nat) (s : State) : Host.Outcome State Fault Refusal :=
  if k ≤ s.boundaryStores.length then .next (s.storeAll (s.boundaryStores.take k)).resetSequence
  else
    match runBoundary s with
    | .next t => .next t.resetSequence
    | .fault f => .fault f
    | .refused r => .refused r

/-- A boundary, with the reset that may come in the middle of what it begins. -/
def runOrReset (s : State) : Host.Outcome State Fault Refusal :=
  match s.inputs with
  | .resetWithin k :: rest => resetWithin k { s with inputs := rest }
  | .config _ :: _ => runBoundary s
  | .lines _ :: _ => runBoundary s
  | .reset :: _ => runBoundary s
  | [] => runBoundary s

/-- One step: what the environment does at this boundary (10_state.md R20, log 13), then the boundary. A reset discards
everything else, at any time (60_exceptions.md R79 item 1). -/
def stepOnce (s : State) : Host.Outcome State Fault Refusal :=
  match s.inputs with
  | .reset :: rest => .next ({ s with inputs := rest } : State).resetSequence
  | .lines asserted :: rest => runOrReset (({ s with inputs := rest } : State).withLines asserted)
  | .resetWithin _ :: _ => runOrReset s
  | .config _ :: _ => runOrReset s
  | [] => runOrReset s

end Sys2Proof.Machine
end

