-- ==== Sys2Proof/Safety.lean ====
section
/-! DEFINITION. What claims about runs are stated in: the invariant of the machine, and the outcomes of a step. -/

namespace Sys2Proof

/-- The stack pointer after `n` pushes of a byte (20_memory.md R34, R36). -/
def Config.decSpN (c : Config) : Nat → Addr → Addr
  | 0, a => a
  | n + 1, a => c.decSpN n (c.decSp a)

/-- The stack pointer after `n` pulls of a byte (20_memory.md R35, R36). -/
def Config.incSpN (c : Config) : Nat → Addr → Addr
  | 0, a => a
  | n + 1, a => c.incSpN n (c.incSp a)

end Sys2Proof

namespace Sys2Proof.Machine

/-- A legal state: what the rules say of every state of the machine. -/
structure State.Inv (s : State) : Prop where
  /-- The parameters satisfy 00_scope.md section 4. -/
  cfg : s.cfg.Wf
  /-- The program counter is `ADDR_BITS` wide (10_state.md R5). -/
  pc : s.cfg.fits s.pc
  /-- `SP[Hyp]` is `ADDR_BITS` wide (10_state.md R7). -/
  spHyp : s.cfg.fits s.spHyp
  /-- `SP[User]` is `ADDR_BITS` wide (10_state.md R7). -/
  spUser : s.cfg.fits s.spUser
  /-- The base registers are `ADDR_BITS` wide (10_state.md R12, R13, R14). -/
  bases : s.cfg.fits s.ibr ∧ s.cfg.fits s.abr ∧ s.cfg.fits s.tbr
  /-- The reserved bits of a base register that has been written are zero (10_state.md R12, R13, R14, R18). -/
  reserved : (s.ibrActive = true → s.ibr &&& 0xFF = 0) ∧ (s.abrActive = true → s.abr &&& 0xFF = 0)
    ∧ (s.tbrActive = true → s.tbr &&& 0x1FF = 0)
  /-- TMV is `TMV_BITS` wide (10_state.md R15). -/
  tmv : s.tmv < 2 ^ s.cfg.tmvBits
  /-- Without the supervisor feature there is one mode (10_state.md R6). -/
  mode : s.mode = .user → s.cfg.hasSupervisor = true
  /-- Translation is on only where there is translation (10_state.md R22). -/
  xlate : s.xlateOn = true → s.cfg.hasTranslation = true
  /-- The asserting lines are lines of the processor (10_state.md R20). -/
  lines : ∀ n ∈ s.lines, n < s.cfg.numInt
  /-- Memory is in its canonical form and inside the address space (20_memory.md R24, R26). -/
  mem : s.mem.wf s.cfg.fill ∧ s.mem.below (2 ^ s.cfg.addrWidth.bits)

/-- Translation is absent or off: the three spaces are one (20_memory.md R24). -/
abbrev State.Flat (s : State) : Prop := (s.cfg.hasTranslation && s.xlateOn) = false

/-- The state at the boundary, after the interrupt lines have been sampled (10_state.md R20, log 13). -/
def State.sampled (s : State) : State :=
  match s.inputs with
  | .lines asserted :: rest => ({ s with inputs := rest } : State).withLines asserted
  | .reset :: _ => s
  | .resetWithin _ :: _ => s
  | .config _ :: _ => s
  | [] => s

/-- The environment resets the machine in the middle of a step. -/
def Input.isResetWithin : Input → Bool
  | .resetWithin _ => true
  | .reset => false
  | .lines _ => false
  | .config _ => false

/-- No reset at this boundary, nor in the middle of the step it begins. -/
abbrev State.NoReset (s : State) : Prop :=
  s.inputs.head? ≠ some .reset ∧ s.sampled.inputs.head?.any Input.isResetWithin = false

/-- What the boundary of `s` begins raises this abort in the state `s1`: the fetch of the instruction, or the instruction
itself after the steps that left `s1`. -/
def State.Aborts (s : State) (c : AbortCause) (s1 : State) : Prop :=
  (s.fetchInstr = .abort c ∧ s1 = s) ∨ ∃ i, s.fetchInstr = .instr i ∧ instrEffect i s = .abort c s1

/-- The next step runs an instruction: no reset, no acceptable interrupt and no configuration action at this boundary
(60_exceptions.md R79). -/
abbrev State.Quiet (s : State) : Prop :=
  s.NoReset ∧ s.sampled.nextInterrupt = none ∧ ∀ a, s.sampled.inputs.head? ≠ some (.config a)

/-- An outcome with its next state, if it has one, changed. -/
def mapNext (f : State → State) : Host.Outcome State Fault Refusal → Host.Outcome State Fault Refusal
  | .next s => .next (f s)
  | .fault r => .fault r
  | .refused r => .refused r

/-- What a run of pushes leaves (20_memory.md R34): `t` has `bytes` on the stack of mode `m` of `s`, the first byte at the
address in `SP[m]` and each further byte where the decremented pointer points; and every other byte of memory is as in
`s`. Where two of the addresses are mapped to one place, the later byte is the one that stays. -/
structure State.StackHolds (s t : State) (m : Mode) (bytes : List Byte) : Prop where
  stored : ∀ (k : Nat) (h : k < bytes.length) (pa : Addr),
    s.translate m.space (s.cfg.decSpN k (s.sp m)) .write = .ok pa →
    (∀ j, k < j → j < bytes.length → s.translate m.space (s.cfg.decSpN j (s.sp m)) .write ≠ .ok pa) →
    t.peek pa = bytes[k]
  kept : ∀ pa : Addr,
    (∀ k, k < bytes.length → s.translate m.space (s.cfg.decSpN k (s.sp m)) .write ≠ .ok pa) → t.peek pa = s.peek pa

/-- `n` bytes can be pushed on the stack of mode `m`: every address they go to may be written (20_memory.md R30, R34). -/
abbrev State.CanPush (s : State) (m : Mode) (n : Nat) : Prop :=
  ∀ k, k < n → ∃ pa, s.translate m.space (s.cfg.decSpN k (s.sp m)) .write = .ok pa

/-- Every byte of memory is as in `s`. -/
abbrev State.SameMemory (s t : State) : Prop := ∀ pa : Addr, t.peek pa = s.peek pa

/-- The states that a machine started in `s` can come to. -/
inductive State.Reaches (s : State) : State → Prop where
  | refl : State.Reaches s s
  | step {t u : State} : State.Reaches s t → step t = .next u → State.Reaches s u

end Sys2Proof.Machine
end

