-- ==== Sys2Proof/Certificates/Slice0/Obligations.lean ====
section
/-! DEFINITION. The statements for the provers. Each is about every state, and so about every value of the parameters. -/

open Sys2Proof Sys2Proof.Machine

/-! ### Encoding -/

/-- Decoding an encoded instruction gives it back, with every operand (30_encoding.md R42, R43, R44, R46). The opcodes are
the model's parameters (log 3). -/
def Obligations.DecodeOfEncode : Prop :=
  ∀ (t : OpcodeTable) (i : Instr) (rest : List Byte), i.wf t → decode t (encode t i ++ rest) = .ok i rest

/-- What the decoder reads are the bytes of the instruction it answers: no byte string has two meanings
(30_encoding.md R42). -/
def Obligations.EncodeOfDecode : Prop :=
  ∀ (t : OpcodeTable) (bs rest : List Byte) (i : Instr), decode t bs = .ok i rest → bs = encode t i ++ rest

/-- The decoder asks for more bytes until an instruction is complete (30_encoding.md R42). -/
def Obligations.PartOfEncodingIsShort : Prop :=
  ∀ (t : OpcodeTable) (i : Instr) (k : Nat), i.wf t → k < (encode t i).length →
    decode t ((encode t i).take k) = .short

/-- A well-formed table admits every instruction (30_encoding.md R46; that no opcode begins another is the model's reading,
log 3). -/
def Obligations.WellFormedTableAdmitsAll : Prop :=
  ∀ (t : OpcodeTable) (i : Instr), t.wf → i.wf t

/-- The opcodes of the original 6502, under any choice of the others, and the places of operand bytes (30_encoding.md R42
to R45; the four values are general knowledge of the 6502, log 2; the other opcodes are examples). -/
def Obligations.OpcodeWordsDecode : Prop :=
  (∀ (o : OpenOpcodes) (rest : List Byte),
    decode o.table (0x00 :: rest) = .ok .brk rest ∧ decode o.table (0x40 :: rest) = .ok .rti rest
    ∧ decode o.table (0x58 :: rest) = .ok .cli rest ∧ decode o.table (0x78 :: rest) = .ok .sei rest)
  ∧ ∀ t : OpcodeTable, t = { brk := 0x00, rti := 0x40, cli := 0x58, sei := 0x78,
                             trap := [0x02], rtu := [0x42, 0x01], jpuAbs := [0x12], jpuInd := [0x22, 0x33] } →
    decode t [0x02, 0x0F] = .ok (.trap 0x0F) [] ∧ decode t [0x42, 0x01] = .ok .rtu []
    ∧ decode t [0x12, 0x34, 0x80] = .ok (.jpuAbs 0x8034) [] ∧ decode t [0x22, 0x33, 0xFC, 0xFF] = .ok (.jpuInd 0xFFFC) []

/-! ### The boundary and the step -/

/-- A step runs the decoded instruction: where no reset, no interrupt and no configuration action comes first and the bytes
at the program counter are those of a well-formed instruction, the step is the meaning of that instruction
(60_exceptions.md R79 item 3; 20_memory.md R25; boundaries are the spec's decision D35, log 31). -/
def Obligations.StepRunsDecodedInstruction : Prop :=
  ∀ (s : State) (i : Instr), s.Quiet → i.wf s.cfg.opcodes →
    (∀ (k : Nat) (h : k < (encode s.cfg.opcodes i).length),
      s.sampled.fetchByte k = .ok (encode s.cfg.opcodes i)[k]) →
    step s = exec i s.sampled

/-- Bytes that no opcode of the table begins are refused, whatever follows them (30_encoding.md R48: the spec's treatment,
log 29). -/
def Obligations.UndefinedOpcodeIsRefused : Prop :=
  ∀ (s : State) (bs : List Byte), s.Quiet →
    (∀ (k : Nat) (h : k < bs.length), s.sampled.fetchByte k = .ok bs[k]) →
    (∀ k, 0 < k → k < bs.length → decode s.cfg.opcodes (bs.take k) = .short) →
    decode s.cfg.opcodes bs = .undefined →
    step s = .refused .undefinedOpcode

/-- An abort met by a fetch of an instruction byte is taken, with the program counter still at the first byte
(60_exceptions.md R79 item 3; the order is the spec's decision D35). -/
def Obligations.FetchAbortIsTaken : Prop :=
  ∀ (s : State) (bs : List Byte) (c : AbortCause), s.Quiet →
    (∀ (k : Nat) (h : k < bs.length), s.sampled.fetchByte k = .ok bs[k]) →
    (∀ k, 0 < k → k ≤ bs.length → decode s.cfg.opcodes (bs.take k) = .short) →
    s.sampled.fetchByte bs.length = .error c →
    step s = raiseAbort c s.sampled

/-- An acceptable interrupt is taken before the next instruction, and no instruction executes at that boundary
(60_exceptions.md R79 item 2; the spec's decision D35). -/
def Obligations.InterruptPrecedesInstruction : Prop :=
  ∀ (s : State) (n : Nat), s.NoReset → s.sampled.nextInterrupt = some n → step s = takeInterrupt n s.sampled

/-- When an interrupt is acceptable (60_exceptions.md R75; when UIM is consulted is the spec's decision D12). -/
def Obligations.AcceptableInterrupts : Prop :=
  ∀ (s : State) (n : Nat), s.acceptable n = true ↔
    (n ∈ s.lines ∧ n < s.cfg.numInt) ∧ s.cfg.eimBlocks s.eim n = false
    ∧ (n = 0 ∨ s.p.i = false ∨ (s.mode = .user ∧ s.cfg.uimBlocks s.uim n = false))

/-- The interrupt that is taken is acceptable and no acceptable one stands before it in the priority order; none is taken
only where none is acceptable (60_exceptions.md R76; the order is a parameter, the spec's decision D13). -/
def Obligations.FirstByPriorityIsTaken : Prop :=
  ∀ s : State, s.cfg.Wf →
    (∀ n, s.nextInterrupt = some n →
      s.acceptable n = true ∧ ∃ before after, s.cfg.priority = before ++ n :: after
        ∧ ∀ m ∈ before, s.acceptable m = false)
    ∧ (s.nextInterrupt = none ↔ ∀ n, s.acceptable n = false)

/-- A configuration action takes the place of an instruction where no reset and no interrupt comes first (10_state.md R19;
the schedule of the actions is the model's, log 15). -/
def Obligations.StepRunsConfigurationAction : Prop :=
  ∀ (s : State) (a : ConfigAction) (rest : List Input), s.NoReset → s.sampled.nextInterrupt = none →
    s.sampled.inputs = .config a :: rest → step s = configAction a { s.sampled with inputs := rest }

/-- The reset input. At a boundary every piece of state takes its reset value, and the program counter is the sign extension
of the two bytes at -4 of physical memory (70_reset_and_hazards.md R84, 10_state.md R23). In the middle of a step it is the
same reset, of a memory that holds the bytes the step had stored (60_exceptions.md R79 item 1), and the bytes a step stores are
those that it leaves in memory if it is not reset. That EIM is clear, that memory stays and that the byte at -3 is the high one
are the spec's decisions D22, D26 and D1 (logs 5, 9); that a reset comes first is D35; what a reset after the last store means
is the model's (log 14). -/
def Obligations.ResetInputRestartsMachine : Prop :=
  ∀ s : State,
    (∀ rest, s.inputs = .reset :: rest →
      step s = .next
        { cfg := s.cfg
          pc := s.cfg.signExtend (s.peek (s.cfg.trunc (-3)) ++ s.peek (s.cfg.trunc (-4)))
          mode := .hyp
          spHyp := 0x0100
          spUser := 0x0100
          p := { n := false, v := false, d := false, i := false, z := false, c := false }
          esrOther := 0
          ibr := s.cfg.ibrReset
          abr := s.cfg.abrReset
          tbr := s.cfg.tbrReset
          ibrActive := false
          abrActive := false
          tbrActive := false
          tmv := 0
          eim := .clear
          uim := s.cfg.uimReset
          lines := s.lines
          other := s.other.map fun _ => 0
          xlateOn := false
          mem := s.mem
          inputs := rest
          configRead := s.configRead
          draws := s.draws })
    ∧ (∀ (k : Nat) (rest : List Input) (b : State), s.sampled.inputs = .resetWithin k :: rest →
        b = { s.sampled with inputs := rest } →
        (k ≤ b.boundaryStores.length → step s
          = step { b with inputs := .reset :: rest, mem := (b.storeAll (b.boundaryStores.take k)).mem })
        ∧ (b.boundaryStores.length < k → step s = mapNext State.resetSequence (runBoundary b)))
    ∧ ∀ t, runBoundary s = .next t → t.mem = (s.storeAll s.boundaryStores).mem

/-! ### Configuration registers -/

/-- `WriteConfig` and `ReadConfig` in hypervisor mode (10_state.md R18, R19, R22; the actions are the spec's decision D24,
log 15): a write stores the value, and makes a base register active. -/
def Obligations.ConfigurationActionsInHypervisorMode : Prop :=
  ∀ s : State, s.mode = .hyp →
    (∀ a, s.cfg.fits a → a &&& 0xFF = 0 →
      writeConfig (.ibr a) s = .next { s with ibr := a, ibrActive := true }
      ∧ writeConfig (.abr a) s = .next { s with abr := a, abrActive := true })
    ∧ (∀ a, s.cfg.fits a → a &&& 0x1FF = 0 → writeConfig (.tbr a) s = .next { s with tbr := a, tbrActive := true })
    ∧ (∀ n, n < 2 ^ s.cfg.tmvBits → writeConfig (.tmv n) s = .next { s with tmv := n })
    ∧ (∀ e, writeConfig (.eim e) s = .next { s with eim := e })
    ∧ (∀ u, writeConfig (.uim u) s = .next { s with uim := u })
    ∧ (s.cfg.hasTranslation = true → ∀ b, writeConfig (.xlate b) s = .next { s with xlateOn := b })
    ∧ (readConfig .ibr s = .next { s with configRead := some (.ibr s.ibr) }
      ∧ readConfig .abr s = .next { s with configRead := some (.abr s.abr) }
      ∧ readConfig .tbr s = .next { s with configRead := some (.tbr s.tbr) }
      ∧ readConfig .tmv s = .next { s with configRead := some (.tmv s.tmv) }
      ∧ readConfig .eim s = .next { s with configRead := some (.eim s.eim) }
      ∧ readConfig .uim s = .next { s with configRead := some (.uim s.uim) })

/-- What the configuration actions refuse: user mode (10_state.md R19), a reserved bit that is set (R12, R13, R14), and the
translation switch without translation (R22). The treatments are the spec's (D24, U1) and the model's (logs 15, 30). -/
def Obligations.ConfigurationActionsRefused : Prop :=
  ∀ s : State,
    (s.mode = .user → ∀ a, configAction a s = .refused .configActionInUserMode)
    ∧ (s.mode = .hyp →
      (∀ a, a &&& 0xFF ≠ 0 → writeConfig (.ibr a) s = .refused .reservedBaseBits
        ∧ writeConfig (.abr a) s = .refused .reservedBaseBits)
      ∧ (∀ a, a &&& 0x1FF ≠ 0 → writeConfig (.tbr a) s = .refused .reservedBaseBits)
      ∧ (s.cfg.hasTranslation = false → ∀ b, writeConfig (.xlate b) s = .refused .noTranslationFeature))

/-- A base register becomes active only by being written, and only reset makes it inactive (10_state.md R18; for ABR and
TBR the spec derives it from IBR). -/
def Obligations.BaseRegisterStaysActive : Prop :=
  ∀ s t : State, step s = .next t → s.NoReset →
    (s.ibrActive = true → t.ibrActive = true) ∧ (s.abrActive = true → t.abrActive = true)
    ∧ (s.tbrActive = true → t.tbrActive = true)
    ∧ (t.ibrActive = true → s.ibrActive = true ∨ ∃ a, s.sampled.inputs.head? = some (.config (.write (.ibr a))))
    ∧ (t.abrActive = true → s.abrActive = true ∨ ∃ a, s.sampled.inputs.head? = some (.config (.write (.abr a))))
    ∧ (t.tbrActive = true → s.tbrActive = true ∨ ∃ a, s.sampled.inputs.head? = some (.config (.write (.tbr a))))

/-! ### Vectors -/

/-- The two ways a vector becomes an address, bit by bit, and where they agree (20_memory.md R32). -/
def Obligations.SignExtendAndAugment : Prop :=
  ∀ (c : Config) (base : Addr) (v : Half),
    (∀ k, (c.signExtend v).getLsbD k
        = if k < 16 then v.getLsbD k else (decide (k < c.addrWidth.bits) && v.getLsbD 15))
    ∧ (∀ k, (c.augment base v).getLsbD k
        = if k < 16 then v.getLsbD k else (decide (k < c.addrWidth.bits) && base.getLsbD k))
    ∧ (c.addrWidth = .bits16 → c.signExtend v = v.setWidth 64 ∧ c.augment base v = v.setWidth 64)
    ∧ ((∀ k, 16 ≤ k → k < c.addrWidth.bits → base.getLsbD k = v.getLsbD 15) → c.augment base v = c.signExtend v)

/-- A read of several bytes, a vector or JPU's pointer, reads the bytes at consecutive addresses modulo 2^`ADDR_BITS`, the one
at the lowest address being the least significant (20_memory.md R27, R29, R31; 43_jpu_sei_cli.md R60; the byte order is the
spec's decision D1, log 5), and meets the abort of the lowest address that aborts (for a vector the spec's decision D28; for a
pointer of 4 or 8 bytes the model's choice, log 41). Every vector address is even (20_memory.md R28). -/
def Obligations.VectorsAreTwoBytes : Prop :=
  ∀ s : State,
    (∀ (sp : Space) (a : Addr) (lo hi : Byte), s.readByte sp a .read = .ok lo →
      s.readByte sp (s.cfg.trunc (a + 1)) .read = .ok hi → s.readVector sp a = .ok (hi ++ lo))
    ∧ (∀ (sp : Space) (a : Addr) (n : Nat), s.cfg.fits a →
      (∀ bs, s.readBytes sp n a = .ok bs ↔ bs.length = n ∧ ∀ (k : Nat) (h : k < bs.length),
        s.readByte sp (s.cfg.trunc (a + BitVec.ofNat 64 k)) .read = .ok bs[k])
      ∧ (∀ c, s.readBytes sp n a = .error c ↔ ∃ k, k < n
          ∧ s.readByte sp (s.cfg.trunc (a + BitVec.ofNat 64 k)) .read = .error c
          ∧ ∀ j, j < k → ∃ b, s.readByte sp (s.cfg.trunc (a + BitVec.ofNat 64 j)) .read = .ok b))
    ∧ (∀ (a : Addr) (bs : List Byte), s.readBytes .user s.cfg.jpuPtr.bytes a = .ok bs → s.readPointer a = .ok (valueLE bs))
    ∧ (∀ (bs : List Byte) (k : Nat) (h : k < bs.length), k < 8 → (valueLE bs >>> (8 * k)).setWidth 8 = bs[k])
    ∧ (∀ n, (s.intVectorAddr n).toNat % 2 = 0) ∧ (∀ k, (s.abortVectorAddr k).toNat % 2 = 0)
    ∧ (∀ n, (s.trapVectorAddr n).toNat % 2 = 0)
    ∧ (∀ k ∈ [2, 4, 6, 8, 10], (s.cfg.negAddr k).toNat = 2 ^ s.cfg.addrWidth.bits - k)

/-- The interrupt vector table (60_exceptions.md R69): the vectors count up from the base, the target is augmented with the
upper bits of IBR. -/
def Obligations.InterruptVectorTable : Prop :=
  ∀ (s : State) (n : Nat), s.cfg.fits s.ibr → n < 128 →
    (s.intVectorAddr n).toNat = s.ibr.toNat / 256 * 256 + 2 * n
    ∧ (s.ibrActive = true → ∀ v, s.readVector .hyp (s.intVectorAddr n) = .ok v →
        s.interruptTarget n = .ok (s.cfg.augment s.ibr v))

/-- The abort vector table (60_exceptions.md R70): the slots count down from the top of the block, the target is augmented
with the upper bits of ABR, and the slots of the seven conditions. That BRK in hypervisor mode goes through slot 0 once ABR,
not IBR, is active, and that its vector is augmented, not sign-extended, are the resolutions of conflicts C3 and C4, against
the source's literal words (DEDUCED, log 37). -/
def Obligations.AbortVectorTable : Prop :=
  ∀ s : State, s.cfg.fits s.abr →
    (∀ k, k ≤ 8 → (s.abortVectorAddr k).toNat = s.abr.toNat / 256 * 256 + 254 - 2 * k)
    ∧ (s.abrActive = true → ∀ (c : AbortCause) (v : Half), s.readVector .hyp (s.abortVectorAddr c.slot) = .ok v →
        s.abortTarget c = .ok (s.cfg.augment s.abr v))
    ∧ (s.abrActive = true → s.mode = .hyp → ∀ v, s.readVector .hyp (s.abortVectorAddr 0) = .ok v →
        s.brkTarget = .ok (s.cfg.augment s.abr v))
    ∧ [AbortCause.nomem, .wprot, .noexec, .privrti, .privop, .maxtrap, .privmem].map AbortCause.slot
        = [2, 3, 4, 5, 6, 7, 8]

/-- The trap vector table (60_exceptions.md R71): the masked base register ORed with the shifted trap number, which equals
their sum; the target is augmented with the upper bits of TBR. -/
def Obligations.TrapVectorTable : Prop :=
  ∀ (s : State) (n : Byte), s.cfg.fits s.tbr →
    s.trapVectorAddr n = (s.tbr &&& ~~~(0x1FF : Addr)) ||| (n.setWidth 64 <<< 1)
    ∧ (s.trapVectorAddr n).toNat = s.tbr.toNat / 512 * 512 + 2 * n.toNat
    ∧ (s.tbrActive = true → ∀ v, s.readVector .hyp (s.trapVectorAddr n) = .ok v →
        s.trapTarget n = .ok (s.cfg.augment s.tbr v))

/-- The legacy vectors that serve while a base register is inactive (60_exceptions.md R67, R68), each in hypervisor memory but
for BRK in user mode. The sign extension of the vectors at -6, -8 and -10, and of the one at -2 for interrupts, is the spec's
decision D36 (log 25). That BRK in hypervisor mode uses -2 while ABR, not IBR, is inactive is the resolution of conflict C3
(DEDUCED, log 37). -/
def Obligations.LegacyVectors : Prop :=
  ∀ (s : State) (v : Half),
    (s.ibrActive = false →
      (s.readVector .hyp (s.cfg.negAddr 6) = .ok v → s.interruptTarget 0 = .ok (s.cfg.signExtend v))
      ∧ (s.readVector .hyp (s.cfg.negAddr 2) = .ok v → ∀ n, n ≠ 0 → s.interruptTarget n = .ok (s.cfg.signExtend v)))
    ∧ (s.abrActive = false →
      (s.readVector .hyp (s.cfg.negAddr 8) = .ok v → ∀ c, s.abortTarget c = .ok (s.cfg.signExtend v))
      ∧ (s.mode = .hyp → s.readVector .hyp (s.cfg.negAddr 2) = .ok v → s.brkTarget = .ok (s.cfg.signExtend v)))
    ∧ (s.tbrActive = false →
      (s.readVector .hyp (s.cfg.negAddr 10) = .ok v → ∀ n, s.trapTarget n = .ok (s.cfg.signExtend v)))
    ∧ (s.mode = .user → s.readVector .user (s.cfg.negAddr 2) = .ok v → s.brkTarget = .ok (s.cfg.signExtend v))

/-- A handler learns the abort condition only from the vector it was entered by: the entries of two conditions differ in
the program counter alone, and while ABR is inactive all enter at the one legacy ABORT vector and do not differ at all
(60_exceptions.md R73). -/
def Obligations.AbortConditionShowsOnlyInVector : Prop :=
  ∀ (s t t' : State) (c c' : AbortCause), raiseAbort c s = .next t →
    (raiseAbort c' s = .next t' → t' = { t with pc := t'.pc })
    ∧ (s.abrActive = false → raiseAbort c' s = .next t
        ∧ ∃ v, t.readVector .hyp (s.cfg.negAddr 8) = .ok v ∧ t.pc.setWidth 16 = v)

/-! ### Memory, translation and stacks -/

/-- While translation is absent or off every space is physical memory (20_memory.md R24, R30). -/
def Obligations.SpacesAreOneWithoutTranslation : Prop :=
  ∀ (s : State) (sp : Space) (a : Addr) (k : Access), s.Flat →
    s.translate sp a k = .ok (s.cfg.trunc a) ∧ s.readByte sp a k = .ok (s.peek (s.cfg.trunc a))

/-- Which aborts an access can meet: none in physical space, and each condition only at the accesses it is about
(20_memory.md R30, 60_exceptions.md R72; that the mapping is a table is the model's, log 16). -/
def Obligations.MemoryAbortsFitTheirAccess : Prop :=
  ∀ (s : State) (sp : Space) (a : Addr) (k : Access) (c : AbortCause), s.translate sp a k = .error c →
    (s.cfg.hasTranslation = true ∧ s.xlateOn = true ∧ sp ≠ .phys)
    ∧ (c = .nomem ∨ (c = .wprot ∧ k = .write) ∨ (c = .noexec ∧ k = .fetch) ∨ (c = .privmem ∧ sp = .user))

/-- How a stack pointer moves (20_memory.md R36; which of the two ways is a parameter, OPEN in the spec, log 6). -/
def Obligations.StackPointerWrap : Prop :=
  ∀ (c : Config) (a : Addr), c.fits a →
    (c.spWrap = .full → (c.decSp a).toNat = (a.toNat + (2 ^ c.addrWidth.bits - 1)) % 2 ^ c.addrWidth.bits
      ∧ (c.incSp a).toNat = (a.toNat + 1) % 2 ^ c.addrWidth.bits)
    ∧ (c.spWrap = .page → (c.decSp a).toNat = a.toNat / 256 * 256 + (a.toNat % 256 + 255) % 256
      ∧ (c.incSp a).toNat = a.toNat / 256 * 256 + (a.toNat % 256 + 1) % 256)
    ∧ (c.spWrap = .page → c.decSp 0x0100 = 0x01FF)

/-- Pushed bytes lie where the stack pointer pointed, going down, and no other byte of memory changes; an address is pushed
with its most significant byte first (20_memory.md R34; direction and byte sequence are those of the 6502, the spec's
decision D2, log 5). -/
def Obligations.PushStoresBelowPointer : Prop :=
  ∀ (s : State) (m : Mode) (bs : List Byte), s.Flat → s.cfg.fits (s.sp m) → s.mem.wf s.cfg.fill → bs.length ≤ 256 →
    (∃ t, State.pushBytes m bs s = .done t
      ∧ t = { s.setSp m (s.cfg.decSpN bs.length (s.sp m)) with mem := t.mem }
      ∧ (∀ (k : Nat) (h : k < bs.length), t.peek (s.cfg.decSpN k (s.sp m)) = bs[k])
      ∧ ∀ a : Addr, (∀ k, k < bs.length → a ≠ s.cfg.decSpN k (s.sp m)) → t.peek a = s.peek a)
    ∧ ∀ (w : FrameWidth) (v : Addr) (k : Nat) (h : k < (addressBytes w v).length),
        (addressBytes w v)[k] = (v >>> (8 * (w.bytes - 1 - k))).setWidth 8

/-- A pull gives back what a push of the same width stored, and restores the stack pointer (20_memory.md R35; the spec's
decision D2, log 5). -/
def Obligations.PullInvertsPush : Prop :=
  ∀ (s t : State) (m : Mode) (w : FrameWidth) (v : Addr), s.Flat → s.cfg.fits (s.sp m) → s.mem.wf s.cfg.fill →
    State.pushBytes m (addressBytes w v) s = .done t →
    t.pullValue m w (t.sp m) = .ok ((v.setWidth (8 * w.bytes)).setWidth 64, s.sp m)

/-- Pushes that meet an abort leave what the pushes before it did, and nothing else (93_implementation_defined.md U7, the
second choice, which the model takes: log 17). -/
def Obligations.AbortedPushKeepsEarlierBytes : Prop :=
  ∀ (s t : State) (m : Mode) (bs : List Byte) (c : AbortCause), State.pushBytes m bs s = .aborted c t →
    ∃ k, k < bs.length ∧ State.pushBytes m (bs.take k) s = .done t
      ∧ t.sp m = s.cfg.decSpN k (s.sp m)
      ∧ s.translate m.space (s.cfg.decSpN k (s.sp m)) .write = .error c

/-! ### Images -/

/-- The law of the extended status byte: decoding an image gives the mode, the width and the other bits it was made of
(10_state.md R11; the layout is a parameter, log 4). -/
def Obligations.ExtendedStatusRoundTrip : Prop :=
  ∀ (l : EsrLayout) (m : Mode) (w : FrameWidth) (other : BitVec 5), l.wf →
    l.decodeMode (l.encode m w other) = m ∧ l.decodeWidth (l.encode m w other) = some w
    ∧ l.decodeOther (l.encode m w other) = other

/-- The bits of a stacked status byte (41_trap_and_brk.md R52; the places of the flags are those of the 6502, logs 23, 34). -/
def Obligations.StatusImageBits : Prop :=
  ∀ (p : Status) (b5 b4 : Bool),
    (p.image b5 b4).getLsbD 7 = p.n ∧ (p.image b5 b4).getLsbD 6 = p.v ∧ (p.image b5 b4).getLsbD 5 = b5
    ∧ (p.image b5 b4).getLsbD 4 = b4 ∧ (p.image b5 b4).getLsbD 3 = p.d ∧ (p.image b5 b4).getLsbD 2 = p.i
    ∧ (p.image b5 b4).getLsbD 1 = p.z ∧ (p.image b5 b4).getLsbD 0 = p.c

/-! ### The interrupt flag -/

/-- SEI sets the interrupt flag and goes on to the next instruction, with nothing else changed; in hypervisor mode no
interrupt but the NMI is acceptable after it, in user mode only those UIM blocks are held off (43_jpu_sei_cli.md R61). -/
def Obligations.SeiSetsInterruptFlag : Prop :=
  ∀ s : State, ∃ t, exec .sei s = .next t
    ∧ t = { s with p := { s.p with i := true }, pc := s.cfg.trunc (s.pc + 1) }
    ∧ (s.mode = .hyp → ∀ n, n ≠ 0 → t.acceptable n = false)
    ∧ (s.mode = .user → ∀ n, s.cfg.uimBlocks s.uim n = false → t.acceptable n = ({ s with p := { s.p with i := false } } : State).acceptable n)

/-- CLI clears the interrupt flag and EIM in either mode and goes on, with nothing else changed; every asserting line is
acceptable after it (43_jpu_sei_cli.md R62). -/
def Obligations.CliClearsFlagAndMask : Prop :=
  ∀ s : State, ∃ t, exec .cli s = .next t
    ∧ t = { s with p := { s.p with i := false }, eim := .clear, pc := s.cfg.trunc (s.pc + 1) }
    ∧ ∀ n, n ∈ s.lines → n < s.cfg.numInt → t.acceptable n = true

/-! ### TRAP and BRK -/

/-- TRAP with a number lower than TMV: the return address and the extended status image go on the hypervisor stack whatever
the mode, the mode becomes hypervisor mode, the program counter comes from the trap's vector, and nothing else changes, the
status register and EIM included (41_trap_and_brk.md R54; the frame's width is the spec's decision D6). -/
def Obligations.TrapEntersHandler : Prop :=
  ∀ (s : State) (n : Byte), n.toNat < s.tmv → s.mem.wf s.cfg.fill →
    s.CanPush .hyp ((s.cfg.frameWidth s.mode).bytes + 1) → (∃ a, s.trapTarget n = .ok a) →
    ∃ t, exec (.trap n) s = .next t
      ∧ t = { s with pc := t.pc, mode := .hyp, mem := t.mem,
                     spHyp := s.cfg.decSpN ((s.cfg.frameWidth s.mode).bytes + 1) s.spHyp }
      ∧ t.trapTarget n = .ok t.pc
      ∧ s.StackHolds t .hyp
          ((bytesLE (s.cfg.frameWidth s.mode).bytes
              (s.cfg.trunc (s.pc + BitVec.ofNat 64 (s.cfg.opcodes.trap.length + 1)))).reverse
            ++ [s.cfg.esr.encode s.mode (s.cfg.frameWidth s.mode) s.esrOther])

/-- TRAP with a number that TMV does not allow is a MAXTRAP abort in either mode with nothing changed before it; after
reset no trap is allowed (10_state.md R15; 41_trap_and_brk.md R54). -/
def Obligations.TrapNotAllowedAborts : Prop :=
  ∀ (s : State) (n : Byte),
    (s.tmv ≤ n.toNat → exec (.trap n) s = raiseAbort .maxtrap s)
    ∧ exec (.trap n) s.resetSequence = raiseAbort .maxtrap s.resetSequence

/-- BRK: the return address in the native width of the current mode and the status image with bit 5 set go on the current
stack, the mode stays, the program counter comes from the BRK vector, and nothing else changes but the interrupt flag where
`BRK_SETS_I` says so (41_trap_and_brk.md R55; offset, flag and bit 4 are parameters, the spec's decisions D14, D15, D16,
log 23). -/
def Obligations.BrkEntersHandler : Prop :=
  ∀ s : State, s.mem.wf s.cfg.fill →
    s.CanPush s.mode ((s.cfg.nativeWidth s.mode).bytes + 1) → (∃ a, s.brkTarget = .ok a) →
    ∃ t, exec .brk s = .next t
      ∧ t = { s.setSp s.mode (s.cfg.decSpN ((s.cfg.nativeWidth s.mode).bytes + 1) (s.sp s.mode)) with
                pc := t.pc, mem := t.mem, p := if s.cfg.brkSetsI then { s.p with i := true } else s.p }
      ∧ t.brkTarget = .ok t.pc
      ∧ s.StackHolds t s.mode
          ((bytesLE (s.cfg.nativeWidth s.mode).bytes
              (s.cfg.trunc (s.pc + BitVec.ofNat 64 s.cfg.brkReturnOffset))).reverse
            ++ [s.p.image true s.cfg.brkImageB])

/-- A memory abort met by a push or by the vector read of TRAP or BRK is taken, from the state that the steps before it
left (60_exceptions.md R78, R79; 93_implementation_defined.md U7, the second choice: log 17). -/
def Obligations.EntryInstructionMemoryAborts : Prop :=
  ∀ (s s1 : State) (n : Byte) (c : AbortCause),
    (n.toNat < s.tmv → State.pushBytes .hyp (s.trapFrame (s.nextPc (.trap n))) s = .aborted c s1 →
      exec (.trap n) s = raiseAbort c s1)
    ∧ (n.toNat < s.tmv → State.pushBytes .hyp (s.trapFrame (s.nextPc (.trap n))) s = .done s1 →
      s.trapTarget n = .error c → exec (.trap n) s = raiseAbort c { s1 with mode := .hyp })
    ∧ (State.pushBytes s.mode (s.brkFrame s.brkReturn) s = .aborted c s1 → exec .brk s = raiseAbort c s1)
    ∧ (State.pushBytes s.mode (s.brkFrame s.brkReturn) s = .done s1 → s.brkTarget = .error c →
      exec .brk s = raiseAbort c { s1 with p := if s.cfg.brkSetsI then { s.p with i := true } else s.p })

/-! ### RTI and RTU -/

/-- RTI on a standard frame: the status register, an address of the native width of the current mode, sign-extended; EIM is
cleared, the mode and the other bits of ESR stay, and nothing else changes (42_rti_and_rtu.md R56, R57; that the flag comes
from the frame is the spec's reading, log 24). -/
def Obligations.RtiReturnsFromStandardFrame : Prop :=
  ∀ (s : State) (b : Byte) (bs : List Byte) (sp : Addr),
    s.pullBytes s.mode (1 + (s.cfg.nativeWidth s.mode).bytes) (s.sp s.mode) = .ok (b :: bs, sp) →
    b.getLsbD 5 = true → (s.cfg.nativeWidth s.mode).bytes ≤ s.cfg.addrWidth.bytes →
    exec .rti s = .next { s.setSp s.mode sp with
      pc := s.cfg.trunc ((s.cfg.nativeWidth s.mode).signExtend (valueLE bs))
      p := { n := b.getLsbD 7, v := b.getLsbD 6, d := b.getLsbD 3, i := b.getLsbD 2 && !s.cfg.rtiForcesIClear,
             z := b.getLsbD 1, c := b.getLsbD 0 }
      eim := .clear }

/-- RTI on an extended frame: the status register, the mode and the other bits of ESR from the images, and an address of
the width that the image records, sign-extended; EIM is cleared, and nothing else changes. From user mode it does not go to
hypervisor mode. Where the recorded width is wider than an address the program counter is some address (42_rti_and_rtu.md
R56, R57; decisions D8, D32, logs 20, 24, 25). -/
def Obligations.RtiReturnsFromExtendedFrame : Prop :=
  ∀ (s : State) (b e : Byte) (bs : List Byte) (w : FrameWidth) (sp : Addr),
    s.cfg.esr.decodeWidth e = some w →
    s.pullBytes s.mode (2 + w.bytes) (s.sp s.mode) = .ok (b :: e :: bs, sp) →
    b.getLsbD 5 = false → (s.mode = .user → s.cfg.esr.decodeMode e = .user) →
    (s.cfg.esr.decodeMode e = .user → s.cfg.hasSupervisor = true) →
    ∃ t, exec .rti s = .next t
      ∧ t = { s.setSp s.mode sp with
          mode := s.cfg.esr.decodeMode e
          esrOther := s.cfg.esr.decodeOther e
          pc := t.pc
          draws := t.draws
          p := { n := b.getLsbD 7, v := b.getLsbD 6, d := b.getLsbD 3, i := b.getLsbD 2 && !s.cfg.rtiForcesIClear,
                 z := b.getLsbD 1, c := b.getLsbD 0 }
          eim := .clear }
      ∧ (w.bytes ≤ s.cfg.addrWidth.bytes → t.draws = s.draws ∧ t.pc = s.cfg.trunc (w.signExtend (valueLE bs)))
      ∧ (s.cfg.addrWidth.bytes < w.bytes → t.draws = s.draws + 1 ∧ s.cfg.fits t.pc)

/-- RTI in user mode on an extended frame whose image says hypervisor mode is a PRIVRTI abort, and nothing of the frame is
committed (42_rti_and_rtu.md R56 step 10; that nothing is committed is the spec's decision D31, log 26). -/
def Obligations.RtiCannotRaisePrivilege : Prop :=
  ∀ (s : State) (b e : Byte) (sp : Addr), s.mode = .user →
    s.pullBytes .user 2 s.spUser = .ok ([b, e], sp) → b.getLsbD 5 = false → s.cfg.esr.decodeMode e = .hyp →
    exec .rti s = raiseAbort .privrti s

/-- What RTI and RTU refuse: an image that says user mode without the supervisor feature (U10), and a width code that no
width has (U4) (42_rti_and_rtu.md R56, R58: the spec's treatments, logs 27, 28). -/
def Obligations.ReturnsRefuseUnreadableImages : Prop :=
  ∀ (s : State) (b e : Byte) (sp : Addr),
    (s.pullBytes s.mode 2 (s.sp s.mode) = .ok ([b, e], sp) → b.getLsbD 5 = false →
      (s.mode = .user → s.cfg.esr.decodeMode e = .user) →
      (s.cfg.hasSupervisor = false → s.cfg.esr.decodeMode e = .user → exec .rti s = .refused .noSupervisorFeature)
      ∧ ((s.cfg.esr.decodeMode e = .user → s.cfg.hasSupervisor = true) → s.cfg.esr.decodeWidth e = none →
          exec .rti s = .refused .invalidAddressWidth))
    ∧ (s.mode = .hyp → s.pullBytes .hyp 1 s.spHyp = .ok ([e], sp) →
      (s.cfg.hasSupervisor = false → s.cfg.esr.decodeMode e = .user → exec .rtu s = .refused .noSupervisorFeature)
      ∧ ((s.cfg.esr.decodeMode e = .user → s.cfg.hasSupervisor = true) → s.cfg.esr.decodeWidth e = none →
          exec .rtu s = .refused .invalidAddressWidth))

/-- A memory abort met by a pull of RTI or RTU is taken with nothing committed (42_rti_and_rtu.md R56, R58;
93_implementation_defined.md U7: log 17). -/
def Obligations.ReturnMemoryAbortsCommitNothing : Prop :=
  ∀ (s : State) (b e : Byte) (w : FrameWidth) (sp : Addr) (c : AbortCause),
    (s.pullBytes s.mode 1 (s.sp s.mode) = .error c → exec .rti s = raiseAbort c s)
    ∧ (s.pullBytes s.mode 1 (s.sp s.mode) = .ok ([b], sp) → b.getLsbD 5 = true →
        s.pullBytes s.mode (s.cfg.nativeWidth s.mode).bytes sp = .error c → exec .rti s = raiseAbort c s)
    ∧ (s.pullBytes s.mode 1 (s.sp s.mode) = .ok ([b], sp) → b.getLsbD 5 = false →
        s.pullBytes s.mode 1 sp = .error c → exec .rti s = raiseAbort c s)
    ∧ (s.pullBytes s.mode 2 (s.sp s.mode) = .ok ([b, e], sp) → b.getLsbD 5 = false →
        (s.mode = .user → s.cfg.esr.decodeMode e = .user) →
        (s.cfg.esr.decodeMode e = .user → s.cfg.hasSupervisor = true) → s.cfg.esr.decodeWidth e = some w →
        s.pullBytes s.mode w.bytes sp = .error c → exec .rti s = raiseAbort c s)
    ∧ (s.mode = .hyp → s.pullBytes .hyp 1 s.spHyp = .error c → exec .rtu s = raiseAbort c s)
    ∧ (s.mode = .hyp → s.pullBytes .hyp 1 s.spHyp = .ok ([e], sp) →
        (s.cfg.esr.decodeMode e = .user → s.cfg.hasSupervisor = true) → s.cfg.esr.decodeWidth e = some w →
        s.pullBytes .hyp w.bytes sp = .error c → exec .rtu s = raiseAbort c s)

/-- RTU in hypervisor mode: the mode and the other bits of ESR from the image and an address of the width it records,
sign-extended; the status register, EIM and all else stay (42_rti_and_rtu.md R58; that the mode comes from the image and
the sign extension are the spec's decisions D33, D32, logs 20, 25, 26). -/
def Obligations.RtuReturnsFromTrapFrame : Prop :=
  ∀ (s : State) (e : Byte) (bs : List Byte) (w : FrameWidth) (sp : Addr), s.mode = .hyp →
    s.cfg.esr.decodeWidth e = some w → s.pullBytes .hyp (1 + w.bytes) s.spHyp = .ok (e :: bs, sp) →
    (s.cfg.esr.decodeMode e = .user → s.cfg.hasSupervisor = true) →
    ∃ t, exec .rtu s = .next t
      ∧ t = { s with spHyp := sp, mode := s.cfg.esr.decodeMode e, esrOther := s.cfg.esr.decodeOther e,
                     pc := t.pc, draws := t.draws }
      ∧ (w.bytes ≤ s.cfg.addrWidth.bytes → t.draws = s.draws ∧ t.pc = s.cfg.trunc (w.signExtend (valueLE bs)))
      ∧ (s.cfg.addrWidth.bytes < w.bytes → t.draws = s.draws + 1 ∧ s.cfg.fits t.pc)

/-- RTU and both forms of JPU are privileged: in user mode each is a PRIVOP abort with nothing changed before it
(42_rti_and_rtu.md R58; for JPU 43_jpu_sei_cli.md R60, the spec's decision D34, log 22). -/
def Obligations.PrivilegedInstructionsAbortInUserMode : Prop :=
  ∀ (s : State) (operand : Half), s.mode = .user →
    exec .rtu s = raiseAbort .privop s
    ∧ (s.cfg.hasSupervisor = true →
        exec (.jpuAbs operand) s = raiseAbort .privop s ∧ exec (.jpuInd operand) s = raiseAbort .privop s)

/-! ### JPU -/

/-- JPU, absolute form, in hypervisor mode: user mode at the operand address, and nothing else changes (43_jpu_sei_cli.md
R60; how the operand is widened is a parameter but at 16 bits, D17, log 21). -/
def Obligations.JpuAbsEntersUserMode : Prop :=
  ∀ (s : State) (operand : Half), s.cfg.hasSupervisor = true → s.mode = .hyp →
    exec (.jpuAbs operand) s = .next { s with mode := .user, pc := s.cfg.extendOperand operand }
    ∧ s.cfg.fits (s.cfg.extendOperand operand)
    ∧ (s.cfg.addrWidth = .bits16 → s.cfg.extendOperand operand = operand.setWidth 64)
    ∧ (s.cfg.ext16 = .signExtend → s.cfg.extendOperand operand = s.cfg.signExtend operand)
    ∧ (s.cfg.ext16 = .zeroExtend → s.cfg.extendOperand operand = operand.setWidth 64)

/-- JPU, indirect form, in hypervisor mode: user mode at the address read from user space, sign-extended, and nothing else
changes; a memory abort of that read is taken in user mode (43_jpu_sei_cli.md R60 steps 4, 6 and 7; D18, D32, logs 17, 20,
25). -/
def Obligations.JpuIndEntersUserMode : Prop :=
  ∀ (s : State) (operand : Half), s.cfg.hasSupervisor = true → s.mode = .hyp →
    (∀ bs, s.readBytes .user s.cfg.jpuPtr.bytes (s.cfg.extendOperand operand) = .ok bs →
      ∃ t, exec (.jpuInd operand) s = .next t
        ∧ t = { s with mode := .user, pc := t.pc, draws := t.draws }
        ∧ (s.cfg.jpuPtr.bytes ≤ s.cfg.addrWidth.bytes →
            t.draws = s.draws ∧ t.pc = s.cfg.trunc (s.cfg.jpuPtr.signExtend (valueLE bs)))
        ∧ (s.cfg.addrWidth.bytes < s.cfg.jpuPtr.bytes → t.draws = s.draws + 1 ∧ s.cfg.fits t.pc))
    ∧ ∀ c, s.readBytes .user s.cfg.jpuPtr.bytes (s.cfg.extendOperand operand) = .error c →
      exec (.jpuInd operand) s = raiseAbort c { s with mode := .user }

/-- Without the supervisor feature JPU has no meaning and is refused (43_jpu_sei_cli.md R60 corner case b;
93_implementation_defined.md U10: the spec's treatment, log 27). -/
def Obligations.JpuRefusedWithoutSupervisor : Prop :=
  ∀ (s : State) (operand : Half), s.cfg.hasSupervisor = false →
    exec (.jpuAbs operand) s = .refused .noSupervisorFeature
    ∧ exec (.jpuInd operand) s = .refused .noSupervisorFeature

/-! ### Interrupt entry and abort entry -/

/-- Abort entry: the program counter, the extended status image and the status image with bit 5 clear go on the hypervisor
stack whatever the mode, the mode becomes hypervisor mode, the program counter comes from the abort's vector, and nothing
else changes, the status register and EIM included (60_exceptions.md R78; the frame and the stacked address are the spec's
decision D23, log 18). -/
def Obligations.AbortEntry : Prop :=
  ∀ (s : State) (c : AbortCause), s.mem.wf s.cfg.fill →
    s.CanPush .hyp ((s.cfg.frameWidth s.mode).bytes + 2) → (∃ a, s.abortTarget c = .ok a) →
    ∃ t, raiseAbort c s = .next t
      ∧ t = { s with pc := t.pc, mode := .hyp, mem := t.mem,
                     spHyp := s.cfg.decSpN ((s.cfg.frameWidth s.mode).bytes + 2) s.spHyp }
      ∧ t.abortTarget c = .ok t.pc
      ∧ s.StackHolds t .hyp
          ((bytesLE (s.cfg.frameWidth s.mode).bytes s.pc).reverse
            ++ [s.cfg.esr.encode s.mode (s.cfg.frameWidth s.mode) s.esrOther, s.p.image false s.cfg.entryImageB])

/-- Interrupt entry: as abort entry, with the address of the instruction not yet begun, through the interrupt's vector, and
EIM tells of the interrupt (60_exceptions.md R77; that entry sets EIM is the spec's decision D11, log 10). -/
def Obligations.InterruptEntry : Prop :=
  ∀ (s : State) (n : Nat), s.mem.wf s.cfg.fill →
    s.CanPush .hyp ((s.cfg.frameWidth s.mode).bytes + 2) → (∃ a, s.interruptTarget n = .ok a) →
    ∃ t, takeInterrupt n s = .next t
      ∧ t = { s with pc := t.pc, mode := .hyp, mem := t.mem, eim := .entered s.eim n,
                     spHyp := s.cfg.decSpN ((s.cfg.frameWidth s.mode).bytes + 2) s.spHyp }
      ∧ t.eim.cause = some n
      ∧ t.interruptTarget n = .ok t.pc
      ∧ s.StackHolds t .hyp
          ((bytesLE (s.cfg.frameWidth s.mode).bytes s.pc).reverse
            ++ [s.cfg.esr.encode s.mode (s.cfg.frameWidth s.mode) s.esrOther, s.p.image false s.cfg.entryImageB])

/-- An abort inside interrupt entry or abort entry is a fault (93_implementation_defined.md U8: the spec's treatment,
log 19). -/
def Obligations.AbortInsideEntryFaults : Prop :=
  ∀ (s : State) (n : Nat) (c : AbortCause),
    (¬ s.CanPush .hyp ((s.cfg.frameWidth s.mode).bytes + 2) →
      (∃ d, raiseAbort c s = .fault (.abortInEntry d)) ∧ ∃ d, takeInterrupt n s = .fault (.abortInEntry d))
    ∧ (s.CanPush .hyp ((s.cfg.frameWidth s.mode).bytes + 2) →
      (∀ d, s.abortTarget c = .error d → raiseAbort c s = .fault (.abortInEntry d))
      ∧ ∀ d, s.interruptTarget n = .error d → takeInterrupt n s = .fault (.abortInEntry d))

/-! ### Frames and returns -/

/-- An RTI in hypervisor mode that finds the frame of an interrupt restores the program counter, the mode, the hypervisor
stack pointer, the other bits of ESR and the stored bits of the status register, and clears EIM (42_rti_and_rtu.md R59,
which the spec derives). The interrupted program counter must be the sign extension of the bytes that are stacked. -/
def Obligations.RtiResumesInterrupted : Prop :=
  ∀ (s t u : State) (n : Nat), s.Inv → s.Flat → takeInterrupt n s = .next t →
    s.pc = s.cfg.trunc ((s.cfg.frameWidth s.mode).signExtend s.pc) →
    u.cfg = s.cfg → u.Flat → u.mode = .hyp → u.spHyp = t.spHyp → t.SameMemory u →
    exec .rti u = .next { u with
      pc := s.pc, mode := s.mode, spHyp := s.spHyp, esrOther := s.esrOther, eim := .clear,
      p := { s.p with i := s.p.i && !s.cfg.rtiForcesIClear } }

/-- An RTU in hypervisor mode that finds the frame of a TRAP resumes after the TRAP in the mode it came from, with the
status register as the handler left it (42_rti_and_rtu.md R59, which the spec derives). -/
def Obligations.RtuResumesTrapped : Prop :=
  ∀ (s t u : State) (n : Byte), s.Inv → s.Flat → n.toNat < s.tmv → exec (.trap n) s = .next t →
    s.nextPc (.trap n) = s.cfg.trunc ((s.cfg.frameWidth s.mode).signExtend (s.nextPc (.trap n))) →
    u.cfg = s.cfg → u.Flat → u.mode = .hyp → u.spHyp = t.spHyp → t.SameMemory u →
    exec .rtu u = .next { u with pc := s.nextPc (.trap n), mode := s.mode, spHyp := s.spHyp, esrOther := s.esrOther }

/-- An RTI that finds the frame of a BRK, in the mode BRK ran in, returns to the address BRK stacked in that mode and
restores the status register and the stack pointer (42_rti_and_rtu.md R59, which the spec derives). -/
def Obligations.RtiReturnsFromBrk : Prop :=
  ∀ s t u : State, s.Inv → s.Flat → exec .brk s = .next t →
    s.brkReturn = s.cfg.trunc ((s.cfg.nativeWidth s.mode).signExtend s.brkReturn) →
    u.cfg = s.cfg → u.Flat → u.mode = s.mode → u.sp s.mode = t.sp s.mode → t.SameMemory u →
    exec .rti u = .next { u.setSp s.mode (s.sp s.mode) with
      pc := s.brkReturn, eim := .clear, p := { s.p with i := s.p.i && !s.cfg.rtiForcesIClear } }

/-! ### The whole machine -/

/-- The state after reset is legal. -/
def Obligations.ResetIsLegal : Prop := State.reset.Inv

/-- Every step keeps the invariant: addresses keep `ADDR_BITS` bits, the reserved bits of a written base register stay zero,
there is no user mode without the supervisor feature and no translation without that feature, and memory stays in its
canonical form (10_state.md R5, R6, R7, R12 to R15, R20, R22; 20_memory.md R26; logs 7, 35). -/
def Obligations.StepKeepsLegality : Prop :=
  ∀ s t : State, s.Inv → step s = .next t → t.Inv

/-- The ways between the modes. From user mode into hypervisor mode, reset apart, only by the interrupt that is taken at this
boundary, by an abort that this step raises, or by the TRAP it executes, below TMV; each through its vector in hypervisor
memory. Into user mode only by JPU, by RTI with an extended frame whose image says user mode, or by RTU with such an image.
BRK changes no mode, but where it is itself aborted. A reset enters hypervisor mode (derived from 60_exceptions.md R65, R78, R79
and 41_trap_and_brk.md R55). That an abort and a TRAP are ways only where no interrupt is acceptable is the order of R79, the
spec's decision D35 (PRESUMED, log 31). R65 says that BRK never changes the mode; that an abort met inside BRK is taken, and so
enters hypervisor mode, is the model's choice among those of U7 (DESIGN CHOICE, log 17), with the abort entry of decision D23
(log 18). -/
def Obligations.WaysBetweenModes : Prop :=
  ∀ s t : State, step s = .next t →
    (s.mode = .user → t.mode = .hyp → s.NoReset →
      (∃ n, s.sampled.nextInterrupt = some n ∧ takeInterrupt n s.sampled = .next t ∧ t.interruptTarget n = .ok t.pc)
      ∨ (s.sampled.nextInterrupt = none ∧
        ((∃ c s1, s.sampled.Aborts c s1 ∧ raiseAbort c s1 = .next t ∧ t.abortTarget c = .ok t.pc)
        ∨ ∃ n : Byte, s.sampled.fetchInstr = .instr (.trap n) ∧ n.toNat < s.tmv
            ∧ instrEffect (.trap n) s.sampled = .next t ∧ t.trapTarget n = .ok t.pc)))
    ∧ (s.mode = .hyp → t.mode = .user → ∃ i, s.sampled.fetchInstr = .instr i ∧ exec i s.sampled = .next t ∧
      ((∃ operand, i = .jpuAbs operand ∨ i = .jpuInd operand)
      ∨ (i = .rti ∧ ∃ b e sp, s.sampled.pullBytes .hyp 2 s.sampled.spHyp = .ok ([b, e], sp) ∧ b.getLsbD 5 = false
          ∧ s.cfg.esr.decodeMode e = .user)
      ∨ (i = .rtu ∧ ∃ e sp, s.sampled.pullBytes .hyp 1 s.sampled.spHyp = .ok ([e], sp) ∧ s.cfg.esr.decodeMode e = .user)))
    ∧ (s.Quiet → s.sampled.fetchInstr = .instr .brk →
      t.mode = s.mode ∨ (¬ s.Flat ∧ ∃ c s1, instrEffect .brk s.sampled = .abort c s1 ∧ raiseAbort c s1 = .next t))
    ∧ (¬ s.NoReset → t.mode = .hyp)

/-- A step in user mode changes no base register, no active flag, not TMV, not UIM, no opaque register and not the translation
switch, and leaves the hypervisor stack pointer alone unless it enters hypervisor mode (60_exceptions.md R64; that the
configuration actions are refused there is the spec's decision D24, 10_state.md R19, log 15). Of the configuration registers
EIM is left out: CLI, RTI and interrupt entry write it in user mode too (43_jpu_sei_cli.md R62). -/
def Obligations.UserModeCannotConfigure : Prop :=
  ∀ s t : State, step s = .next t → s.mode = .user → s.NoReset →
    (t.ibr = s.ibr ∧ t.abr = s.abr ∧ t.tbr = s.tbr)
    ∧ (t.ibrActive = s.ibrActive ∧ t.abrActive = s.abrActive ∧ t.tbrActive = s.tbrActive)
    ∧ (t.tmv = s.tmv ∧ t.uim = s.uim ∧ t.xlateOn = s.xlateOn ∧ t.other = s.other ∧ t.cfg = s.cfg)
    ∧ (t.mode = .user → t.spHyp = s.spHyp)

/-- Who writes the status register and EIM. In a step without a reset the status register changes only by SEI, CLI, RTI and,
where `BRK_SETS_I` says so, BRK, and EIM only by CLI, RTI, interrupt entry and a `WriteConfig` of EIM; of the instructions and
the two entries the same is said one by one (10_state.md R9, R16, R19). That abort entry leaves both alone is the spec's
decision D23 (log 18), that `BRK_SETS_I` is a parameter D15 (log 23), that interrupt entry sets EIM D11 (log 10). -/
def Obligations.WritersOfStatusAndMask : Prop :=
  ∀ s t : State,
    (step s = .next t → s.NoReset →
      (t.p ≠ s.p → s.sampled.nextInterrupt = none ∧ ∃ i, s.sampled.fetchInstr = .instr i
        ∧ (i = .sei ∨ i = .cli ∨ i = .rti ∨ (i = .brk ∧ s.cfg.brkSetsI = true)))
      ∧ (t.eim ≠ s.eim → (∃ n, s.sampled.nextInterrupt = some n)
        ∨ (∃ e, s.sampled.inputs.head? = some (.config (.write (.eim e))))
        ∨ s.sampled.fetchInstr = .instr .cli ∨ s.sampled.fetchInstr = .instr .rti))
    ∧ (∀ i, exec i s = .next t →
      (i ≠ .sei → i ≠ .cli → i ≠ .rti → (i = .brk → s.cfg.brkSetsI = false) → t.p = s.p)
      ∧ (i ≠ .cli → i ≠ .rti → t.eim = s.eim))
    ∧ (∀ c, raiseAbort c s = .next t → t.p = s.p ∧ t.eim = s.eim)
    ∧ (∀ n, takeInterrupt n s = .next t → t.p = s.p)

/-- The opaque registers: reset sets every one to zero, and no other step reads or writes them (10_state.md R21). -/
def Obligations.OtherRegistersAreOpaque : Prop :=
  ∀ (s : State) (regs : List Nat),
    (s.NoReset → step { s with other := regs } = mapNext (fun t => { t with other := regs }) (step s))
    ∧ (¬ s.NoReset →
        step { s with other := regs } = mapNext (fun t => { t with other := List.replicate regs.length 0 }) (step s))
    ∧ (∀ t, step s = .next t → s.NoReset → t.other = s.other)
    ∧ (∀ t, step s = .next t → ¬ s.NoReset → t.other = List.replicate s.other.length 0)

/-- No step changes the parameters of the machine (00_scope.md section 4). -/
def Obligations.ParametersNeverChange : Prop :=
  ∀ s t : State, s.Reaches t → t.cfg = s.cfg
end

