-- ==== Sys2Proof/Laws/Bits.lean ====
section
/-! SUPPORT. Widths, byte order and the images of the status registers. -/

namespace Sys2Proof

theorem AddrWidth.bits_cases (w : AddrWidth) : w.bits = 16 ∨ w.bits = 32 ∨ w.bits = 64 := by
  cases w <;> simp [AddrWidth.bits]

theorem AddrWidth.bits_eq_bytes (w : AddrWidth) : w.bits = 8 * w.bytes := by cases w <;> rfl

/-! ### The effective interrupt mask -/

@[simp] theorem Config.eimCode_clear (c : Config) : c.eimCode .clear = 0 := rfl
@[simp] theorem Config.eimCode_written (c : Config) (k : Nat) : c.eimCode (.written k) = k := rfl
@[simp] theorem Config.eimCode_entered (c : Config) (e : EimVal) (n : Nat) :
    c.eimCode (.entered e n) = c.eimEntry.next (c.eimCode e) n := rfl

/-- `eimBlocks(EIM_CLEAR, n) = false` (10_state.md R16). -/
@[simp] theorem Config.eimBlocks_clear (c : Config) (n : Nat) : c.eimBlocks .clear n = false := rfl

/-- `eimCause(eimOnEntry(e, n)) = n` (10_state.md R16; 92_eei_decisions.md D11). -/
@[simp] theorem EimVal.cause_entered (e : EimVal) (n : Nat) : (EimVal.entered e n).cause = some n := rfl

/-- What a value blocks depends on its code alone. -/
theorem Config.eimBlocks_congr (c : Config) {e f : EimVal} (h : c.eimCode e = c.eimCode f) (n : Nat) :
    c.eimBlocks e n = c.eimBlocks f n := by simp [Config.eimBlocks, h]

/-! ### Narrowing to `ADDR_BITS` -/

theorem Config.trunc_toNat (c : Config) (a : Addr) : (c.trunc a).toNat = a.toNat % 2 ^ c.addrWidth.bits := by
  have h : a.toNat % 2 ^ c.addrWidth.bits < 2 ^ 64 := lt_of_le_of_lt (Nat.mod_le _ _) a.isLt
  simp only [Config.trunc, BitVec.toNat_setWidth]
  exact Nat.mod_eq_of_lt h

theorem Config.getLsbD_trunc (c : Config) (a : Addr) (k : Nat) :
    (c.trunc a).getLsbD k = (decide (k < c.addrWidth.bits) && a.getLsbD k) := by
  have hw := c.addrWidth.bits_cases
  simp only [Config.trunc, BitVec.getLsbD_setWidth]
  by_cases hk : k < c.addrWidth.bits
  · have : k < 64 := by omega
    simp [hk, this]
  · simp [hk]

@[simp] theorem Config.fits_trunc (c : Config) (a : Addr) : c.fits (c.trunc a) := by
  show (c.trunc a).toNat < _
  rw [c.trunc_toNat]
  exact Nat.mod_lt _ (Nat.two_pow_pos _)

theorem Config.trunc_of_fits {c : Config} {a : Addr} (h : c.fits a) : c.trunc a = a := by
  apply BitVec.eq_of_toNat_eq
  rw [c.trunc_toNat, Nat.mod_eq_of_lt h]

@[simp] theorem Config.trunc_trunc (c : Config) (a : Addr) : c.trunc (c.trunc a) = c.trunc a :=
  Config.trunc_of_fits (c.fits_trunc a)

/-- A value fits when its bits above `ADDR_BITS` are zero. -/
theorem Config.fits_of_bits {c : Config} {a : Addr} (h : ∀ k, c.addrWidth.bits ≤ k → a.getLsbD k = false) : c.fits a := by
  have : c.trunc a = a := by
    apply BitVec.eq_of_getLsbD_eq
    intro k _
    rw [c.getLsbD_trunc]
    by_cases hk : k < c.addrWidth.bits
    · simp [hk]
    · simp [hk, h k (by omega)]
  rw [← this]
  exact c.fits_trunc a

theorem Config.fits.bit {c : Config} {a : Addr} (h : c.fits a) {k : Nat} (hk : c.addrWidth.bits ≤ k) :
    a.getLsbD k = false := by
  rw [← Config.trunc_of_fits h, c.getLsbD_trunc]
  simp [Nat.not_lt.2 hk]

/-- A value of at most 16 bits fits every address width. -/
theorem Config.fits_of_lt {c : Config} {a : Addr} (h : a.toNat < 2 ^ 16) : c.fits a :=
  lt_of_lt_of_le h (Nat.pow_le_pow_right (by omega) (by rcases c.addrWidth.bits_cases with h | h | h <;> omega))

@[simp] theorem Config.fits_signExtend (c : Config) (v : Half) : c.fits (c.signExtend v) := c.fits_trunc _

@[simp] theorem Config.fits_augment (c : Config) (base : Addr) (v : Half) : c.fits (c.augment base v) := c.fits_trunc _

@[simp] theorem Config.fits_negAddr (c : Config) (k : Nat) : c.fits (c.negAddr k) := c.fits_trunc _

/-! ### Stack pointers -/

theorem getLsbD_255 {k : Nat} (hk : 8 ≤ k) : (255#64).getLsbD k = false := by
  have : Nat.testBit 255 k = false :=
    Nat.testBit_lt_two_pow (lt_of_lt_of_le (show 255 < 2 ^ 8 by norm_num) (Nat.pow_le_pow_right (by omega) hk))
  simp [BitVec.getLsbD_ofNat, this]

theorem Config.fits_decSp {c : Config} {a : Addr} (h : c.fits a) : c.fits (c.decSp a) := by
  have hw := c.addrWidth.bits_cases
  unfold Config.decSp
  split
  · exact c.fits_trunc _
  · apply Config.fits_of_bits
    intro k hk
    simp [h.bit hk, getLsbD_255 (show 8 ≤ k by omega)]

theorem Config.fits_incSp {c : Config} {a : Addr} (h : c.fits a) : c.fits (c.incSp a) := by
  have hw := c.addrWidth.bits_cases
  unfold Config.incSp
  split
  · exact c.fits_trunc _
  · apply Config.fits_of_bits
    intro k hk
    simp [h.bit hk, getLsbD_255 (show 8 ≤ k by omega)]

/-! ### Byte order -/

@[simp] theorem bytesLE_length (n : Nat) (v : Addr) : (bytesLE n v).length = n := by
  induction n generalizing v with
  | zero => rfl
  | succ n ih => simp [bytesLE, ih]

/-! ### The bits of an image -/

theorem byteOfBits_getLsbD (f : Nat → Bool) {k : Nat} (hk : k < 8) : (byteOfBits f).getLsbD k = f k := by
  have b0 := Bool.toNat_le (f 0)
  have b1 := Bool.toNat_le (f 1)
  have b2 := Bool.toNat_le (f 2)
  have b3 := Bool.toNat_le (f 3)
  have b4 := Bool.toNat_le (f 4)
  have b5 := Bool.toNat_le (f 5)
  have b6 := Bool.toNat_le (f 6)
  have b7 := Bool.toNat_le (f 7)
  have hbit : ∀ b : Bool, decide (b.toNat = 1) = b := by decide
  simp only [byteOfBits, BitVec.getLsbD_ofNat, hk, decide_true, Bool.true_and, Nat.testBit_eq_decide_div_mod_eq]
  rw [← hbit (f k)]
  congr 1
  have hk' : k = 0 ∨ k = 1 ∨ k = 2 ∨ k = 3 ∨ k = 4 ∨ k = 5 ∨ k = 6 ∨ k = 7 := by omega
  rcases hk' with rfl | rfl | rfl | rfl | rfl | rfl | rfl | rfl <;> congr 1 <;> omega

/-- RTI restores the stored bits that a pushed image holds, whatever bits 5 and 4 of the image are. -/
@[simp] theorem Machine.Status.ofImage_image (p : Machine.Status) (b5 b4 : Bool) :
    Machine.Status.ofImage (p.image b5 b4) = p := by
  cases p
  simp only [Machine.Status.ofImage, Machine.Status.image, byteOfBits_getLsbD, Nat.reduceLT]

@[simp] theorem Machine.isStandardFrame_image (p : Machine.Status) (b5 b4 : Bool) :
    Machine.isStandardFrame (p.image b5 b4) = b5 := by
  simp only [Machine.isStandardFrame, Machine.Status.image, byteOfBits_getLsbD, Nat.reduceLT]

end Sys2Proof
end

