-- ==== Sys2Proof/Laws/Memory.lean ====
section
/-! SUPPORT. Reading and writing one byte of memory, and the canonical form. -/

namespace Sys2Proof

variable {fill : Byte}

/-- Below every listed address, memory reads as unlisted. -/
theorem Memory.read_of_lt {m : Memory} {a : Nat} (h : ∀ c ∈ m, a < c.1) : Memory.read fill m a = fill := by
  induction m with
  | nil => rfl
  | cons c m ih =>
    obtain ⟨k, b⟩ := c
    have hk : a < k := h (k, b) (by simp)
    have : a ≠ k := by omega
    simp only [Memory.read, this, if_false]
    exact ih fun c hc => h c (by simp [hc])

theorem Memory.wf_cons {c : Host.Cell} {m : Memory} (h : Memory.wf fill (c :: m)) :
    (∀ d ∈ m, c.1 < d.1) ∧ c.2 ≠ fill ∧ Memory.wf fill m := by
  obtain ⟨hs, hf⟩ := h
  rw [List.pairwise_cons] at hs
  exact ⟨hs.1, hf c (by simp), hs.2, fun d hd => hf d (by simp [hd])⟩

/-- What a read after a write gives, at any address, in a canonical memory. -/
theorem Memory.read_write {m : Memory} (h : Memory.wf fill m) (a b : Nat) (v : Byte) :
    Memory.read fill (Memory.write fill m a v) b = if b = a then v else Memory.read fill m b := by
  induction m with
  | nil =>
    by_cases hv : v = fill <;> by_cases hb : b = a <;> simp [Memory.write, Memory.read, hv, hb]
  | cons c m ih =>
    obtain ⟨k, x⟩ := c
    obtain ⟨hlt, -, hm⟩ := Memory.wf_cons h
    have ih := ih hm
    simp only [Memory.write]
    by_cases hak : a < k
    · have hlow : ∀ d ∈ (k, x) :: m, a < d.1 := by
        intro d hd
        rcases List.mem_cons.1 hd with rfl | hd
        · exact hak
        · exact lt_trans hak (hlt d hd)
      by_cases hb : b = a
      · subst hb
        by_cases hv : v = fill
        · simp only [hak, hv, if_true]
          exact Memory.read_of_lt hlow
        · simp [hak, hv, Memory.read]
      · by_cases hv : v = fill <;> simp [hak, hv, hb, Memory.read]
    · by_cases hk : a = k
      · subst hk
        by_cases hb : b = a
        · subst hb
          by_cases hv : v = fill
          · simp only [lt_irrefl, hv, if_true, if_false]
            exact Memory.read_of_lt hlt
          · simp [hv, Memory.read]
        · by_cases hv : v = fill <;> simp [hv, hb, Memory.read]
      · have hka : k ≠ a := fun h => hk h.symm
        by_cases hb : b = k
        · simp [hak, hk, hb, hka, Memory.read]
        · simp only [hak, hk, if_false, Memory.read, hb, ih]

/-- Every address that a written memory lists was listed before or is the one written. -/
theorem Memory.mem_write {m : Memory} {a : Nat} {v : Byte} {c : Host.Cell} (h : c ∈ Memory.write fill m a v) :
    c ∈ m ∨ (c = (a, v) ∧ v ≠ fill) := by
  induction m with
  | nil =>
    simp only [Memory.write] at h
    split_ifs at h with hv
    · simp at h
    · exact .inr ⟨by simpa using h, hv⟩
  | cons d m ih =>
    obtain ⟨k, x⟩ := d
    simp only [Memory.write] at h
    split_ifs at h with h1 h2 h3 h4
    · exact .inl h
    · rcases List.mem_cons.1 h with rfl | h
      · exact .inr ⟨rfl, h2⟩
      · exact .inl h
    · exact .inl (by simp [h])
    · rcases List.mem_cons.1 h with rfl | h
      · exact .inr ⟨rfl, h4⟩
      · exact .inl (by simp [h])
    · rcases List.mem_cons.1 h with rfl | h
      · exact .inl (by simp)
      · rcases ih h with h | h
        · exact .inl (by simp [h])
        · exact .inr h

/-- A write keeps the canonical form. -/
theorem Memory.write_wf {m : Memory} (h : Memory.wf fill m) (a : Nat) (v : Byte) :
    Memory.wf fill (Memory.write fill m a v) := by
  refine ⟨?_, fun c hc => ?_⟩
  · induction m with
    | nil =>
      simp only [Memory.write]
      split_ifs <;> simp
    | cons d m ih =>
      obtain ⟨k, x⟩ := d
      obtain ⟨hlt, -, hm⟩ := Memory.wf_cons h
      have ih := ih hm
      simp only [Memory.write]
      split_ifs with h1 h2 h3 h4
      · exact h.1
      · refine List.pairwise_cons.2 ⟨fun d hd => ?_, h.1⟩
        rcases List.mem_cons.1 hd with rfl | hd
        · exact h1
        · exact lt_trans h1 (hlt d hd)
      · exact hm.1
      · subst h3
        exact List.pairwise_cons.2 ⟨hlt, hm.1⟩
      · refine List.pairwise_cons.2 ⟨fun d hd => ?_, ih⟩
        rcases Memory.mem_write hd with hd | ⟨rfl, -⟩
        · exact hlt d hd
        · show k < a
          omega
  · rcases Memory.mem_write hc with hc | ⟨rfl, hv⟩
    · exact h.2 c hc
    · exact hv

/-- A write below a limit keeps every address below it. -/
theorem Memory.write_below {m : Memory} {limit a : Nat} (h : Memory.below limit m) (ha : a < limit) (v : Byte) :
    Memory.below limit (Memory.write fill m a v) := by
  intro c hc
  rcases Memory.mem_write hc with hc | ⟨rfl, -⟩
  · exact h c hc
  · exact ha

end Sys2Proof
end

