-- ==== Sys2Proof/Laws/State.lean ====
section
/-! SUPPORT. One lemma per field per update of the state, so that no proof unfolds a record update. -/

namespace Sys2Proof.Machine

variable (s : State)

/-! ### `setSp` -/

@[simp] theorem State.setSp_hyp (a : Addr) : s.setSp .hyp a = { s with spHyp := a } := rfl
@[simp] theorem State.setSp_user (a : Addr) : s.setSp .user a = { s with spUser := a } := rfl
@[simp] theorem State.sp_hyp : s.sp .hyp = s.spHyp := rfl
@[simp] theorem State.sp_user : s.sp .user = s.spUser := rfl
theorem State.sp_setSp (m : Mode) (a : Addr) : (s.setSp m a).sp m = a := by cases m <;> rfl
@[simp] theorem State.setSp_cfg (m : Mode) (a : Addr) : (s.setSp m a).cfg = s.cfg := by cases m <;> rfl
@[simp] theorem State.setSp_pc (m : Mode) (a : Addr) : (s.setSp m a).pc = s.pc := by cases m <;> rfl
@[simp] theorem State.setSp_mode (m : Mode) (a : Addr) : (s.setSp m a).mode = s.mode := by cases m <;> rfl
@[simp] theorem State.setSp_p (m : Mode) (a : Addr) : (s.setSp m a).p = s.p := by cases m <;> rfl
@[simp] theorem State.setSp_esrOther (m : Mode) (a : Addr) : (s.setSp m a).esrOther = s.esrOther := by cases m <;> rfl
@[simp] theorem State.setSp_ibr (m : Mode) (a : Addr) : (s.setSp m a).ibr = s.ibr := by cases m <;> rfl
@[simp] theorem State.setSp_abr (m : Mode) (a : Addr) : (s.setSp m a).abr = s.abr := by cases m <;> rfl
@[simp] theorem State.setSp_tbr (m : Mode) (a : Addr) : (s.setSp m a).tbr = s.tbr := by cases m <;> rfl
@[simp] theorem State.setSp_ibrActive (m : Mode) (a : Addr) : (s.setSp m a).ibrActive = s.ibrActive := by cases m <;> rfl
@[simp] theorem State.setSp_abrActive (m : Mode) (a : Addr) : (s.setSp m a).abrActive = s.abrActive := by cases m <;> rfl
@[simp] theorem State.setSp_tbrActive (m : Mode) (a : Addr) : (s.setSp m a).tbrActive = s.tbrActive := by cases m <;> rfl
@[simp] theorem State.setSp_tmv (m : Mode) (a : Addr) : (s.setSp m a).tmv = s.tmv := by cases m <;> rfl
@[simp] theorem State.setSp_eim (m : Mode) (a : Addr) : (s.setSp m a).eim = s.eim := by cases m <;> rfl
@[simp] theorem State.setSp_uim (m : Mode) (a : Addr) : (s.setSp m a).uim = s.uim := by cases m <;> rfl
@[simp] theorem State.setSp_lines (m : Mode) (a : Addr) : (s.setSp m a).lines = s.lines := by cases m <;> rfl
@[simp] theorem State.setSp_other (m : Mode) (a : Addr) : (s.setSp m a).other = s.other := by cases m <;> rfl
@[simp] theorem State.setSp_xlateOn (m : Mode) (a : Addr) : (s.setSp m a).xlateOn = s.xlateOn := by cases m <;> rfl
@[simp] theorem State.setSp_mem (m : Mode) (a : Addr) : (s.setSp m a).mem = s.mem := by cases m <;> rfl
@[simp] theorem State.setSp_inputs (m : Mode) (a : Addr) : (s.setSp m a).inputs = s.inputs := by cases m <;> rfl
@[simp] theorem State.setSp_configRead (m : Mode) (a : Addr) : (s.setSp m a).configRead = s.configRead := by cases m <;> rfl
@[simp] theorem State.setSp_draws (m : Mode) (a : Addr) : (s.setSp m a).draws = s.draws := by cases m <;> rfl

/-! ### `poke` -/

@[simp] theorem State.poke_cfg (a : Addr) (b : Byte) : (s.poke a b).cfg = s.cfg := rfl
@[simp] theorem State.poke_pc (a : Addr) (b : Byte) : (s.poke a b).pc = s.pc := rfl
@[simp] theorem State.poke_mode (a : Addr) (b : Byte) : (s.poke a b).mode = s.mode := rfl
@[simp] theorem State.poke_spHyp (a : Addr) (b : Byte) : (s.poke a b).spHyp = s.spHyp := rfl
@[simp] theorem State.poke_spUser (a : Addr) (b : Byte) : (s.poke a b).spUser = s.spUser := rfl
@[simp] theorem State.poke_p (a : Addr) (b : Byte) : (s.poke a b).p = s.p := rfl
@[simp] theorem State.poke_esrOther (a : Addr) (b : Byte) : (s.poke a b).esrOther = s.esrOther := rfl
@[simp] theorem State.poke_ibr (a : Addr) (b : Byte) : (s.poke a b).ibr = s.ibr := rfl
@[simp] theorem State.poke_abr (a : Addr) (b : Byte) : (s.poke a b).abr = s.abr := rfl
@[simp] theorem State.poke_tbr (a : Addr) (b : Byte) : (s.poke a b).tbr = s.tbr := rfl
@[simp] theorem State.poke_ibrActive (a : Addr) (b : Byte) : (s.poke a b).ibrActive = s.ibrActive := rfl
@[simp] theorem State.poke_abrActive (a : Addr) (b : Byte) : (s.poke a b).abrActive = s.abrActive := rfl
@[simp] theorem State.poke_tbrActive (a : Addr) (b : Byte) : (s.poke a b).tbrActive = s.tbrActive := rfl
@[simp] theorem State.poke_tmv (a : Addr) (b : Byte) : (s.poke a b).tmv = s.tmv := rfl
@[simp] theorem State.poke_eim (a : Addr) (b : Byte) : (s.poke a b).eim = s.eim := rfl
@[simp] theorem State.poke_uim (a : Addr) (b : Byte) : (s.poke a b).uim = s.uim := rfl
@[simp] theorem State.poke_lines (a : Addr) (b : Byte) : (s.poke a b).lines = s.lines := rfl
@[simp] theorem State.poke_other (a : Addr) (b : Byte) : (s.poke a b).other = s.other := rfl
@[simp] theorem State.poke_xlateOn (a : Addr) (b : Byte) : (s.poke a b).xlateOn = s.xlateOn := rfl
@[simp] theorem State.poke_mem (a : Addr) (b : Byte) : (s.poke a b).mem = Memory.write s.cfg.fill s.mem a.toNat b := rfl
@[simp] theorem State.poke_inputs (a : Addr) (b : Byte) : (s.poke a b).inputs = s.inputs := rfl
@[simp] theorem State.poke_configRead (a : Addr) (b : Byte) : (s.poke a b).configRead = s.configRead := rfl
@[simp] theorem State.poke_draws (a : Addr) (b : Byte) : (s.poke a b).draws = s.draws := rfl

/-! ### `storeAll` -/

@[simp] theorem State.storeAll_cfg (l : List (Addr × Byte)) : (s.storeAll l).cfg = s.cfg := by
  induction l generalizing s with
  | nil => rfl
  | cons x l ih => exact ih _
@[simp] theorem State.storeAll_pc (l : List (Addr × Byte)) : (s.storeAll l).pc = s.pc := by
  induction l generalizing s with
  | nil => rfl
  | cons x l ih => exact ih _
@[simp] theorem State.storeAll_mode (l : List (Addr × Byte)) : (s.storeAll l).mode = s.mode := by
  induction l generalizing s with
  | nil => rfl
  | cons x l ih => exact ih _
@[simp] theorem State.storeAll_spHyp (l : List (Addr × Byte)) : (s.storeAll l).spHyp = s.spHyp := by
  induction l generalizing s with
  | nil => rfl
  | cons x l ih => exact ih _
@[simp] theorem State.storeAll_spUser (l : List (Addr × Byte)) : (s.storeAll l).spUser = s.spUser := by
  induction l generalizing s with
  | nil => rfl
  | cons x l ih => exact ih _
@[simp] theorem State.storeAll_p (l : List (Addr × Byte)) : (s.storeAll l).p = s.p := by
  induction l generalizing s with
  | nil => rfl
  | cons x l ih => exact ih _
@[simp] theorem State.storeAll_esrOther (l : List (Addr × Byte)) : (s.storeAll l).esrOther = s.esrOther := by
  induction l generalizing s with
  | nil => rfl
  | cons x l ih => exact ih _
@[simp] theorem State.storeAll_ibr (l : List (Addr × Byte)) : (s.storeAll l).ibr = s.ibr := by
  induction l generalizing s with
  | nil => rfl
  | cons x l ih => exact ih _
@[simp] theorem State.storeAll_abr (l : List (Addr × Byte)) : (s.storeAll l).abr = s.abr := by
  induction l generalizing s with
  | nil => rfl
  | cons x l ih => exact ih _
@[simp] theorem State.storeAll_tbr (l : List (Addr × Byte)) : (s.storeAll l).tbr = s.tbr := by
  induction l generalizing s with
  | nil => rfl
  | cons x l ih => exact ih _
@[simp] theorem State.storeAll_ibrActive (l : List (Addr × Byte)) : (s.storeAll l).ibrActive = s.ibrActive := by
  induction l generalizing s with
  | nil => rfl
  | cons x l ih => exact ih _
@[simp] theorem State.storeAll_abrActive (l : List (Addr × Byte)) : (s.storeAll l).abrActive = s.abrActive := by
  induction l generalizing s with
  | nil => rfl
  | cons x l ih => exact ih _
@[simp] theorem State.storeAll_tbrActive (l : List (Addr × Byte)) : (s.storeAll l).tbrActive = s.tbrActive := by
  induction l generalizing s with
  | nil => rfl
  | cons x l ih => exact ih _
@[simp] theorem State.storeAll_tmv (l : List (Addr × Byte)) : (s.storeAll l).tmv = s.tmv := by
  induction l generalizing s with
  | nil => rfl
  | cons x l ih => exact ih _
@[simp] theorem State.storeAll_eim (l : List (Addr × Byte)) : (s.storeAll l).eim = s.eim := by
  induction l generalizing s with
  | nil => rfl
  | cons x l ih => exact ih _
@[simp] theorem State.storeAll_uim (l : List (Addr × Byte)) : (s.storeAll l).uim = s.uim := by
  induction l generalizing s with
  | nil => rfl
  | cons x l ih => exact ih _
@[simp] theorem State.storeAll_lines (l : List (Addr × Byte)) : (s.storeAll l).lines = s.lines := by
  induction l generalizing s with
  | nil => rfl
  | cons x l ih => exact ih _
@[simp] theorem State.storeAll_other (l : List (Addr × Byte)) : (s.storeAll l).other = s.other := by
  induction l generalizing s with
  | nil => rfl
  | cons x l ih => exact ih _
@[simp] theorem State.storeAll_xlateOn (l : List (Addr × Byte)) : (s.storeAll l).xlateOn = s.xlateOn := by
  induction l generalizing s with
  | nil => rfl
  | cons x l ih => exact ih _
@[simp] theorem State.storeAll_inputs (l : List (Addr × Byte)) : (s.storeAll l).inputs = s.inputs := by
  induction l generalizing s with
  | nil => rfl
  | cons x l ih => exact ih _
@[simp] theorem State.storeAll_configRead (l : List (Addr × Byte)) : (s.storeAll l).configRead = s.configRead := by
  induction l generalizing s with
  | nil => rfl
  | cons x l ih => exact ih _
@[simp] theorem State.storeAll_draws (l : List (Addr × Byte)) : (s.storeAll l).draws = s.draws := by
  induction l generalizing s with
  | nil => rfl
  | cons x l ih => exact ih _

/-! ### `withLines` -/

@[simp] theorem State.withLines_cfg (l : List Nat) : (s.withLines l).cfg = s.cfg := rfl
@[simp] theorem State.withLines_pc (l : List Nat) : (s.withLines l).pc = s.pc := rfl
@[simp] theorem State.withLines_mode (l : List Nat) : (s.withLines l).mode = s.mode := rfl
@[simp] theorem State.withLines_spHyp (l : List Nat) : (s.withLines l).spHyp = s.spHyp := rfl
@[simp] theorem State.withLines_spUser (l : List Nat) : (s.withLines l).spUser = s.spUser := rfl
@[simp] theorem State.withLines_p (l : List Nat) : (s.withLines l).p = s.p := rfl
@[simp] theorem State.withLines_esrOther (l : List Nat) : (s.withLines l).esrOther = s.esrOther := rfl
@[simp] theorem State.withLines_ibr (l : List Nat) : (s.withLines l).ibr = s.ibr := rfl
@[simp] theorem State.withLines_abr (l : List Nat) : (s.withLines l).abr = s.abr := rfl
@[simp] theorem State.withLines_tbr (l : List Nat) : (s.withLines l).tbr = s.tbr := rfl
@[simp] theorem State.withLines_ibrActive (l : List Nat) : (s.withLines l).ibrActive = s.ibrActive := rfl
@[simp] theorem State.withLines_abrActive (l : List Nat) : (s.withLines l).abrActive = s.abrActive := rfl
@[simp] theorem State.withLines_tbrActive (l : List Nat) : (s.withLines l).tbrActive = s.tbrActive := rfl
@[simp] theorem State.withLines_tmv (l : List Nat) : (s.withLines l).tmv = s.tmv := rfl
@[simp] theorem State.withLines_eim (l : List Nat) : (s.withLines l).eim = s.eim := rfl
@[simp] theorem State.withLines_uim (l : List Nat) : (s.withLines l).uim = s.uim := rfl
@[simp] theorem State.withLines_lines (l : List Nat) : (s.withLines l).lines = l.filter fun n => n < s.cfg.numInt := rfl
@[simp] theorem State.withLines_other (l : List Nat) : (s.withLines l).other = s.other := rfl
@[simp] theorem State.withLines_xlateOn (l : List Nat) : (s.withLines l).xlateOn = s.xlateOn := rfl
@[simp] theorem State.withLines_mem (l : List Nat) : (s.withLines l).mem = s.mem := rfl
@[simp] theorem State.withLines_inputs (l : List Nat) : (s.withLines l).inputs = s.inputs := rfl
@[simp] theorem State.withLines_configRead (l : List Nat) : (s.withLines l).configRead = s.configRead := rfl
@[simp] theorem State.withLines_draws (l : List Nat) : (s.withLines l).draws = s.draws := rfl

/-! ### `resetSequence` -/

@[simp] theorem State.resetSequence_cfg : (s.resetSequence).cfg = s.cfg := rfl
@[simp] theorem State.resetSequence_pc : (s.resetSequence).pc = s.cfg.signExtend s.resetVector := rfl
@[simp] theorem State.resetSequence_mode : (s.resetSequence).mode = .hyp := rfl
@[simp] theorem State.resetSequence_spHyp : (s.resetSequence).spHyp = 0x0100 := rfl
@[simp] theorem State.resetSequence_spUser : (s.resetSequence).spUser = 0x0100 := rfl
@[simp] theorem State.resetSequence_p : (s.resetSequence).p = Status.zero := rfl
@[simp] theorem State.resetSequence_esrOther : (s.resetSequence).esrOther = 0 := rfl
@[simp] theorem State.resetSequence_ibr : (s.resetSequence).ibr = s.cfg.ibrReset := rfl
@[simp] theorem State.resetSequence_abr : (s.resetSequence).abr = s.cfg.abrReset := rfl
@[simp] theorem State.resetSequence_tbr : (s.resetSequence).tbr = s.cfg.tbrReset := rfl
@[simp] theorem State.resetSequence_ibrActive : (s.resetSequence).ibrActive = false := rfl
@[simp] theorem State.resetSequence_abrActive : (s.resetSequence).abrActive = false := rfl
@[simp] theorem State.resetSequence_tbrActive : (s.resetSequence).tbrActive = false := rfl
@[simp] theorem State.resetSequence_tmv : (s.resetSequence).tmv = 0 := rfl
@[simp] theorem State.resetSequence_eim : (s.resetSequence).eim = .clear := rfl
@[simp] theorem State.resetSequence_uim : (s.resetSequence).uim = s.cfg.uimReset := rfl
@[simp] theorem State.resetSequence_lines : (s.resetSequence).lines = s.lines := rfl
@[simp] theorem State.resetSequence_other : (s.resetSequence).other = s.other.map fun _ => 0 := rfl
@[simp] theorem State.resetSequence_xlateOn : (s.resetSequence).xlateOn = false := rfl
@[simp] theorem State.resetSequence_mem : (s.resetSequence).mem = s.mem := rfl
@[simp] theorem State.resetSequence_inputs : (s.resetSequence).inputs = s.inputs := rfl
@[simp] theorem State.resetSequence_configRead : (s.resetSequence).configRead = s.configRead := rfl
@[simp] theorem State.resetSequence_draws : (s.resetSequence).draws = s.draws := rfl

/-! ### `rtiCommit` -/

@[simp] theorem State.rtiCommit_cfg (b : Byte) : (rtiCommit b s).cfg = s.cfg := rfl
@[simp] theorem State.rtiCommit_pc (b : Byte) : (rtiCommit b s).pc = s.pc := rfl
@[simp] theorem State.rtiCommit_mode (b : Byte) : (rtiCommit b s).mode = s.mode := rfl
@[simp] theorem State.rtiCommit_spHyp (b : Byte) : (rtiCommit b s).spHyp = s.spHyp := rfl
@[simp] theorem State.rtiCommit_spUser (b : Byte) : (rtiCommit b s).spUser = s.spUser := rfl
@[simp] theorem State.rtiCommit_p (b : Byte) : (rtiCommit b s).p = statusAfterRti s.cfg b := rfl
@[simp] theorem State.rtiCommit_esrOther (b : Byte) : (rtiCommit b s).esrOther = s.esrOther := rfl
@[simp] theorem State.rtiCommit_ibr (b : Byte) : (rtiCommit b s).ibr = s.ibr := rfl
@[simp] theorem State.rtiCommit_abr (b : Byte) : (rtiCommit b s).abr = s.abr := rfl
@[simp] theorem State.rtiCommit_tbr (b : Byte) : (rtiCommit b s).tbr = s.tbr := rfl
@[simp] theorem State.rtiCommit_ibrActive (b : Byte) : (rtiCommit b s).ibrActive = s.ibrActive := rfl
@[simp] theorem State.rtiCommit_abrActive (b : Byte) : (rtiCommit b s).abrActive = s.abrActive := rfl
@[simp] theorem State.rtiCommit_tbrActive (b : Byte) : (rtiCommit b s).tbrActive = s.tbrActive := rfl
@[simp] theorem State.rtiCommit_tmv (b : Byte) : (rtiCommit b s).tmv = s.tmv := rfl
@[simp] theorem State.rtiCommit_eim (b : Byte) : (rtiCommit b s).eim = .clear := rfl
@[simp] theorem State.rtiCommit_uim (b : Byte) : (rtiCommit b s).uim = s.uim := rfl
@[simp] theorem State.rtiCommit_lines (b : Byte) : (rtiCommit b s).lines = s.lines := rfl
@[simp] theorem State.rtiCommit_other (b : Byte) : (rtiCommit b s).other = s.other := rfl
@[simp] theorem State.rtiCommit_xlateOn (b : Byte) : (rtiCommit b s).xlateOn = s.xlateOn := rfl
@[simp] theorem State.rtiCommit_mem (b : Byte) : (rtiCommit b s).mem = s.mem := rfl
@[simp] theorem State.rtiCommit_inputs (b : Byte) : (rtiCommit b s).inputs = s.inputs := rfl
@[simp] theorem State.rtiCommit_configRead (b : Byte) : (rtiCommit b s).configRead = s.configRead := rfl
@[simp] theorem State.rtiCommit_draws (b : Byte) : (rtiCommit b s).draws = s.draws := rfl

/-! ### `brkSetsFlag` and `loadPc`, which branch on a parameter -/

@[simp] theorem State.brkSetsFlag_cfg : s.brkSetsFlag.cfg = s.cfg := by
  unfold State.brkSetsFlag; split <;> rfl
@[simp] theorem State.brkSetsFlag_pc : s.brkSetsFlag.pc = s.pc := by
  unfold State.brkSetsFlag; split <;> rfl
@[simp] theorem State.brkSetsFlag_mode : s.brkSetsFlag.mode = s.mode := by
  unfold State.brkSetsFlag; split <;> rfl
@[simp] theorem State.brkSetsFlag_spHyp : s.brkSetsFlag.spHyp = s.spHyp := by
  unfold State.brkSetsFlag; split <;> rfl
@[simp] theorem State.brkSetsFlag_spUser : s.brkSetsFlag.spUser = s.spUser := by
  unfold State.brkSetsFlag; split <;> rfl
theorem State.brkSetsFlag_p : s.brkSetsFlag.p = if s.cfg.brkSetsI then s.p.withI true else s.p := by
  unfold State.brkSetsFlag; split <;> rfl
@[simp] theorem State.brkSetsFlag_esrOther : s.brkSetsFlag.esrOther = s.esrOther := by
  unfold State.brkSetsFlag; split <;> rfl
@[simp] theorem State.brkSetsFlag_ibr : s.brkSetsFlag.ibr = s.ibr := by
  unfold State.brkSetsFlag; split <;> rfl
@[simp] theorem State.brkSetsFlag_abr : s.brkSetsFlag.abr = s.abr := by
  unfold State.brkSetsFlag; split <;> rfl
@[simp] theorem State.brkSetsFlag_tbr : s.brkSetsFlag.tbr = s.tbr := by
  unfold State.brkSetsFlag; split <;> rfl
@[simp] theorem State.brkSetsFlag_ibrActive : s.brkSetsFlag.ibrActive = s.ibrActive := by
  unfold State.brkSetsFlag; split <;> rfl
@[simp] theorem State.brkSetsFlag_abrActive : s.brkSetsFlag.abrActive = s.abrActive := by
  unfold State.brkSetsFlag; split <;> rfl
@[simp] theorem State.brkSetsFlag_tbrActive : s.brkSetsFlag.tbrActive = s.tbrActive := by
  unfold State.brkSetsFlag; split <;> rfl
@[simp] theorem State.brkSetsFlag_tmv : s.brkSetsFlag.tmv = s.tmv := by
  unfold State.brkSetsFlag; split <;> rfl
@[simp] theorem State.brkSetsFlag_eim : s.brkSetsFlag.eim = s.eim := by
  unfold State.brkSetsFlag; split <;> rfl
@[simp] theorem State.brkSetsFlag_uim : s.brkSetsFlag.uim = s.uim := by
  unfold State.brkSetsFlag; split <;> rfl
@[simp] theorem State.brkSetsFlag_lines : s.brkSetsFlag.lines = s.lines := by
  unfold State.brkSetsFlag; split <;> rfl
@[simp] theorem State.brkSetsFlag_other : s.brkSetsFlag.other = s.other := by
  unfold State.brkSetsFlag; split <;> rfl
@[simp] theorem State.brkSetsFlag_xlateOn : s.brkSetsFlag.xlateOn = s.xlateOn := by
  unfold State.brkSetsFlag; split <;> rfl
@[simp] theorem State.brkSetsFlag_mem : s.brkSetsFlag.mem = s.mem := by
  unfold State.brkSetsFlag; split <;> rfl
@[simp] theorem State.brkSetsFlag_inputs : s.brkSetsFlag.inputs = s.inputs := by
  unfold State.brkSetsFlag; split <;> rfl
@[simp] theorem State.brkSetsFlag_configRead : s.brkSetsFlag.configRead = s.configRead := by
  unfold State.brkSetsFlag; split <;> rfl
@[simp] theorem State.brkSetsFlag_draws : s.brkSetsFlag.draws = s.draws := by
  unfold State.brkSetsFlag; split <;> rfl
@[simp] theorem State.loadPc_cfg (w : FrameWidth) (v : Addr) : (s.loadPc w v).cfg = s.cfg := by
  unfold State.loadPc; split <;> rfl
@[simp] theorem State.loadPc_mode (w : FrameWidth) (v : Addr) : (s.loadPc w v).mode = s.mode := by
  unfold State.loadPc; split <;> rfl
@[simp] theorem State.loadPc_spHyp (w : FrameWidth) (v : Addr) : (s.loadPc w v).spHyp = s.spHyp := by
  unfold State.loadPc; split <;> rfl
@[simp] theorem State.loadPc_spUser (w : FrameWidth) (v : Addr) : (s.loadPc w v).spUser = s.spUser := by
  unfold State.loadPc; split <;> rfl
@[simp] theorem State.loadPc_p (w : FrameWidth) (v : Addr) : (s.loadPc w v).p = s.p := by
  unfold State.loadPc; split <;> rfl
@[simp] theorem State.loadPc_esrOther (w : FrameWidth) (v : Addr) : (s.loadPc w v).esrOther = s.esrOther := by
  unfold State.loadPc; split <;> rfl
@[simp] theorem State.loadPc_ibr (w : FrameWidth) (v : Addr) : (s.loadPc w v).ibr = s.ibr := by
  unfold State.loadPc; split <;> rfl
@[simp] theorem State.loadPc_abr (w : FrameWidth) (v : Addr) : (s.loadPc w v).abr = s.abr := by
  unfold State.loadPc; split <;> rfl
@[simp] theorem State.loadPc_tbr (w : FrameWidth) (v : Addr) : (s.loadPc w v).tbr = s.tbr := by
  unfold State.loadPc; split <;> rfl
@[simp] theorem State.loadPc_ibrActive (w : FrameWidth) (v : Addr) : (s.loadPc w v).ibrActive = s.ibrActive := by
  unfold State.loadPc; split <;> rfl
@[simp] theorem State.loadPc_abrActive (w : FrameWidth) (v : Addr) : (s.loadPc w v).abrActive = s.abrActive := by
  unfold State.loadPc; split <;> rfl
@[simp] theorem State.loadPc_tbrActive (w : FrameWidth) (v : Addr) : (s.loadPc w v).tbrActive = s.tbrActive := by
  unfold State.loadPc; split <;> rfl
@[simp] theorem State.loadPc_tmv (w : FrameWidth) (v : Addr) : (s.loadPc w v).tmv = s.tmv := by
  unfold State.loadPc; split <;> rfl
@[simp] theorem State.loadPc_eim (w : FrameWidth) (v : Addr) : (s.loadPc w v).eim = s.eim := by
  unfold State.loadPc; split <;> rfl
@[simp] theorem State.loadPc_uim (w : FrameWidth) (v : Addr) : (s.loadPc w v).uim = s.uim := by
  unfold State.loadPc; split <;> rfl
@[simp] theorem State.loadPc_lines (w : FrameWidth) (v : Addr) : (s.loadPc w v).lines = s.lines := by
  unfold State.loadPc; split <;> rfl
@[simp] theorem State.loadPc_other (w : FrameWidth) (v : Addr) : (s.loadPc w v).other = s.other := by
  unfold State.loadPc; split <;> rfl
@[simp] theorem State.loadPc_xlateOn (w : FrameWidth) (v : Addr) : (s.loadPc w v).xlateOn = s.xlateOn := by
  unfold State.loadPc; split <;> rfl
@[simp] theorem State.loadPc_mem (w : FrameWidth) (v : Addr) : (s.loadPc w v).mem = s.mem := by
  unfold State.loadPc; split <;> rfl
@[simp] theorem State.loadPc_inputs (w : FrameWidth) (v : Addr) : (s.loadPc w v).inputs = s.inputs := by
  unfold State.loadPc; split <;> rfl
@[simp] theorem State.loadPc_configRead (w : FrameWidth) (v : Addr) : (s.loadPc w v).configRead = s.configRead := by
  unfold State.loadPc; split <;> rfl

/-- Where the value is no wider than an address, `loadPc` sign-extends it. -/
theorem State.loadPc_narrow {w : FrameWidth} (h : w.bytes ≤ s.cfg.addrWidth.bytes) (v : Addr) :
    s.loadPc w v = { s with pc := s.cfg.trunc (w.signExtend v) } := by
  simp [State.loadPc, h]

/-- Where the value is wider than an address, `loadPc` draws a free value. -/
theorem State.loadPc_wide {w : FrameWidth} (h : s.cfg.addrWidth.bytes < w.bytes) (v : Addr) :
    s.loadPc w v = { s with pc := s.cfg.trunc (Config.freeAddr s.draws), draws := s.draws + 1 } := by
  simp [State.loadPc, Nat.not_le.2 h]

/-- `loadPc` always leaves a program counter of `ADDR_BITS` bits. -/
theorem State.fits_loadPc (w : FrameWidth) (v : Addr) : s.cfg.fits (s.loadPc w v).pc := by
  unfold State.loadPc
  split <;> exact Config.fits_trunc _ _

/-- The state that the host calls reset is what the reset sequence makes of it. -/
theorem State.resetSequence_reset : State.reset.resetSequence = State.reset := rfl

end Sys2Proof.Machine
end

