-- ==== Sys2Proof/Laws/Ops.lean ====
section
/-! SUPPORT. What each shared operation can do, said once. -/

namespace Sys2Proof

theorem Config.fits_decSpN {c : Config} {a : Addr} (h : c.fits a) (n : Nat) : c.fits (c.decSpN n a) := by
  induction n generalizing a with
  | zero => exact h
  | succ n ih => exact ih (Config.fits_decSp h)

theorem Config.fits_incSpN {c : Config} {a : Addr} (h : c.fits a) (n : Nat) : c.fits (c.incSpN n a) := by
  induction n generalizing a with
  | zero => exact h
  | succ n ih => exact ih (Config.fits_incSp h)

@[simp] theorem addressBytes_length (w : FrameWidth) (a : Addr) : (Machine.addressBytes w a).length = w.bytes := by
  simp [Machine.addressBytes]

theorem Config.fits_translate {c : Config} {m : Mode} {a pa : Addr} {k : Access} (h : c.translate m a k = .ok pa) :
    c.fits pa := by
  unfold Config.translate at h
  split at h
  · split at h
    · cases h; exact c.fits_trunc _
    · cases h
  · cases h

end Sys2Proof

namespace Sys2Proof.Machine

/-! ### Accesses -/

theorem State.translate_flat {s : State} (h : s.Flat) (sp : Space) (a : Addr) (k : Access) :
    s.translate sp a k = .ok (s.cfg.trunc a) := by
  simp only [State.translate, h]
  simp

/-- Without translation every push can be made. -/
theorem State.canPush_of_flat {s : State} (h : s.Flat) (m : Mode) (n : Nat) : s.CanPush m n :=
  fun _ _ => ⟨_, State.translate_flat h _ _ _⟩

theorem State.translate_congr {s t : State} (hc : t.cfg = s.cfg) (hx : t.xlateOn = s.xlateOn) :
    t.translate = s.translate := by
  funext sp a k
  simp only [State.translate, hc, hx]

theorem State.fits_translate {s : State} {sp : Space} {a pa : Addr} {k : Access} (h : s.translate sp a k = .ok pa) :
    s.cfg.fits pa := by
  unfold State.translate at h
  split at h
  · split at h
    · exact Config.fits_translate h
    · exact Config.fits_translate h
    · cases h; exact Config.fits_trunc _ _
  · cases h; exact Config.fits_trunc _ _

/-- What a byte stored in a canonical memory reads as afterwards. -/
theorem State.peek_poke {s : State} (h : s.mem.wf s.cfg.fill) (a : Addr) (b : Byte) (pa : Addr) :
    (s.poke a b).peek pa = if pa = a then b else s.peek pa := by
  simp only [State.peek, State.poke_mem, State.poke_cfg, Memory.read_write h, BitVec.toNat_inj]

/-- A byte write that succeeds stores at the address it is translated to. -/
theorem State.writeByte_ok {s t : State} {sp : Space} {a : Addr} {b : Byte} (h : s.writeByte sp a b = .ok t) :
    ∃ pa, s.translate sp a .write = .ok pa ∧ t = s.poke pa b := by
  unfold State.writeByte at h
  split at h
  · next pa hpa => cases h; exact ⟨pa, hpa, rfl⟩
  · cases h

/-! ### Pushing -/

/-- What pushing a byte makes of the state. -/
def State.pushed (s : State) (m : Mode) (pa : Addr) (b : Byte) : State :=
  (s.poke pa b).setSp m (s.cfg.decSp (s.sp m))

theorem State.pushed_sp (s : State) (m : Mode) (pa : Addr) (b : Byte) :
    (s.pushed m pa b).sp m = s.cfg.decSp (s.sp m) := State.sp_setSp _ _ _

theorem State.pushBytes_cons (m : Mode) (b : Byte) (bs : List Byte) (s : State) :
    State.pushBytes m (b :: bs) s
      = match s.translate m.space (s.sp m) .write with
        | .ok pa => State.pushBytes m bs (s.pushed m pa b)
        | .error c => .aborted c s := by
  simp only [State.pushBytes, State.writeByte]
  cases s.translate m.space (s.sp m) .write with
  | ok pa =>
    cases m <;> rfl
  | error c => rfl

theorem State.translate_pushed (s : State) (m : Mode) (pa : Addr) (b : Byte) :
    (s.pushed m pa b).translate = s.translate :=
  State.translate_congr (by simp [State.pushed]) (by simp [State.pushed])

/-- A state that differs from `s` in the stack pointer of mode `m` and in memory only. -/
abbrev State.SameButStack (s t : State) (m : Mode) : Prop := t = { s.setSp m (t.sp m) with mem := t.mem }

theorem State.sameButStack_refl (s : State) (m : Mode) : s.SameButStack s m := by cases m <;> rfl

theorem State.sameButStack_pushed {s t : State} {m : Mode} {pa : Addr} {b : Byte}
    (h : (s.pushed m pa b).SameButStack t m) : s.SameButStack t m := by
  rw [State.SameButStack] at h ⊢
  rw [h]
  cases m <;> rfl

/-- Pushes that are done: only the stack pointer and memory change, the pointer by as many decrements as bytes, and
memory holds the bytes. -/
theorem State.pushBytes_done {m : Mode} {bs : List Byte} {s t : State} (h : State.pushBytes m bs s = .done t) :
    s.SameButStack t m ∧ t.sp m = s.cfg.decSpN bs.length (s.sp m) ∧ s.CanPush m bs.length
      ∧ (s.mem.wf s.cfg.fill → s.StackHolds t m bs ∧ t.mem.wf s.cfg.fill)
      ∧ (s.mem.below (2 ^ s.cfg.addrWidth.bits) → t.mem.below (2 ^ s.cfg.addrWidth.bits)) := by
  induction bs generalizing s with
  | nil =>
    cases h
    refine ⟨State.sameButStack_refl _ m, rfl, fun k hk => absurd hk (Nat.not_lt_zero _), fun hw => ⟨⟨?_, ?_⟩, hw⟩, id⟩
    · intro k hk; exact absurd hk (Nat.not_lt_zero _)
    · intro _ _; rfl
  | cons b bs ih =>
    rw [State.pushBytes_cons] at h
    cases htr : s.translate m.space (s.sp m) .write with
    | error c => rw [htr] at h; cases h
    | ok pa =>
      rw [htr] at h
      obtain ⟨h1, h2, h3, h4, h5⟩ := ih h
      have hcfg : (s.pushed m pa b).cfg = s.cfg := by simp [State.pushed]
      have hmem : (s.pushed m pa b).mem = Memory.write s.cfg.fill s.mem pa.toNat b := by simp [State.pushed]
      simp only [State.CanPush, State.translate_pushed, hcfg, State.pushed_sp] at h2 h3
      rw [hcfg, hmem] at h4 h5
      refine ⟨State.sameButStack_pushed h1, by rw [h2]; rfl, ?_, fun hw => ?_, fun hb => ?_⟩
      · intro k hk
        cases k with
        | zero => exact ⟨pa, htr⟩
        | succ k => exact h3 k (by simpa using hk)
      · obtain ⟨⟨hst, hk⟩, hwf⟩ := h4 (Memory.write_wf hw _ _)
        simp only [State.translate_pushed, hcfg, State.pushed_sp] at hst hk
        have hpeek : ∀ q, (s.pushed m pa b).peek q = if q = pa then b else s.peek q := by
          intro q
          rw [← State.peek_poke hw]
          simp only [State.peek, hmem, hcfg, State.poke_mem, State.poke_cfg]
        refine ⟨⟨?_, ?_⟩, hwf⟩
        · intro k hk' q hq hlater
          cases k with
          | zero =>
            have hqp : q = pa := by
              have : Except.ok (ε := AbortCause) pa = .ok q := htr.symm.trans hq
              cases this; rfl
            rw [hk q fun j hj => hlater (j + 1) (by omega) (by simpa using hj), hpeek, if_pos hqp]
            rfl
          | succ k =>
            exact hst k (by simpa using hk') q hq fun j hj hj' => hlater (j + 1) (by omega) (by simpa using hj')
        · intro q hq
          have hqp : q ≠ pa := fun hqp => hq 0 (by simp) (hqp ▸ htr)
          rw [hk q fun j hj => hq (j + 1) (by simpa using hj), hpeek, if_neg hqp]
      · exact h5 (Memory.write_below hb (State.fits_translate htr) _)

/-- Pushes that are met by an abort: only the stack pointer and memory have changed. -/
theorem State.pushBytes_aborted {m : Mode} {bs : List Byte} {s t : State} {c : AbortCause}
    (h : State.pushBytes m bs s = .aborted c t) :
    s.SameButStack t m ∧ (∃ k, k < bs.length ∧ t.sp m = s.cfg.decSpN k (s.sp m)
        ∧ s.translate m.space (s.cfg.decSpN k (s.sp m)) .write = .error c)
      ∧ (s.mem.wf s.cfg.fill → t.mem.wf s.cfg.fill)
      ∧ (s.mem.below (2 ^ s.cfg.addrWidth.bits) → t.mem.below (2 ^ s.cfg.addrWidth.bits)) := by
  induction bs generalizing s with
  | nil => cases h
  | cons b bs ih =>
    rw [State.pushBytes_cons] at h
    cases htr : s.translate m.space (s.sp m) .write with
    | error c' =>
      rw [htr] at h
      cases h
      exact ⟨State.sameButStack_refl _ m, ⟨0, by simp, rfl, htr⟩, id, id⟩
    | ok pa =>
      rw [htr] at h
      obtain ⟨h1, ⟨k, hk, h2, h3⟩, h4, h5⟩ := ih h
      have hcfg : (s.pushed m pa b).cfg = s.cfg := by simp [State.pushed]
      have hmem : (s.pushed m pa b).mem = Memory.write s.cfg.fill s.mem pa.toNat b := by simp [State.pushed]
      simp only [State.translate_pushed, hcfg, State.pushed_sp] at h2 h3
      rw [hcfg, hmem] at h4 h5
      exact ⟨State.sameButStack_pushed h1, ⟨k + 1, by simpa using hk, h2, h3⟩,
        fun hw => h4 (Memory.write_wf hw _ _), fun hb => h5 (Memory.write_below hb (State.fits_translate htr) _)⟩

/-- Pushes are done wherever every address may be written. -/
theorem State.pushBytes_of_canPush {m : Mode} {bs : List Byte} {s : State} (h : s.CanPush m bs.length) :
    ∃ t, State.pushBytes m bs s = .done t := by
  induction bs generalizing s with
  | nil => exact ⟨s, rfl⟩
  | cons b bs ih =>
    obtain ⟨pa, hpa⟩ := h 0 (by simp)
    have hpa' : s.translate m.space (s.sp m) .write = .ok pa := hpa
    rw [State.pushBytes_cons, hpa']
    apply ih
    intro k hk
    obtain ⟨q, hq⟩ := h (k + 1) (by simpa using hk)
    refine ⟨q, ?_⟩
    have hcfg : (s.pushed m pa b).cfg = s.cfg := by simp [State.pushed]
    rw [State.translate_pushed, hcfg, State.pushed_sp]
    exact hq

/-! ### Taking an exception -/

/-- Abort entry that goes on: the frame is on the hypervisor stack, the mode is hypervisor mode, the program counter comes
from the abort's vector, and nothing else has changed. -/
theorem raiseAbort_next {c : AbortCause} {s t : State} (h : raiseAbort c s = .next t) :
    t = { s with pc := t.pc, mode := .hyp, spHyp := s.cfg.decSpN (s.entryFrame s.pc).length s.spHyp, mem := t.mem }
      ∧ t.abortTarget c = .ok t.pc
      ∧ (s.mem.wf s.cfg.fill → s.StackHolds t .hyp (s.entryFrame s.pc) ∧ t.mem.wf s.cfg.fill)
      ∧ (s.mem.below (2 ^ s.cfg.addrWidth.bits) → t.mem.below (2 ^ s.cfg.addrWidth.bits)) := by
  unfold raiseAbort at h
  split at h
  · cases h
  · next s1 hp =>
    obtain ⟨h1, h2, -, h4, h5⟩ := State.pushBytes_done hp
    split at h
    · cases h
    · next target ht =>
      cases h
      rw [State.SameButStack] at h1
      refine ⟨?_, ht, fun hw => ⟨⟨(h4 hw).1.stored, (h4 hw).1.kept⟩, (h4 hw).2⟩, h5⟩
      rw [h1]
      rw [State.sp_hyp] at h2
      simp only [State.sp_hyp, State.setSp_hyp, h2]

/-- Interrupt entry that goes on. -/
theorem takeInterrupt_next {n : Nat} {s t : State} (h : takeInterrupt n s = .next t) :
    t = { s with pc := t.pc, mode := .hyp, spHyp := s.cfg.decSpN (s.entryFrame s.pc).length s.spHyp,
                 eim := .entered s.eim n, mem := t.mem }
      ∧ t.interruptTarget n = .ok t.pc
      ∧ (s.mem.wf s.cfg.fill → s.StackHolds t .hyp (s.entryFrame s.pc) ∧ t.mem.wf s.cfg.fill)
      ∧ (s.mem.below (2 ^ s.cfg.addrWidth.bits) → t.mem.below (2 ^ s.cfg.addrWidth.bits)) := by
  unfold takeInterrupt at h
  split at h
  · cases h
  · next s1 hp =>
    obtain ⟨h1, h2, -, h4, h5⟩ := State.pushBytes_done hp
    split at h
    · cases h
    · next target ht =>
      cases h
      rw [State.SameButStack] at h1
      refine ⟨?_, ht, fun hw => ⟨⟨(h4 hw).1.stored, (h4 hw).1.kept⟩, (h4 hw).2⟩, h5⟩
      rw [h1]
      rw [State.sp_hyp] at h2
      simp only [State.sp_hyp, State.setSp_hyp, h2]

/-- An instruction that goes on is complete, or the abort it raises is taken. -/
theorem Effect.finish_next {e : Effect} {t : State} (h : e.finish = .next t) :
    e = .next t ∨ ∃ c s1, e = .abort c s1 ∧ raiseAbort c s1 = .next t := by
  cases e with
  | next s => cases h; exact .inl rfl
  | abort c s1 => exact .inr ⟨c, s1, rfl, h⟩
  | refused r => cases h

@[simp] theorem Effect.finish_abort (c : AbortCause) (s : State) : (Effect.abort c s).finish = raiseAbort c s := rfl
@[simp] theorem Effect.finish_of_next (s : State) : (Effect.next s).finish = .next s := rfl
@[simp] theorem Effect.finish_refused (r : Refusal) : (Effect.refused r).finish = .refused r := rfl

/-- `exec` finishes what the instruction itself comes to. -/
theorem exec_eq_finish (i : Instr) (s : State) : exec i s = (instrEffect i s).finish := by cases i <;> rfl

/-- An access inside an instruction that completes has answered. -/
theorem orAbort_next {s t : State} {r : Except AbortCause Addr} {k : Addr → Effect} (h : orAbort s r k = .next t) :
    ∃ a, r = .ok a ∧ k a = .next t := by
  unfold orAbort at h
  split at h
  · cases h
  · exact ⟨_, rfl, h⟩

/-- An access inside an instruction that aborts has itself met the abort, or has answered and the rest aborts. -/
theorem orAbort_abort {s s1 : State} {c : AbortCause} {r : Except AbortCause Addr} {k : Addr → Effect}
    (h : orAbort s r k = .abort c s1) : (r = .error c ∧ s1 = s) ∨ ∃ a, r = .ok a ∧ k a = .abort c s1 := by
  unfold orAbort at h
  split at h
  · cases h; exact .inl ⟨rfl, rfl⟩
  · exact .inr ⟨_, rfl, h⟩

/-- Pushes inside an instruction that completes are done. -/
theorem pushOrAbort_next {m : Mode} {frame : List Byte} {s t : State} {k : State → Effect}
    (h : pushOrAbort m frame s k = .next t) : ∃ s1, State.pushBytes m frame s = .done s1 ∧ k s1 = .next t := by
  unfold pushOrAbort at h
  split at h
  · cases h
  · exact ⟨_, ‹_›, h⟩

/-- Pushes inside an instruction that aborts have themselves met the abort, or are done and the rest aborts. -/
theorem pushOrAbort_abort {m : Mode} {frame : List Byte} {s s1 : State} {c : AbortCause} {k : State → Effect}
    (h : pushOrAbort m frame s k = .abort c s1) :
    State.pushBytes m frame s = .aborted c s1 ∨ ∃ s2, State.pushBytes m frame s = .done s2 ∧ k s2 = .abort c s1 := by
  unfold pushOrAbort at h
  split at h
  · cases h; exact .inl ‹_›
  · exact .inr ⟨_, ‹_›, h⟩

/-! ### Returning from one -/

/-- An extended return that completes commits the frame as a whole. -/
theorem returnExtended_next {m : Mode} {e : Byte} {a0 : Addr} {commit : State → State} {s t : State}
    (h : returnExtended m e a0 commit s = .next t) :
    ∃ w a sp', s.cfg.esr.decodeWidth e = some w ∧ s.pullValue m w a0 = .ok (a, sp')
      ∧ (s.cfg.esr.decodeMode e = .user → s.cfg.hasSupervisor = true)
      ∧ t = (commit { s.setSp m sp' with mode := s.cfg.esr.decodeMode e
                                         esrOther := s.cfg.esr.decodeOther e }).loadPc w a := by
  unfold returnExtended at h
  split at h
  · cases h
  · next hs =>
    split at h
    · cases h
    · next w hw =>
      split at h
      · cases h
      · next a sp' hp =>
        cases h
        refine ⟨w, a, sp', hw, hp, fun hu => ?_, rfl⟩
        by_contra hn
        exact hs ⟨by simpa using hn, hu⟩

/-- An extended return that aborts commits nothing: the abort is that of the pull of the address. -/
theorem returnExtended_abort {m : Mode} {e : Byte} {a0 : Addr} {commit : State → State} {s s1 : State} {c : AbortCause}
    (h : returnExtended m e a0 commit s = .abort c s1) :
    s1 = s ∧ ∃ w, s.cfg.esr.decodeWidth e = some w ∧ s.pullValue m w a0 = .error c := by
  unfold returnExtended at h
  split at h
  · cases h
  · split at h
    · cases h
    · next w hw =>
      split at h
      · next hc => cases h; exact ⟨rfl, w, hw, hc⟩
      · cases h

/-- A standard return that completes. -/
theorem returnStandard_next {a0 : Addr} {commit : State → State} {s t : State}
    (h : returnStandard a0 commit s = .next t) :
    ∃ a sp', s.pullValue s.mode (s.cfg.nativeWidth s.mode) a0 = .ok (a, sp')
      ∧ t = (commit (s.setSp s.mode sp')).loadPc (s.cfg.nativeWidth s.mode) a := by
  unfold returnStandard at h
  split at h
  · cases h
  · next a sp' hp => cases h; exact ⟨a, sp', hp, rfl⟩

/-- A standard return that aborts commits nothing. -/
theorem returnStandard_abort {a0 : Addr} {commit : State → State} {s s1 : State} {c : AbortCause}
    (h : returnStandard a0 commit s = .abort c s1) :
    s1 = s ∧ s.pullValue s.mode (s.cfg.nativeWidth s.mode) a0 = .error c := by
  unfold returnStandard at h
  split at h
  · next hc => cases h; exact ⟨rfl, hc⟩
  · cases h

/-! ### Stores -/

theorem State.storeAll_append (s : State) (l l' : List (Addr × Byte)) :
    s.storeAll (l ++ l') = (s.storeAll l).storeAll l' := by
  induction l generalizing s with
  | nil => rfl
  | cons x l ih => exact ih _

/-- Stores change memory alone. -/
theorem State.storeAll_eq (s : State) (l : List (Addr × Byte)) : s.storeAll l = { s with mem := (s.storeAll l).mem } := by
  induction l generalizing s with
  | nil => rfl
  | cons x l ih => exact ih (s.poke x.1 x.2)

/-- What stores make of memory depends on the memory they start from and on what an unlisted byte reads as. -/
theorem State.storeAll_mem_congr {s t : State} (hc : t.cfg = s.cfg) (hm : t.mem = s.mem) (l : List (Addr × Byte)) :
    (t.storeAll l).mem = (s.storeAll l).mem := by
  induction l generalizing s t with
  | nil => exact hm
  | cons x l ih =>
    refine ih (s := s.poke x.1 x.2) (t := t.poke x.1 x.2) (by simp [hc]) ?_
    simp [hc, hm]

/-- Stores keep memory in its canonical form. -/
theorem State.storeAll_wf {s : State} (h : s.mem.wf s.cfg.fill) (l : List (Addr × Byte)) :
    (s.storeAll l).mem.wf s.cfg.fill := by
  induction l generalizing s with
  | nil => exact h
  | cons x l ih =>
    have h' : (s.poke x.1 x.2).mem.wf (s.poke x.1 x.2).cfg.fill := Memory.write_wf h _ _
    exact ih h'

/-- Stores inside the address space keep memory inside it. -/
theorem State.storeAll_below {s : State} {l : List (Addr × Byte)} (h : s.mem.below (2 ^ s.cfg.addrWidth.bits))
    (hl : ∀ x ∈ l, s.cfg.fits x.1) : (s.storeAll l).mem.below (2 ^ s.cfg.addrWidth.bits) := by
  induction l generalizing s with
  | nil => exact h
  | cons x l ih =>
    have h' : (s.poke x.1 x.2).mem.below (2 ^ (s.poke x.1 x.2).cfg.addrWidth.bits) :=
      Memory.write_below h (hl x (by simp)) _
    exact ih h' fun y hy => hl y (by simp [hy])

/-- Pushes store inside the address space. -/
theorem State.fits_pushStores {s : State} {m : Mode} {bs : List Byte} {a : Addr} {x : Addr × Byte}
    (h : x ∈ s.pushStores m bs a) : s.cfg.fits x.1 := by
  induction bs generalizing a with
  | nil => cases h
  | cons b bs ih =>
    simp only [State.pushStores] at h
    split at h
    · cases h
    · next pa hpa =>
      rcases List.mem_cons.1 h with rfl | h
      · exact State.fits_translate hpa
      · exact ih h

theorem State.pushStores_pushed (s : State) (m : Mode) (pa : Addr) (b : Byte) (l : List Byte) (a : Addr) :
    (s.pushed m pa b).pushStores m l a = s.pushStores m l a := by
  induction l generalizing a with
  | nil => rfl
  | cons y l ih =>
    have hc : (s.pushed m pa b).cfg = s.cfg := by simp [State.pushed]
    simp only [State.pushStores, State.translate_pushed, ih, hc]

/-- `pushStores` is what the pushes store: memory after pushes that are done. -/
theorem State.mem_of_pushBytes_done {m : Mode} {bs : List Byte} {s t : State} (h : State.pushBytes m bs s = .done t) :
    t.mem = (s.storeAll (s.pushStores m bs (s.sp m))).mem := by
  induction bs generalizing s with
  | nil => cases h; rfl
  | cons b bs ih =>
    rw [State.pushBytes_cons] at h
    cases htr : s.translate m.space (s.sp m) .write with
    | error c => rw [htr] at h; cases h
    | ok pa =>
      rw [htr] at h
      rw [ih h]
      simp only [State.pushStores_pushed, State.pushed_sp, State.pushStores, htr, State.storeAll]
      exact State.storeAll_mem_congr (by simp [State.pushed]) (by simp [State.pushed]) _

/-- `pushStores` is what the pushes store: memory after pushes that meet an abort. -/
theorem State.mem_of_pushBytes_aborted {m : Mode} {bs : List Byte} {s t : State} {c : AbortCause}
    (h : State.pushBytes m bs s = .aborted c t) : t.mem = (s.storeAll (s.pushStores m bs (s.sp m))).mem := by
  induction bs generalizing s with
  | nil => cases h
  | cons b bs ih =>
    rw [State.pushBytes_cons] at h
    cases htr : s.translate m.space (s.sp m) .write with
    | error c => rw [htr] at h; cases h; simp only [State.pushStores, htr, State.storeAll]
    | ok pa =>
      rw [htr] at h
      rw [ih h]
      simp only [State.pushStores_pushed, State.pushed_sp, State.pushStores, htr, State.storeAll]
      exact State.storeAll_mem_congr (by simp [State.pushed]) (by simp [State.pushed]) _

/-! ### Pulling -/

/-- Pulls that succeed read each byte above the temporary pointer and leave it incremented as often. -/
theorem State.pullBytes_ok {s : State} {m : Mode} {n : Nat} {a t : Addr} {bs : List Byte}
    (h : s.pullBytes m n a = .ok (bs, t)) :
    bs.length = n ∧ t = s.cfg.incSpN n a
      ∧ ∀ k (hk : k < bs.length), s.readByte m.space (s.cfg.incSpN (k + 1) a) .read = .ok bs[k] := by
  induction n generalizing a t bs with
  | zero =>
    cases h
    exact ⟨rfl, rfl, fun k hk => absurd hk (Nat.not_lt_zero _)⟩
  | succ n ih =>
    simp only [State.pullBytes] at h
    split at h
    · cases h
    · next b hb =>
      split at h
      · cases h
      · next bs' t' hp =>
        cases h
        obtain ⟨h1, h2, h3⟩ := ih hp
        refine ⟨by simp [h1], by rw [h2]; rfl, fun k hk => ?_⟩
        cases k with
        | zero => exact hb
        | succ k => exact h3 k (by simpa using hk)

/-- One pull of `n + k` bytes is a pull of `n` and then a pull of `k`. -/
theorem State.pullBytes_add (s : State) (m : Mode) (n k : Nat) (a : Addr) :
    s.pullBytes m (n + k) a
      = match s.pullBytes m n a with
        | .error c => .error c
        | .ok (bs, t) =>
          match s.pullBytes m k t with
          | .error c => .error c
          | .ok (bs', t') => .ok (bs ++ bs', t') := by
  induction n generalizing a with
  | zero =>
    simp only [Nat.zero_add, State.pullBytes]
    cases s.pullBytes m k a with
    | error c => rfl
    | ok r => rfl
  | succ n ih =>
    rw [Nat.succ_add]
    simp only [State.pullBytes, ih]
    cases s.readByte m.space (s.cfg.incSp a) .read with
    | error c => rfl
    | ok b =>
      cases s.pullBytes m n (s.cfg.incSp a) with
      | error c => rfl
      | ok r =>
        cases h : s.pullBytes m k r.2 <;> simp [h]

theorem State.pullByte_eq (s : State) (m : Mode) (a : Addr) :
    s.pullByte m a = match s.pullBytes m 1 a with
      | .error c => .error c
      | .ok (bs, t) => .ok (bs.headD 0, t) := by
  simp only [State.pullByte, State.pullBytes]
  cases s.readByte m.space (s.cfg.incSp a) .read <;> rfl

/-! ### The configuration registers -/

/-- A configuration write that goes on was made in hypervisor mode. -/
theorem writeConfig_next {v : ConfigValue} {s t : State} (h : writeConfig v s = .next t) :
    s.mode = .hyp ∧
      ((∃ a, v = .ibr a ∧ a &&& 0xFF = 0 ∧ t = { s with ibr := s.cfg.trunc a, ibrActive := true })
      ∨ (∃ a, v = .abr a ∧ a &&& 0xFF = 0 ∧ t = { s with abr := s.cfg.trunc a, abrActive := true })
      ∨ (∃ a, v = .tbr a ∧ a &&& 0x1FF = 0 ∧ t = { s with tbr := s.cfg.trunc a, tbrActive := true })
      ∨ (∃ n, v = .tmv n ∧ t = { s with tmv := n % 2 ^ s.cfg.tmvBits })
      ∨ (∃ e, v = .eim e ∧ t = { s with eim := e })
      ∨ (∃ u, v = .uim u ∧ t = { s with uim := u })
      ∨ (∃ b, v = .xlate b ∧ s.cfg.hasTranslation = true ∧ t = { s with xlateOn := b })) := by
  unfold writeConfig at h
  split at h
  · cases h
  · next hm =>
    refine ⟨hm, ?_⟩
    cases v with
    | ibr a => by_cases ha : a &&& 0xFF = 0 <;> simp_all
    | abr a => by_cases ha : a &&& 0xFF = 0 <;> simp_all
    | tbr a => by_cases ha : a &&& 0x1FF = 0 <;> simp_all
    | tmv n => simp_all
    | eim e => simp_all
    | uim u => simp_all
    | xlate b => by_cases hx : s.cfg.hasTranslation = true <;> simp_all

end Sys2Proof.Machine
end

