-- ==== Sys2Proof/Laws/Instr.lean ====
section
/-! SUPPORT. What each instruction and each boundary can do, said once: if it answers `next t`, then one of these cases. -/

namespace Sys2Proof.Machine

/-- A TRAP that goes on was allowed and entered its handler, or an abort was taken: MAXTRAP from the state before it, or a
memory abort from a state in which the mode, the hypervisor stack pointer and memory may have changed. -/
theorem execTrap_next {n : Byte} {s t : State} (h : execTrap n s = .next t) :
    (s.trapAllowed n = true ∧
      ((∃ s1, State.pushBytes .hyp (s.trapFrame (s.nextPc (.trap n))) s = .done s1
          ∧ ({ s1 with mode := .hyp } : State).trapTarget n = .ok t.pc
          ∧ t = { s1 with mode := .hyp, pc := t.pc })
        ∨ (∃ s1 c, State.pushBytes .hyp (s.trapFrame (s.nextPc (.trap n))) s = .aborted c s1 ∧ raiseAbort c s1 = .next t)
        ∨ (∃ s1 c, State.pushBytes .hyp (s.trapFrame (s.nextPc (.trap n))) s = .done s1
            ∧ ({ s1 with mode := .hyp } : State).trapTarget n = .error c
            ∧ raiseAbort c { s1 with mode := .hyp } = .next t)))
    ∨ (s.trapAllowed n = false ∧ raiseAbort .maxtrap s = .next t) := by
  unfold execTrap trapEffect at h
  split at h
  · next ha =>
    refine .inl ⟨ha, ?_⟩
    rcases Effect.finish_next h with h | ⟨c, s1, h, hr⟩
    · obtain ⟨s1, hp, hk⟩ := pushOrAbort_next h
      obtain ⟨a, ht, hn⟩ := orAbort_next hk
      cases hn; exact .inl ⟨s1, hp, ht, rfl⟩
    · rcases pushOrAbort_abort h with hp | ⟨s2, hp, hk⟩
      · exact .inr (.inl ⟨s1, c, hp, hr⟩)
      · rcases orAbort_abort hk with ⟨ht, rfl⟩ | ⟨a, -, hn⟩
        · exact .inr (.inr ⟨s2, c, hp, ht, hr⟩)
        · cases hn
  · next ha => exact .inr ⟨by simpa using ha, h⟩

/-- A BRK that goes on entered its handler, or a memory abort was taken. -/
theorem execBrk_next {s t : State} (h : execBrk s = .next t) :
    (∃ s1, State.pushBytes s.mode (s.brkFrame s.brkReturn) s = .done s1
        ∧ s1.brkSetsFlag.brkTarget = .ok t.pc ∧ t = { s1.brkSetsFlag with pc := t.pc })
    ∨ (∃ s1 c, State.pushBytes s.mode (s.brkFrame s.brkReturn) s = .aborted c s1 ∧ raiseAbort c s1 = .next t)
    ∨ (∃ s1 c, State.pushBytes s.mode (s.brkFrame s.brkReturn) s = .done s1
        ∧ s1.brkSetsFlag.brkTarget = .error c ∧ raiseAbort c s1.brkSetsFlag = .next t) := by
  unfold execBrk brkEffect at h
  rcases Effect.finish_next h with h | ⟨c, s1, h, hr⟩
  · obtain ⟨s1, hp, hk⟩ := pushOrAbort_next h
    obtain ⟨a, ht, hn⟩ := orAbort_next hk
    cases hn; exact .inl ⟨s1, hp, ht, rfl⟩
  · rcases pushOrAbort_abort h with hp | ⟨s2, hp, hk⟩
    · exact .inr (.inl ⟨s1, c, hp, hr⟩)
    · rcases orAbort_abort hk with ⟨ht, rfl⟩ | ⟨a, -, hn⟩
      · exact .inr (.inr ⟨s2, c, hp, ht, hr⟩)
      · cases hn

/-- An RTI that raises an abort has committed nothing. -/
theorem rtiEffect_abort {s s1 : State} {c : AbortCause} (h : rtiEffect s = .abort c s1) : s1 = s := by
  unfold rtiEffect at h
  split at h
  · cases h; rfl
  · split at h
    · exact (returnStandard_abort h).1
    · split at h
      · cases h; rfl
      · split at h
        · cases h; rfl
        · exact (returnExtended_abort h).1

/-- An RTI that completes returned from a standard or an extended frame. -/
theorem rtiEffect_next {s t : State} (h : rtiEffect s = .next t) :
    (∃ b sp1 a sp, s.pullByte s.mode (s.sp s.mode) = .ok (b, sp1) ∧ isStandardFrame b = true
        ∧ s.pullValue s.mode (s.cfg.nativeWidth s.mode) sp1 = .ok (a, sp)
        ∧ t = (rtiCommit b (s.setSp s.mode sp)).loadPc (s.cfg.nativeWidth s.mode) a)
    ∨ (∃ b sp1 e sp2 w a sp, s.pullByte s.mode (s.sp s.mode) = .ok (b, sp1) ∧ isStandardFrame b = false
        ∧ s.pullByte s.mode sp1 = .ok (e, sp2) ∧ (s.mode = .user → s.cfg.esr.decodeMode e = .user)
        ∧ (s.cfg.esr.decodeMode e = .user → s.cfg.hasSupervisor = true)
        ∧ s.cfg.esr.decodeWidth e = some w ∧ s.pullValue s.mode w sp2 = .ok (a, sp)
        ∧ t = (rtiCommit b { s.setSp s.mode sp with mode := s.cfg.esr.decodeMode e
                                                    esrOther := s.cfg.esr.decodeOther e }).loadPc w a) := by
  unfold rtiEffect at h
  split at h
  · cases h
  · next b sp1 h1 =>
    split at h
    · next hb =>
      obtain ⟨a, sp, hp, ht⟩ := returnStandard_next h
      exact .inl ⟨b, sp1, a, sp, h1, hb, hp, ht⟩
    · next hb =>
      split at h
      · cases h
      · next e sp2 h2 =>
        split at h
        · cases h
        · next hpriv =>
          obtain ⟨w, a, sp, hw, hp, hsup, ht⟩ := returnExtended_next h
          refine .inr ⟨b, sp1, e, sp2, w, a, sp, h1, by simpa using hb, h2, fun hu => ?_, hsup, hw, hp, ht⟩
          cases hd : s.cfg.esr.decodeMode e with
          | user => rfl
          | hyp => exact absurd ⟨hu, hd⟩ hpriv

/-- An RTI that goes on returned from a standard or an extended frame, or an abort was taken with nothing committed. -/
theorem execRti_next {s t : State} (h : execRti s = .next t) :
    rtiEffect s = .next t ∨ ∃ c, rtiEffect s = .abort c s ∧ raiseAbort c s = .next t := by
  rcases Effect.finish_next h with h | ⟨c, s1, h, hr⟩
  · exact .inl h
  · obtain rfl := rtiEffect_abort h
    exact .inr ⟨c, h, hr⟩

/-- An RTU that raises an abort has committed nothing. -/
theorem rtuEffect_abort {s s1 : State} {c : AbortCause} (h : rtuEffect s = .abort c s1) : s1 = s := by
  unfold rtuEffect at h
  split at h
  · cases h; rfl
  · split at h
    · cases h; rfl
    · exact (returnExtended_abort h).1

/-- An RTU that completes returned from a TRAP's frame, in hypervisor mode. -/
theorem rtuEffect_next {s t : State} (h : rtuEffect s = .next t) :
    ∃ e sp1 w a sp, s.mode = .hyp ∧ s.pullByte .hyp s.spHyp = .ok (e, sp1)
      ∧ (s.cfg.esr.decodeMode e = .user → s.cfg.hasSupervisor = true)
      ∧ s.cfg.esr.decodeWidth e = some w ∧ s.pullValue .hyp w sp1 = .ok (a, sp)
      ∧ t = ({ s with spHyp := sp, mode := s.cfg.esr.decodeMode e
                      esrOther := s.cfg.esr.decodeOther e } : State).loadPc w a := by
  unfold rtuEffect at h
  split at h
  · cases h
  · next hm =>
    split at h
    · cases h
    · next e sp1 h1 =>
      obtain ⟨w, a, sp, hw, hp, hsup, ht⟩ := returnExtended_next h
      exact ⟨e, sp1, w, a, sp, hm, h1, hsup, hw, hp, ht⟩

/-- An RTU that goes on returned from a TRAP's frame, or an abort was taken with nothing committed. -/
theorem execRtu_next {s t : State} (h : execRtu s = .next t) :
    rtuEffect s = .next t ∨ ∃ c, rtuEffect s = .abort c s ∧ raiseAbort c s = .next t := by
  rcases Effect.finish_next h with h | ⟨c, s1, h, hr⟩
  · exact .inl h
  · obtain rfl := rtuEffect_abort h
    exact .inr ⟨c, h, hr⟩

/-- The privilege test of JPU, passed in hypervisor mode with the supervisor feature. -/
theorem enterUser_next {s t : State} {k : State → Effect} (h : (enterUser s k).finish = .next t) :
    s.cfg.hasSupervisor = true
      ∧ ((s.mode = .hyp ∧ (k { s with mode := .user }).finish = .next t)
        ∨ (s.mode = .user ∧ raiseAbort .privop s = .next t)) := by
  unfold enterUser at h
  split at h
  · next hs =>
    split at h
    · exact ⟨hs, .inr ⟨‹_›, h⟩⟩
    · exact ⟨hs, .inl ⟨‹_›, h⟩⟩
  · cases h

/-- A JPU, absolute form, that goes on. -/
theorem execJpuAbs_next {operand : Half} {s t : State} (h : execJpuAbs operand s = .next t) :
    s.cfg.hasSupervisor = true
      ∧ ((s.mode = .hyp ∧ t = { s with mode := .user, pc := s.cfg.extendOperand operand })
        ∨ (s.mode = .user ∧ raiseAbort .privop s = .next t)) := by
  obtain ⟨hs, ⟨hm, hk⟩ | hu⟩ := enterUser_next h
  · cases hk; exact ⟨hs, .inl ⟨hm, rfl⟩⟩
  · exact ⟨hs, .inr hu⟩

/-- A JPU, indirect form, that goes on. -/
theorem execJpuInd_next {operand : Half} {s t : State} (h : execJpuInd operand s = .next t) :
    s.cfg.hasSupervisor = true
      ∧ ((s.mode = .hyp ∧ ∃ ptr, ({ s with mode := .user } : State).readPointer (s.cfg.extendOperand operand) = .ok ptr
            ∧ t = ({ s with mode := .user } : State).loadPc s.cfg.jpuPtr ptr)
        ∨ (s.mode = .hyp ∧ ∃ c, ({ s with mode := .user } : State).readPointer (s.cfg.extendOperand operand) = .error c
            ∧ raiseAbort c { s with mode := .user } = .next t)
        ∨ (s.mode = .user ∧ raiseAbort .privop s = .next t)) := by
  obtain ⟨hs, ⟨hm, hk⟩ | hu⟩ := enterUser_next h
  · rcases Effect.finish_next hk with hk | ⟨c, s1, hk, hr⟩
    · obtain ⟨a, hp, hn⟩ := orAbort_next hk
      cases hn; exact ⟨hs, .inl ⟨hm, a, hp, rfl⟩⟩
    · rcases orAbort_abort hk with ⟨hp, rfl⟩ | ⟨a, -, hn⟩
      · exact ⟨hs, .inr (.inl ⟨hm, c, hp, hr⟩)⟩
      · cases hn
  · exact ⟨hs, .inr (.inr hu)⟩

/-- The fields that sampling the lines leaves alone. -/
theorem State.sampled_eq (s : State) :
    ∃ lines inputs, s.sampled = { s with lines := lines, inputs := inputs }
      ∧ ((∀ n ∈ s.lines, n < s.cfg.numInt) → ∀ n ∈ lines, n < s.cfg.numInt) := by
  unfold State.sampled
  split
  · next asserted rest _ =>
    refine ⟨asserted.filter fun n => n < s.cfg.numInt, rest, rfl, fun _ n hn => ?_⟩
    simpa using (List.mem_filter.1 hn).2
  all_goals exact ⟨s.lines, s.inputs, rfl, id⟩

/-- A step without a reset is the boundary of the sampled state. -/
theorem step_of_noReset {s : State} (h : s.NoReset) : step s = runBoundary s.sampled := by
  obtain ⟨h1, h2⟩ := h
  unfold step stepOnce
  unfold State.sampled at h2 ⊢
  split
  · next hi => simp [hi] at h1
  · next l rest hi =>
    simp only [hi] at h2 ⊢
    unfold runOrReset
    split
    · next hr => simp only [State.withLines] at hr; simp [State.withLines, hr, Input.isResetWithin] at h2
    all_goals rfl
  · next hi => simp [hi, Input.isResetWithin] at h2
  · next hi => simp only [hi, runOrReset]
  · next hi => simp only [hi, runOrReset]

/-- A step with a reset at the boundary is the reset sequence. -/
theorem step_of_reset {s : State} (h : s.inputs.head? = some .reset) :
    step s = .next ({ s with inputs := s.inputs.tail } : State).resetSequence := by
  unfold step stepOnce
  split
  all_goals simp_all

/-- A step with a reset in the middle of what the boundary of the sampled state begins. -/
theorem step_of_resetWithin {s : State} {k : Nat} {rest : List Input} (h : s.sampled.inputs = .resetWithin k :: rest) :
    step s = resetWithin k { s.sampled with inputs := rest } := by
  unfold step stepOnce
  unfold State.sampled at h ⊢
  split
  · next hi => simp [hi] at h
  · next l rest' hi =>
    simp only [hi] at h ⊢
    unfold runOrReset
    rw [h]
  · next hi => simp only [hi] at h ⊢; simp only [runOrReset, hi, h]
  · next hi => simp [hi] at h
  · next hi => simp [hi] at h

/-- There is a reset at the boundary, one in the middle of the step, or none. -/
theorem State.noReset_cases (s : State) :
    s.NoReset ∨ s.inputs.head? = some .reset ∨ ∃ k rest, s.sampled.inputs = .resetWithin k :: rest := by
  by_cases h1 : s.inputs.head? = some .reset
  · exact .inr (.inl h1)
  · cases hi : s.sampled.inputs with
    | nil => exact .inl ⟨h1, by simp [hi]⟩
    | cons x rest =>
      cases x with
      | resetWithin k => exact .inr (.inr ⟨k, rest, rfl⟩)
      | reset => exact .inl ⟨h1, by simp [hi, Input.isResetWithin]⟩
      | lines l => exact .inl ⟨h1, by simp [hi, Input.isResetWithin]⟩
      | config a => exact .inl ⟨h1, by simp [hi, Input.isResetWithin]⟩

/-- A reset in the middle of a step, if it goes on, is the reset sequence: of the state with some of the stores made, or of
the state that the step comes to. -/
theorem resetWithin_next {k : Nat} {s t : State} (h : resetWithin k s = .next t) :
    (k ≤ s.boundaryStores.length ∧ t = (s.storeAll (s.boundaryStores.take k)).resetSequence)
    ∨ ∃ u, runBoundary s = .next u ∧ t = u.resetSequence := by
  unfold resetWithin at h
  split at h
  · cases h; exact .inl ⟨‹_›, rfl⟩
  · split at h
    · next u hu => cases h; exact .inr ⟨u, hu, rfl⟩
    · cases h
    · cases h

/-- What a boundary does, if it goes on: interrupt entry, a configuration action, an instruction, or a fetch's abort. -/
theorem runBoundary_next {s t : State} (h : runBoundary s = .next t) :
    (∃ n, s.nextInterrupt = some n ∧ takeInterrupt n s = .next t)
    ∨ (s.nextInterrupt = none ∧
      ((∃ a rest, s.inputs = .config a :: rest ∧ configAction a { s with inputs := rest } = .next t)
      ∨ ((∀ a, s.inputs.head? ≠ some (.config a))
        ∧ ((∃ i, s.fetchInstr = .instr i ∧ exec i s = .next t)
          ∨ ∃ c, s.fetchInstr = .abort c ∧ raiseAbort c s = .next t)))) := by
  unfold runBoundary at h
  split at h
  · exact .inl ⟨_, ‹_›, h⟩
  · next hn =>
    refine .inr ⟨hn, ?_⟩
    have key : runInstruction s = .next t →
        (∃ i, s.fetchInstr = .instr i ∧ exec i s = .next t) ∨ ∃ c, s.fetchInstr = .abort c ∧ raiseAbort c s = .next t := by
      intro h
      unfold runInstruction at h
      split at h
      · exact .inl ⟨_, ‹_›, h⟩
      · exact .inr ⟨_, ‹_›, h⟩
      · cases h
    unfold runAction at h
    split at h
    · next a rest hi => exact .inl ⟨a, rest, hi, h⟩
    all_goals next hi => exact .inr ⟨by simp [hi], key h⟩

end Sys2Proof.Machine
end

