-- ==== Sys2Proof/Laws/PerInstr.lean ====
section
/-! SUPPORT. Facts about every instruction as syntax, one lemma per constructor. -/

namespace Sys2Proof.Laws

/-- Two operand bytes after any opcode of the table stay within its longest instruction. -/
theorem opcode_length_le (t : OpcodeTable) {o : List Byte} (h : o ∈ t.rows) : o.length + 2 ≤ t.maxLength := by
  simp only [OpcodeTable.rows, List.mem_cons, List.not_mem_nil, or_false] at h
  simp only [OpcodeTable.maxLength, OpcodeTable.rows, List.map, List.foldr]
  rcases h with rfl | rfl | rfl | rfl | rfl | rfl | rfl | rfl <;> simp only [List.length_cons, List.length_nil] <;> omega

end Sys2Proof.Laws

namespace Sys2Proof.Laws.EncodedLength

/-- The encoding of an instruction is its opcode and as many operand bytes as its format has (30_encoding.md R42): none in
format F0, one in F1, two in F2; and it is no longer than the table's longest instruction. -/
def Statement (i : Instr) : Prop :=
  ∀ t : OpcodeTable,
    (encode t i).length = (i.opcode t).length
      + (match i with
         | .trap _ => 1
         | .jpuAbs _ => 2
         | .jpuInd _ => 2
         | _ => 0)
    ∧ (encode t i).length ≤ t.maxLength

theorem brk : Statement .brk := fun t =>
  ⟨by simp [encode, Instr.operandBytes], by
    have := opcode_length_le t (o := [t.brk]) (by simp [OpcodeTable.rows])
    simp [encode, Instr.operandBytes, Instr.opcode] at *; omega⟩

theorem rti : Statement .rti := fun t =>
  ⟨by simp [encode, Instr.operandBytes], by
    have := opcode_length_le t (o := [t.rti]) (by simp [OpcodeTable.rows])
    simp [encode, Instr.operandBytes, Instr.opcode] at *; omega⟩

theorem cli : Statement .cli := fun t =>
  ⟨by simp [encode, Instr.operandBytes], by
    have := opcode_length_le t (o := [t.cli]) (by simp [OpcodeTable.rows])
    simp [encode, Instr.operandBytes, Instr.opcode] at *; omega⟩

theorem sei : Statement .sei := fun t =>
  ⟨by simp [encode, Instr.operandBytes], by
    have := opcode_length_le t (o := [t.sei]) (by simp [OpcodeTable.rows])
    simp [encode, Instr.operandBytes, Instr.opcode] at *; omega⟩

theorem trap (n : Byte) : Statement (.trap n) := fun t =>
  ⟨by simp [encode, Instr.operandBytes], by
    have := opcode_length_le t (o := t.trap) (by simp [OpcodeTable.rows])
    simp [encode, Instr.operandBytes, Instr.opcode] at *; omega⟩

theorem rtu : Statement .rtu := fun t =>
  ⟨by simp [encode, Instr.operandBytes], by
    have := opcode_length_le t (o := t.rtu) (by simp [OpcodeTable.rows])
    simp [encode, Instr.operandBytes, Instr.opcode] at *; omega⟩

theorem jpuAbs (operand : Half) : Statement (.jpuAbs operand) := fun t =>
  ⟨by simp [encode, Instr.operandBytes], by
    have := opcode_length_le t (o := t.jpuAbs) (by simp [OpcodeTable.rows])
    simp [encode, Instr.operandBytes, Instr.opcode] at *; omega⟩

theorem jpuInd (operand : Half) : Statement (.jpuInd operand) := fun t =>
  ⟨by simp [encode, Instr.operandBytes], by
    have := opcode_length_le t (o := t.jpuInd) (by simp [OpcodeTable.rows])
    simp [encode, Instr.operandBytes, Instr.opcode] at *; omega⟩

end Sys2Proof.Laws.EncodedLength
end

