-- ==== Sys2Proof/Tests/Slice0.lean ====
section
/-! SUPPORT. Tests: the checks of WellFormed refuse what is ill formed, encodings written out from the spec, the spec's own
test vectors (95_test_vectors.md), and for each statement with hypotheses a state that meets them. -/

namespace Sys2Proof.Tests

open Sys2Proof.Machine

/-! ### Helpers -/

/-- Opcodes for the tests: those of the original 6502, and example opcodes of one byte for the others, as the vectors of
95_test_vectors.md assume. -/
def opcodes : OpcodeTable :=
  { brk := 0x00, rti := 0x40, cli := 0x58, sei := 0x78, trap := [0x02], rtu := [0x12], jpuAbs := [0x22], jpuInd := [0x32] }

/-- A 16-bit processor (95_test_vectors.md section 0). -/
def cfg16 : Config := { implementation with opcodes := opcodes }

/-- A 64-bit processor whose native width is 8 bytes in either mode. -/
def cfg64 : Config :=
  { cfg16 with addrWidth := .bits64, nativeHyp := .w8, nativeUser := .w8, frameHyp := .w8, frameUser := .w8 }

/-- Memory with the given bytes. -/
def memory (cells : List (Nat × Byte)) : Memory := cells.foldl (fun m c => Memory.write 0 m c.1 c.2) []

/-- A state of a 16-bit processor in hypervisor mode at $8000. -/
def st : State := { State.reset with cfg := cfg16, pc := 0x8000, spHyp := 0x01F0, spUser := 0x01E0, tmv := 0x04 }

/-- The same in user mode at $2000. -/
def us : State := { st with mode := .user, pc := 0x2000 }

/-- The state after, if the outcome is a next state that satisfies the test. -/
def goesTo (o : Host.Outcome State Fault Refusal) (test : State → Bool) : Bool :=
  match o with
  | .next t => test t
  | .fault _ => false
  | .refused _ => false

/-- The bytes at consecutive addresses of memory. -/
def bytesAt (t : State) (a n : Nat) : List Byte := (List.range n).map fun k => t.peek (BitVec.ofNat 64 (a + k))

/-- The status register with the bits of a byte, in the 6502 layout. -/
def pOf (b : Byte) : Status := Status.ofImage b

/-! ### WellFormed refuses what is ill formed -/

theorem test_opcodes_wf : opcodes.wf := by decide
theorem test_wf_refuses_equal_opcodes : ¬ ({ opcodes with rtu := [0x02] } : OpcodeTable).wf := by decide
theorem test_wf_refuses_empty_opcode : ¬ ({ opcodes with trap := [] } : OpcodeTable).wf := by decide
theorem test_wf_refuses_prefix_opcode : ¬ ({ opcodes with jpuAbs := [0x78, 0x01] } : OpcodeTable).wf := by decide
theorem test_instr_wf_refuses_shadowed : ¬ (Instr.rtu).wf { opcodes with trap := [0x12, 0x01] } := by decide
theorem test_esr_wf : implementationEsr.wf := by decide
theorem test_esr_wf_refuses_shared_bit : ¬ ({ implementationEsr with modePos := 1 } : EsrLayout).wf := by decide
theorem test_esr_wf_refuses_far_bit : ¬ ({ implementationEsr with modePos := 8 } : EsrLayout).wf := by decide
theorem test_esr_wf_refuses_equal_codes : ¬ ({ implementationEsr with code4 := 2 } : EsrLayout).wf := by decide

theorem test_cfg16_wf : cfg16.Wf :=
  ⟨by decide, List.Perm.refl _, fun m => by cases m <;> decide, fun m => by cases m <;> decide, by decide, by decide,
    by decide, by decide⟩
theorem test_cfg_wf_refuses_no_lines : ¬ ({ cfg16 with numInt := 0 } : Config).Wf := fun h => absurd h.numInt (by decide)
theorem test_cfg_wf_refuses_short_order : ¬ ({ cfg16 with priority := [0, 1] } : Config).Wf :=
  fun h => absurd h.priority (by decide)
theorem test_cfg_wf_refuses_wide_native : ¬ ({ cfg16 with nativeUser := .w4 } : Config).Wf :=
  fun h => absurd (h.native .user) (by decide)
theorem test_cfg_wf_refuses_wide_frame : ¬ ({ cfg16 with frameHyp := .w8 } : Config).Wf :=
  fun h => absurd (h.frame .hyp) (by decide)
theorem test_cfg_wf_refuses_narrow_tmv : ¬ ({ cfg16 with tmvBits := 7 } : Config).Wf := fun h => absurd h.tmvBits (by decide)
theorem test_cfg_wf_refuses_wide_reset_base : ¬ ({ cfg16 with abrReset := 0x10000 } : Config).Wf :=
  fun h => absurd h.resets (by decide)

/-! ### Encodings, bit by bit from 30_encoding.md -/

/-- BRK is $00, RTI $40, CLI $58, SEI $78 (R45), under the opcodes of `State.reset` too. -/
theorem test_decode_brk : decodeTableWord 8 0b00000000 = some .brk := by decide
theorem test_decode_rti : decodeTableWord 8 0b01000000 = some .rti := by decide
theorem test_decode_cli : decodeTableWord 8 0b01011000 = some .cli := by decide
theorem test_decode_sei : decodeTableWord 8 0b01111000 = some .sei := by decide
/-- Format F1: the operand byte follows the opcode (R42, R43). -/
theorem test_decode_trap : decode opcodes [0x02, 0b00001111, 0xEA] = .ok (.trap 15) [0xEA] := by decide
theorem test_decode_rtu : decode opcodes [0x12] = .ok .rtu [] := by decide
/-- Format F2: the low operand byte first (R42, R44); `JPU ($FFFC)` is the opcode, FC, FF (95_test_vectors.md S7). -/
theorem test_decode_jpu_abs : decode opcodes [0x22, 0x00, 0x40] = .ok (.jpuAbs 0x4000) [] := by decide
theorem test_decode_jpu_ind : decode opcodes [0x32, 0xFC, 0xFF] = .ok (.jpuInd 0xFFFC) [] := by decide
theorem test_decode_short : decode opcodes [0x22, 0x00] = .short := by decide
theorem test_decode_undefined : decode opcodes [0xEA] = .undefined := by decide

/-! ### Vectors of 95_test_vectors.md -/

/-- A10 and A9: the low nine bits of TBR are masked off. -/
theorem test_trap_vector_addr : ({ st with tbr := 0x41FF } : State).trapVectorAddr 0x01 = 0x4002 := by decide
/-- A7, MAXTRAP. -/
theorem test_abort_vector_addr : ({ st with abr := 0xC000 } : State).abortVectorAddr 7 = 0xC0F0 := by decide
/-- A4 at 64 bits. -/
theorem test_int_vector_addr : ({ st with cfg := cfg64, ibr := 0x12300 } : State).intVectorAddr 3 = 0x12306 := by decide
/-- A11, A12 and A14, A15. -/
theorem test_sign_extend : cfg64.signExtend 0x8000 = 0xFFFFFFFFFFFF8000 ∧ cfg64.signExtend 0x7FFF = 0x7FFF := by decide
theorem test_augment : cfg64.augment 0x12300 0x8000 = 0x18000
    ∧ cfg64.augment 0xFFFFFFFFFFFFFF00 0x1234 = 0xFFFFFFFFFFFF1234 := by decide

/-- B2: TRAP #$02 from user mode through the table. -/
theorem test_trap_b2 :
    goesTo (exec (.trap 2) { us with p := pOf 0x03, tbr := 0xFE00, tbrActive := true, mem := memory [(0xFE05, 0xE0)] })
      (fun t => bytesAt t 0x01EE 3 == [0x80, 0x02, 0x20] && t.spHyp == 0x01ED && t.spUser == 0x01E0 && t.mode == .hyp
        && t.pc == 0xE000 && t.p == pOf 0x03) := by decide

/-- B5: TRAP #$03 at 64 bits. -/
theorem test_trap_b5 :
    goesTo (exec (.trap 3) { us with cfg := cfg64, spHyp := 0x02F0, tmv := 0x10, tbr := 0xFFFFFFFFFFFFFE00, tbrActive := true,
                                     mem := memory [(0xFFFFFFFFFFFFFE06, 0x34), (0xFFFFFFFFFFFFFE07, 0x12)] })
      (fun t => bytesAt t 0x02E8 9 == [0x82, 0x02, 0x20, 0, 0, 0, 0, 0, 0] && t.spHyp == 0x02E7 && t.mode == .hyp
        && t.pc == 0xFFFFFFFFFFFF1234) := by decide

/-- C2: BRK in user mode, with the abort table ignored. -/
theorem test_brk_c2 :
    goesTo (exec .brk { us with pc := 0x3000, p := pOf 0x03, abr := 0xC000, abrActive := true, mem := memory [(0xFFFF, 0x40)] })
      (fun t => bytesAt t 0x01DE 3 == [0x33, 0x02, 0x30] && t.spUser == 0x01DD && t.spHyp == 0x01F0 && t.pc == 0x4000
        && t.mode == .user) := by decide

/-- C3: BRK in hypervisor mode with the abort table at 64 bits: augmentation, not sign extension. -/
theorem test_brk_c3 :
    goesTo (exec .brk { st with cfg := cfg64, pc := 0x10000, spHyp := 0x02F0, abr := 0x12300, abrActive := true,
                                mem := memory [(0x123FF, 0x90)] })
      (fun t => bytesAt t 0x02E8 9 == [0x30, 0x02, 0x00, 0x01, 0, 0, 0, 0, 0] && t.spHyp == 0x02E7 && t.pc == 0x19000) := by
  decide

/-- D2 and D5: RTI, extended frame back to user mode, with the interrupt flag from the frame. -/
theorem test_rti_d5 :
    goesTo (exec .rti { st with spHyp := 0x01EC, p := pOf 0x80, eim := .entered .clear 2,
                                mem := memory [(0x01ED, 0x07), (0x01EE, 0x80), (0x01EF, 0x02), (0x01F0, 0x20)] })
      (fun t => t.spHyp == 0x01F0 && t.p == pOf 0x07 && t.mode == .user && t.pc == 0x2002 && t.eim == .clear
        && t.spUser == 0x01E0) := by decide

/-- D8: RTI, a four-byte extended frame on a 64-bit processor, sign-extended. -/
theorem test_rti_d8 :
    goesTo (exec .rti { st with cfg := cfg64, spHyp := 0x02E0,
                                mem := memory [(0x02E2, 0x81), (0x02E4, 0x80), (0x02E5, 0xFF), (0x02E6, 0xFF)] })
      (fun t => t.pc == 0xFFFFFFFFFFFF8000 && t.spHyp == 0x02E6 && t.mode == .user) := by decide

/-- E1: RTU to user mode at 64 bits; the status register and EIM stay. -/
theorem test_rtu_e1 :
    goesTo (exec .rtu { st with cfg := cfg64, spHyp := 0x01F6, p := pOf 0x81, eim := .written 7,
                                mem := memory [(0x01F7, 0x82), (0x01F8, 0x02), (0x01F9, 0x20)] })
      (fun t => t.spHyp == 0x01FF && t.mode == .user && t.pc == 0x2002 && t.p == pOf 0x81 && t.eim == .written 7) := by decide

/-- G4: RTU in user mode, PRIVOP through the abort table. -/
theorem test_rtu_g4 :
    goesTo (exec .rtu { us with pc := 0x2100, abr := 0xFF00, abrActive := true, mem := memory [(0xFFF3, 0xB2)] })
      (fun t => bytesAt t 0x01ED 4 == [0x00, 0x80, 0x00, 0x21] && t.pc == 0xB200 && t.spHyp == 0x01EC && t.spUser == 0x01E0
        && t.mode == .hyp) := by decide

/-- J2 and J1: the two forms of JPU. -/
theorem test_jpu_abs_j2 : goesTo (exec (.jpuAbs 0x4000) st) (fun t => t == { st with mode := .user, pc := 0x4000 }) := by decide
theorem test_jpu_ind_j1 :
    goesTo (exec (.jpuInd 0xFFFC) { st with mem := memory [(0xFFFD, 0xC0)] })
      (fun t => t.mode == .user && t.pc == 0xC000 && t.spHyp == st.spHyp && t.spUser == st.spUser) := by decide

/-- J5 and J6: SEI and CLI, run by a step. -/
theorem test_sei_j5 :
    goesTo (step (st.withFetchWord 8 0x78)) (fun t => t.p == pOf 0x04 && t.pc == 0x8001 && t.eim == st.eim) := by decide
theorem test_cli_j6 :
    goesTo (step (({ st with pc := 0x9000, p := pOf 0x04, eim := .entered .clear 3 } : State).withFetchWord 8 0x58))
      (fun t => t.p == pOf 0x00 && t.eim == .clear && t.pc == 0x9001) := by decide

/-- I1: a maskable interrupt through the legacy vector, taken by a step. -/
theorem test_interrupt_i1 :
    goesTo (step { st with p := pOf 0x81, inputs := [.lines [3]], mem := memory [(0xFFFF, 0x90)] })
      (fun t => bytesAt t 0x01ED 4 == [0x81, 0x00, 0x00, 0x80] && t.spHyp == 0x01EC && t.eim.cause == some 3
        && t.pc == 0x9000 && t.p == pOf 0x81) := by decide

/-- F4 and F9: the NMI passes the flag; the lower number is taken first. -/
theorem test_accept_f4 : ({ st with p := pOf 0x04, lines := [3, 0] } : State).nextInterrupt = some 0 := by decide
theorem test_accept_f9 : ({ st with lines := [5, 2] } : State).nextInterrupt = some 2 := by decide
/-- F6 and F7: with the flag set in user mode UIM decides. -/
theorem test_accept_f6 : ({ us with p := pOf 0x04, lines := [3] } : State).nextInterrupt = some 3 := by decide
theorem test_accept_f7 :
    ({ us with cfg := { cfg16 with uimMask := .rows [⟨9, some 9, 3, 3⟩] }, uim := 9, p := pOf 0x04, lines := [3] }
      : State).nextInterrupt = none := by decide

/-- Every non-clear EIM holds off every interrupt but the NMI (10_state.md R16 (b)). -/
def cfgShield : Config := { cfg16 with eimMask := .rows [⟨1, none, 1, 127⟩] }

/-- EIM is a level mask, a lower number being a higher level: it holds off the interrupt it tells of and those below it. -/
def cfgLevels : Config :=
  { cfg16 with eimMask := .rows ((List.range 7).map fun k => ⟨k + 2, some (k + 2), k + 1, 127⟩) }

/-- R16 (b), however deep the entries nest: nothing but the NMI comes in until EIM is clear. -/
theorem test_eim_shields (prev : EimVal) (n : Nat) :
    cfgShield.eimBlocks (.entered prev n) 5 = true ∧ cfgShield.eimBlocks (.entered prev n) 0 = false
      ∧ cfgShield.eimBlocks .clear 5 = false := by
  simp [Config.eimBlocks, EimEntry.next, cfgShield, cfg16, implementation, IntMask.blocks, MaskRow.blocks]
/-- R16 (c): a level mask, whatever came before; the level of the latest entry decides. -/
theorem test_eim_levels (prev : EimVal) :
    cfgLevels.eimBlocks (.entered prev 3) 3 = true ∧ cfgLevels.eimBlocks (.entered prev 3) 5 = true
      ∧ cfgLevels.eimBlocks (.entered prev 3) 2 = false := ⟨rfl, rfl, rfl⟩
/-- R75 and R81: inside two nested handlers a higher level is taken, a lower one waits. -/
theorem test_accept_nested :
    ({ st with cfg := cfgLevels, eim := .entered (.entered .clear 5) 3, lines := [4, 2] } : State).nextInterrupt = some 2
      ∧ ({ st with cfg := cfgLevels, eim := .entered (.entered .clear 5) 3, lines := [4] } : State).nextInterrupt = none := by
  decide
/-- EIM collects the interrupts entered and blocks each of them until it is cleared. -/
theorem test_eim_collects (n : Nat) (prev : EimVal) :
    ({ cfg16 with eimEntry := .collect, eimMask := .bits } : Config).eimBlocks (.entered prev n) n = true := by
  simp [Config.eimBlocks, EimEntry.next, IntMask.blocks]

/-- G1: MAXTRAP through the abort table. -/
theorem test_maxtrap_g1 :
    goesTo (exec (.trap 9) { us with abr := 0xFF00, abrActive := true, mem := memory [(0xFFF1, 0xB0)] })
      (fun t => bytesAt t 0x01ED 4 == [0x00, 0x80, 0x00, 0x20] && t.pc == 0xB000 && t.spHyp == 0x01EC) := by decide

/-- G2: PRIVRTI through the abort table, nothing of the forged frame committed. -/
theorem test_privrti_g2 :
    goesTo (exec .rti { us with pc := 0x5000, spUser := 0x01DD, p := pOf 0x01, abr := 0xFF00, abrActive := true,
                                mem := memory [(0xFFF5, 0xD0)] })
      (fun t => bytesAt t 0x01ED 4 == [0x01, 0x80, 0x00, 0x50] && t.pc == 0xD000 && t.spUser == 0x01DD) := by decide

/-- R79 item 1: a reset in the middle of the BRK of C2, after one of its three stores, keeps that byte alone. -/
theorem test_reset_within_brk :
    goesTo (step { us with pc := 0x3000, inputs := [.resetWithin 1], mem := memory [(0xFFFD, 0x80)] })
      (fun t => bytesAt t 0x01DE 3 == [0x00, 0x00, 0x30] && t.spUser == 0x0100 && t.pc == 0x8000 && t.mode == .hyp) := by decide

/-- P4: the reset stack under both readings of SP_WRAP. -/
theorem test_reset_stack_page :
    goesTo (raiseAbort .maxtrap { st with cfg := { cfg16 with spWrap := .page }, spHyp := 0x0100, mem := memory [(0xFFF9, 0xB0)] })
      (fun t => t.spHyp == 0x01FC && t.peek 0x0100 == 0x80 && t.pc == 0xB000) := by decide

/-- K2: the reset vector at 32 bits. -/
theorem test_reset_k2 :
    goesTo (step { st with cfg := { cfg16 with addrWidth := .bits32 }, inputs := [.reset], mem := memory [(0xFFFFFFFD, 0x80)] })
      (fun t => t.pc == 0xFFFF8000 && t.spHyp == 0x0100 && t.mode == .hyp) := by decide

/-! ### Witnesses: for each statement with hypotheses, states and operands that meet them

A statement without hypotheses has no witness. `test_opcodes_wf`, `test_esr_wf` and `test_cfg16_wf` are the witnesses of the
statements that only ask for a well-formed table, layout or set of parameters. -/

/-- A rule of the translation table that maps one byte, the pages aside, to an abort. -/
def hole (m : Mode) (k : Access) (a : Nat) (c : AbortCause) : TransRule :=
  { mode := m, kind := k, lo := a, hi := a, result := .abort c }

/-- Every access answers the address itself. -/
def identityRules : List TransRule :=
  [Mode.hyp, .user].flatMap fun m => [Access.read, .write, .fetch].map fun k =>
    { mode := m, kind := k, lo := 0, hi := 0xFFFF, result := .offset 0 }

/-- A 16-bit processor with translation, which answers the address itself but where the given rules abort. -/
def cfgX (holes : List TransRule) : Config :=
  { cfg16 with hasTranslation := true, translation := holes ++ identityRules }

/-- `st` with that translation on. -/
def stX (holes : List TransRule) : State := { st with cfg := cfgX holes, xlateOn := true }

/-- `us` with that translation on. -/
def usX (holes : List TransRule) : State := { us with cfg := cfgX holes, xlateOn := true }

/-- A processor without the supervisor feature. -/
def cfgOne : Config := { cfg16 with hasSupervisor := false }

/-- Opcodes of two bytes. -/
def opcodes2 : OpcodeTable := { opcodes with trap := [0x42, 0x01], rtu := [0x42, 0x02] }

/-- A run of pushes is done. -/
def done (p : Pushed) : Bool :=
  match p with
  | .done _ => true
  | .aborted _ _ => false

/-- A run of pushes meets this abort. -/
def abortsWith (c : AbortCause) (p : Pushed) : Bool :=
  match p with
  | .done _ => false
  | .aborted d _ => d == c

theorem st_inv : st.Inv :=
  ⟨test_cfg16_wf, by decide, by decide, by decide, by decide, by decide, by decide, by decide, by decide, by decide, by decide⟩

theorem us_inv : us.Inv :=
  ⟨test_cfg16_wf, by decide, by decide, by decide, by decide, by decide, by decide, by decide, by decide, by decide, by decide⟩

theorem test_witness_DecodeOfEncode :
    ∀ i ∈ [Instr.brk, .rti, .cli, .sei, .trap 0xFF, .rtu, .jpuAbs 0xFFFF, .jpuInd 0], i.wf opcodes ∧ i.wf opcodes2 := by decide
theorem test_witness_EncodeOfDecode : decode opcodes2 [0x42, 0x01, 0xFF, 0x00] = .ok (.trap 0xFF) [0x00] := by decide
theorem test_witness_PartOfEncodingIsShort :
    (Instr.jpuInd 0x1234).wf opcodes ∧ 0 < (encode opcodes (.jpuInd 0x1234)).length
      ∧ 2 < (encode opcodes (.jpuInd 0x1234)).length := by decide

theorem test_witness_StepRunsDecodedInstruction :
    let s : State := { us with inputs := [.lines [9]], mem := memory [(0x2000, 0x02), (0x2001, 0x09)] };
    s.NoReset ∧ s.sampled.nextInterrupt = none ∧ s.sampled.inputs = [] ∧ (Instr.trap 9).wf s.cfg.opcodes
      ∧ ∀ (k : Nat) (h : k < (encode s.cfg.opcodes (.trap 9)).length),
          s.sampled.fetchByte k = .ok (encode s.cfg.opcodes (.trap 9))[k] := by decide

/-- One byte that no opcode begins, and two bytes of which the first begins an opcode. -/
theorem test_witness_UndefinedOpcodeIsRefused :
    (({ st with mem := memory [(0x8000, 0xEA)] } : State).fetchByte 0 = .ok 0xEA ∧ decode opcodes [0xEA] = .undefined)
    ∧ (let s : State := { st with cfg := { cfg16 with opcodes := opcodes2 }, mem := memory [(0x8000, 0x42), (0x8001, 0x07)] };
      s.nextInterrupt = none ∧ s.inputs = [] ∧ s.fetchByte 0 = .ok 0x42 ∧ s.fetchByte 1 = .ok 0x07
        ∧ decode s.cfg.opcodes [0x42] = .short ∧ decode s.cfg.opcodes [0x42, 0x07] = .undefined) := by decide

/-- The first byte aborts; the operand byte aborts. -/
theorem test_witness_FetchAbortIsTaken :
    ((stX [hole .hyp .fetch 0x8000 .noexec]).inputs = [] ∧ (stX [hole .hyp .fetch 0x8000 .noexec]).nextInterrupt = none
      ∧ (stX [hole .hyp .fetch 0x8000 .noexec]).fetchByte 0 = .error .noexec)
    ∧ (let s : State := { stX [hole .hyp .fetch 0x8001 .nomem] with mem := memory [(0x8000, 0x02)] };
      s.fetchByte 0 = .ok 0x02 ∧ decode s.cfg.opcodes [0x02] = .short ∧ s.fetchByte 1 = .error .nomem) := by decide

theorem test_witness_InterruptPrecedesInstruction :
    ({ st with inputs := [.lines [3]] } : State).NoReset
      ∧ ({ st with inputs := [.lines [3]] } : State).sampled.nextInterrupt = some 3 := by decide

/-- A reset at the boundary; one in the middle of the step, also with the lines sampled first, with as many bytes stored as
the TRAP stores, and one byte more. -/
theorem test_witness_ResetInputRestartsMachine :
    ({ st with inputs := [.reset] } : State).inputs = [.reset]
    ∧ ({ st with inputs := [.resetWithin 3, .reset] } : State).sampled.inputs = [.resetWithin 3, .reset]
    ∧ ({ st with inputs := [.lines [1], .resetWithin 3] } : State).sampled.inputs = [.resetWithin 3]
    ∧ ({ st with mem := memory [(0x8000, 0x02)] } : State).boundaryStores.length = 3
    ∧ goesTo (runBoundary { st with mem := memory [(0x8000, 0x02)] }) (fun t => t.mode == .hyp) := by decide

theorem test_witness_StepRunsConfigurationAction :
    let s : State := { st with inputs := [.lines [], .config (.write (.tmv 9)), .reset] };
    s.NoReset ∧ s.sampled.nextInterrupt = none ∧ s.sampled.inputs = [.config (.write (.tmv 9)), .reset] := by decide

/-- Values at the ends of the clauses: the top of a table's range, the greatest TMV, translation present. -/
theorem test_witness_ConfigurationActionsInHypervisorMode :
    st.mode = .hyp ∧ (cfg16.fits 0xFF00 ∧ (0xFF00 : Addr) &&& 0xFF = 0) ∧ (cfg16.fits 0xFE00 ∧ (0xFE00 : Addr) &&& 0x1FF = 0)
      ∧ 255 < 2 ^ cfg16.tmvBits ∧ (stX []).mode = .hyp ∧ (stX []).cfg.hasTranslation = true := by decide
theorem test_witness_ConfigurationActionsRefused :
    us.mode = .user ∧ st.mode = .hyp ∧ (0xFF01 : Addr) &&& 0xFF ≠ 0 ∧ (0xFF00 : Addr) &&& 0x1FF ≠ 0
      ∧ st.cfg.hasTranslation = false := by decide
theorem test_witness_BaseRegisterStaysActive :
    goesTo (step { st with inputs := [.config (.write (.ibr 0xFF00))], abrActive := true, tbrActive := true })
        (fun t => t.ibrActive && t.abrActive && t.tbrActive)
    ∧ goesTo (step { st with inputs := [.config (.write (.abr 0xFF00))] }) (fun t => t.abrActive)
    ∧ goesTo (step { st with inputs := [.config (.write (.tbr 0xFE00))] }) (fun t => t.tbrActive) := by decide

/-- The two ways agree for the spec's example base and a vector with bit 15 set. -/
theorem test_witness_SignExtendAndAugment :
    cfg16.addrWidth = .bits16
      ∧ ∀ k < cfg64.addrWidth.bits, 16 ≤ k → (0xFFFFFFFFFFFFFF00 : Addr).getLsbD k = (0x8000 : Half).getLsbD 15 := by decide
theorem test_witness_VectorsAreTwoBytes :
    st.readByte .phys 0xFFFC .read = .ok 0 ∧ st.readByte .phys (st.cfg.trunc (0xFFFC + 1)) .read = .ok 0
      ∧ ({ st with mem := memory [(0x10, 0x34)] } : State).readByte .user 0x10 .read = .ok 0x34 := by decide
/-- A pointer of eight bytes across the top of the address space, and a read whose second byte aborts. -/
theorem test_witness_ReadsOfSeveralBytes :
    cfg16.fits 0xFFFC
    ∧ ({ st with cfg := { cfg16 with jpuPtr := .w8 }, mem := memory [(0xFFFF, 0x34), (3, 0x12)] } : State).readBytes .user 8 0xFFFC
        = .ok [0, 0, 0, 0x34, 0, 0, 0, 0x12]
    ∧ (stX [hole .user .read 0xFFFD .privmem, hole .user .read 0xFFFE .nomem]).readBytes .user 4 0xFFFC = .error .privmem := by
  decide

theorem test_witness_InterruptVectorTable :
    let s : State := { st with ibr := 0xFF00, ibrActive := true, mem := memory [(0xFFFE, 0x34)] };
    s.cfg.fits s.ibr ∧ 127 < 128 ∧ s.readVector .hyp (s.intVectorAddr 127) = .ok 0x0034 := by decide
theorem test_witness_AbortVectorTable :
    let s : State := { st with abr := 0xC000, abrActive := true, mem := memory [(0xC0EE, 0x34), (0xC0FE, 0x12)] };
    s.cfg.fits s.abr ∧ s.mode = .hyp ∧ s.readVector .hyp (s.abortVectorAddr AbortCause.privmem.slot) = .ok 0x0034
      ∧ s.readVector .hyp (s.abortVectorAddr 0) = .ok 0x0012 := by decide
theorem test_witness_TrapVectorTable :
    let s : State := { st with tbr := 0xFE00, tbrActive := true, mem := memory [(0xFFFF, 0x34)] };
    s.cfg.fits s.tbr ∧ s.readVector .hyp (s.trapVectorAddr 0xFF) = .ok 0x3400 := by decide
theorem test_witness_LegacyVectors :
    (st.ibrActive = false ∧ st.abrActive = false ∧ st.tbrActive = false ∧ st.mode = .hyp)
      ∧ (∀ k ∈ [2, 6, 8, 10], st.readVector .hyp (st.cfg.negAddr k) = .ok 0)
      ∧ us.mode = .user ∧ us.readVector .user (us.cfg.negAddr 2) = .ok 0 := by decide

/-- With the table and without it. -/
theorem test_witness_AbortConditionShowsOnlyInVector :
    goesTo (raiseAbort .nomem us) (fun t => !t.abrActive)
    ∧ goesTo (raiseAbort .nomem { us with abr := 0xC000, abrActive := true }) (fun t => t.abrActive)
    ∧ goesTo (raiseAbort .wprot { us with abr := 0xC000, abrActive := true }) (fun t => t.abrActive) := by decide

theorem test_witness_SpacesAreOneWithoutTranslation : st.Flat ∧ ({ stX [] with xlateOn := false } : State).Flat := by decide
theorem test_witness_MemoryAbortsFitTheirAccess :
    (stX [hole .hyp .read 4 .nomem]).translate .hyp 4 .read = .error .nomem
      ∧ (stX [hole .hyp .write 4 .wprot]).translate .hyp 4 .write = .error .wprot
      ∧ (stX [hole .hyp .fetch 4 .noexec]).translate .hyp 4 .fetch = .error .noexec
      ∧ (stX [hole .user .read 4 .privmem]).translate .user 4 .read = .error .privmem := by decide
theorem test_witness_StackPointerWrap :
    cfg16.fits 0 ∧ cfg16.fits 0xFFFF ∧ cfg16.spWrap = .full ∧ ({ cfg16 with spWrap := .page } : Config).spWrap = .page := by decide
theorem test_witness_PushStoresBelowPointer :
    st.Flat ∧ st.cfg.fits (st.sp .hyp) ∧ st.mem.wf st.cfg.fill ∧ (List.replicate 256 (0x11 : Byte)).length ≤ 256 :=
  ⟨by decide, by decide, by decide, Nat.le_of_eq List.length_replicate⟩
theorem test_witness_PullInvertsPush :
    us.Flat ∧ us.cfg.fits (us.sp .user) ∧ us.mem.wf us.cfg.fill
      ∧ done (State.pushBytes .user (addressBytes .w8 0x8002) us) := by decide
theorem test_witness_AbortedPushKeepsEarlierBytes :
    abortsWith .wprot (State.pushBytes .hyp [1, 2, 3] (stX [hole .hyp .write 0x01EE .wprot])) := by decide

theorem test_witness_SeiSetsInterruptFlag :
    st.mode = .hyp ∧ us.mode = .user ∧ us.cfg.uimBlocks us.uim 7 = false := by decide
theorem test_witness_CliClearsFlagAndMask :
    7 ∈ ({ st with lines := [7] } : State).lines ∧ 7 < ({ st with lines := [7] } : State).cfg.numInt := by decide

theorem test_witness_TrapEntersHandler :
    (3 : Byte).toNat < us.tmv ∧ us.mem.wf us.cfg.fill ∧ us.CanPush .hyp ((us.cfg.frameWidth us.mode).bytes + 1)
      ∧ ∃ a, us.trapTarget 3 = .ok a :=
  ⟨by decide, by decide, State.canPush_of_flat (by decide) _ _, 0, by decide⟩
theorem test_witness_TrapNotAllowedAborts : st.tmv ≤ (4 : Byte).toNat ∧ us.tmv ≤ (0xFF : Byte).toNat := by decide
theorem test_witness_BrkEntersHandler :
    us.mem.wf us.cfg.fill ∧ us.CanPush us.mode ((us.cfg.nativeWidth us.mode).bytes + 1) ∧ (∃ a, us.brkTarget = .ok a)
      ∧ st.CanPush st.mode ((st.cfg.nativeWidth st.mode).bytes + 1) ∧ ∃ a, st.brkTarget = .ok a :=
  ⟨by decide, State.canPush_of_flat (by decide) _ _, ⟨0, by decide⟩, State.canPush_of_flat (by decide) _ _, ⟨0, by decide⟩⟩

/-- The second push of TRAP, its vector read, the second push of BRK and its vector read in user mode. -/
theorem test_witness_EntryInstructionMemoryAborts :
    (let s := usX [hole .hyp .write 0x01EF .wprot];
      (0 : Byte).toNat < s.tmv ∧ abortsWith .wprot (State.pushBytes .hyp (s.trapFrame (s.nextPc (.trap 0))) s))
    ∧ (let s := usX [hole .hyp .read 0xFFF7 .nomem];
      done (State.pushBytes .hyp (s.trapFrame (s.nextPc (.trap 0))) s) ∧ s.trapTarget 0 = .error .nomem)
    ∧ (let s := usX [hole .user .write 0x01DF .privmem];
      abortsWith .privmem (State.pushBytes s.mode (s.brkFrame s.brkReturn) s))
    ∧ (let s := usX [hole .user .read 0xFFFE .privmem];
      done (State.pushBytes s.mode (s.brkFrame s.brkReturn) s) ∧ s.brkTarget = .error .privmem) := by decide

theorem test_witness_RtiReturnsFromStandardFrame :
    let s : State := { us with mem := memory [(0x01E1, 0x20), (0x01E2, 0x34)] };
    s.pullBytes s.mode (1 + (s.cfg.nativeWidth s.mode).bytes) (s.sp s.mode) = .ok ([0x20, 0x34, 0x00], 0x01E3)
      ∧ (0x20 : Byte).getLsbD 5 = true ∧ (s.cfg.nativeWidth s.mode).bytes ≤ s.cfg.addrWidth.bytes := by decide

/-- A frame of the address's width in user mode, and one wider than an address in hypervisor mode. -/
theorem test_witness_RtiReturnsFromExtendedFrame :
    (let s : State := { us with mem := memory [(0x01E2, 0x80), (0x01E3, 0x34)] };
      s.cfg.esr.decodeWidth 0x80 = some .w2 ∧ s.pullBytes s.mode 4 (s.sp s.mode) = .ok ([0x00, 0x80, 0x34, 0x00], 0x01E4)
        ∧ s.cfg.esr.decodeMode 0x80 = .user ∧ s.cfg.hasSupervisor = true)
    ∧ (let s : State := { st with mem := memory [(0x01F2, 0x02)] };
      s.cfg.esr.decodeWidth 0x02 = some .w8
        ∧ s.pullBytes s.mode 10 (s.sp s.mode) = .ok ([0, 0x02, 0, 0, 0, 0, 0, 0, 0, 0], 0x01FA)
        ∧ s.cfg.esr.decodeMode 0x02 = .hyp ∧ s.cfg.addrWidth.bytes < FrameWidth.w8.bytes) := by decide
theorem test_witness_RtiCannotRaisePrivilege :
    us.mode = .user ∧ us.pullBytes .user 2 us.spUser = .ok ([0x00, 0x00], 0x01E2) ∧ (0 : Byte).getLsbD 5 = false
      ∧ us.cfg.esr.decodeMode 0x00 = .hyp := by decide

/-- An image that says user mode without the supervisor feature, and the width code 3, for RTI and for RTU. -/
theorem test_witness_ReturnsRefuseUnreadableImages :
    (let s : State := { st with cfg := cfgOne, mem := memory [(0x01F1, 0x80), (0x01F2, 0x80)] };
      s.pullBytes s.mode 2 (s.sp s.mode) = .ok ([0x80, 0x80], 0x01F2) ∧ (0x80 : Byte).getLsbD 5 = false
        ∧ s.pullBytes .hyp 1 s.spHyp = .ok ([0x80], 0x01F1) ∧ s.mode = .hyp ∧ s.cfg.hasSupervisor = false
        ∧ s.cfg.esr.decodeMode 0x80 = .user)
    ∧ (let s : State := { st with mem := memory [(0x01F1, 0x83), (0x01F2, 0x83)] };
      s.pullBytes s.mode 2 (s.sp s.mode) = .ok ([0x83, 0x83], 0x01F2) ∧ (0x83 : Byte).getLsbD 5 = false
        ∧ s.pullBytes .hyp 1 s.spHyp = .ok ([0x83], 0x01F1) ∧ s.cfg.hasSupervisor = true
        ∧ s.cfg.esr.decodeWidth 0x83 = none) := by decide

/-- Each pull of RTI and of RTU in turn meets an abort. -/
theorem test_witness_ReturnMemoryAbortsCommitNothing :
    (let s := stX [hole .hyp .read 0x01F1 .nomem];
      s.pullBytes s.mode 1 (s.sp s.mode) = .error .nomem ∧ s.mode = .hyp ∧ s.pullBytes .hyp 1 s.spHyp = .error .nomem)
    ∧ (let s : State := { stX [hole .hyp .read 0x01F3 .nomem] with mem := memory [(0x01F1, 0x20)] };
      s.pullBytes s.mode 1 (s.sp s.mode) = .ok ([0x20], 0x01F1) ∧ (0x20 : Byte).getLsbD 5 = true
        ∧ s.pullBytes s.mode (s.cfg.nativeWidth s.mode).bytes 0x01F1 = .error .nomem)
    ∧ (let s := stX [hole .hyp .read 0x01F2 .nomem];
      s.pullBytes s.mode 1 (s.sp s.mode) = .ok ([0x00], 0x01F1) ∧ s.pullBytes s.mode 1 0x01F1 = .error .nomem
        ∧ s.cfg.esr.decodeMode 0x00 = .hyp ∧ s.cfg.esr.decodeWidth 0x00 = some .w2
        ∧ s.pullBytes .hyp FrameWidth.w2.bytes 0x01F1 = .error .nomem)
    ∧ (let s := usX [hole .user .read 0x01E4 .privmem];
      let s : State := { s with mem := memory [(0x01E2, 0x80)] };
      s.pullBytes s.mode 2 (s.sp s.mode) = .ok ([0x00, 0x80], 0x01E2) ∧ s.cfg.esr.decodeMode 0x80 = .user
        ∧ s.cfg.hasSupervisor = true ∧ s.cfg.esr.decodeWidth 0x80 = some .w2
        ∧ s.pullBytes s.mode FrameWidth.w2.bytes 0x01E2 = .error .privmem) := by decide

/-- A frame of the address's width, and one wider than an address. -/
theorem test_witness_RtuReturnsFromTrapFrame :
    (let s : State := { st with mem := memory [(0x01F1, 0x80)] };
      s.mode = .hyp ∧ s.cfg.esr.decodeWidth 0x80 = some .w2 ∧ s.pullBytes .hyp 3 s.spHyp = .ok ([0x80, 0, 0], 0x01F3)
        ∧ s.cfg.hasSupervisor = true)
    ∧ (let s : State := { st with mem := memory [(0x01F1, 0x02)] };
      s.cfg.esr.decodeWidth 0x02 = some .w8 ∧ s.pullBytes .hyp 9 s.spHyp = .ok ([0x02, 0, 0, 0, 0, 0, 0, 0, 0], 0x01F9)
        ∧ s.cfg.esr.decodeMode 0x02 = .hyp ∧ s.cfg.addrWidth.bytes < FrameWidth.w8.bytes) := by decide
theorem test_witness_PrivilegedInstructionsAbortInUserMode : us.mode = .user ∧ us.cfg.hasSupervisor = true := by decide

theorem test_witness_JpuAbsEntersUserMode :
    st.cfg.hasSupervisor = true ∧ st.mode = .hyp ∧ st.cfg.addrWidth = .bits16 ∧ st.cfg.ext16 = .signExtend
      ∧ ({ cfg64 with ext16 := .zeroExtend } : Config).ext16 = .zeroExtend := by decide

/-- A pointer of the address's width, one wider, and one whose second byte aborts. -/
theorem test_witness_JpuIndEntersUserMode :
    (st.readBytes .user st.cfg.jpuPtr.bytes (st.cfg.extendOperand 0xFFFC) = .ok [0, 0]
      ∧ st.cfg.jpuPtr.bytes ≤ st.cfg.addrWidth.bytes)
    ∧ (let s : State := { st with cfg := { cfg16 with jpuPtr := .w8 } };
      s.readBytes .user s.cfg.jpuPtr.bytes (s.cfg.extendOperand 0xFFFC) = .ok [0, 0, 0, 0, 0, 0, 0, 0]
        ∧ s.cfg.addrWidth.bytes < s.cfg.jpuPtr.bytes ∧ s.mode = .hyp ∧ s.cfg.hasSupervisor = true)
    ∧ (let s := stX [hole .user .read 0xFFFD .privmem];
      s.readBytes .user s.cfg.jpuPtr.bytes (s.cfg.extendOperand 0xFFFC) = .error .privmem) := by decide
theorem test_witness_JpuRefusedWithoutSupervisor : ({ st with cfg := cfgOne } : State).cfg.hasSupervisor = false := by decide

theorem test_witness_AbortEntry :
    us.mem.wf us.cfg.fill ∧ us.CanPush .hyp ((us.cfg.frameWidth us.mode).bytes + 2) ∧ ∃ a, us.abortTarget .nomem = .ok a :=
  ⟨by decide, State.canPush_of_flat (by decide) _ _, 0, by decide⟩
theorem test_witness_InterruptEntry :
    us.mem.wf us.cfg.fill ∧ us.CanPush .hyp ((us.cfg.frameWidth us.mode).bytes + 2) ∧ ∃ a, us.interruptTarget 7 = .ok a :=
  ⟨by decide, State.canPush_of_flat (by decide) _ _, 0, by decide⟩

/-- The last push aborts; the vector reads abort with the pushes done. -/
theorem test_witness_AbortInsideEntryFaults :
    (¬ (stX [hole .hyp .write 0x01ED .wprot]).CanPush .hyp 4)
    ∧ (let s := stX [hole .hyp .read 0xFFF8 .nomem, hole .hyp .read 0xFFFA .nomem];
      s.CanPush .hyp ((s.cfg.frameWidth s.mode).bytes + 2) ∧ s.abortTarget .maxtrap = .error .nomem
        ∧ s.interruptTarget 0 = .error .nomem) :=
  ⟨fun h => by obtain ⟨pa, h⟩ := h 3 (by decide); revert h; simp only [show (stX [hole .hyp .write 0x01ED .wprot]).translate
      Mode.hyp.space ((stX [hole .hyp .write 0x01ED .wprot]).cfg.decSpN 3 ((stX [hole .hyp .write 0x01ED .wprot]).sp .hyp)) .write
      = .error .wprot by decide]; simp,
    fun k hk => match k, hk with
      | 0, _ => ⟨0x01F0, by decide⟩
      | 1, _ => ⟨0x01EF, by decide⟩
      | 2, _ => ⟨0x01EE, by decide⟩
      | 3, _ => ⟨0x01ED, by decide⟩
      | k + 4, h => absurd (show k + 4 < 4 from h) (by omega),
    by decide, by decide⟩

/-- The state after, where there is one. -/
def after (o : Host.Outcome State Fault Refusal) : State :=
  match o with
  | .next t => t
  | .fault _ => st
  | .refused _ => st

theorem eq_next_after {o : Host.Outcome State Fault Refusal} (h : goesTo o (fun _ => true) = true) : o = .next (after o) := by
  cases o with
  | next _ => rfl
  | fault _ => exact Bool.noConfusion h
  | refused _ => exact Bool.noConfusion h

/-- What a handler may have made of a state, in hypervisor mode: other registers, the same memory and stack pointer. -/
def handled (t : State) : State := { t with pc := 0x9000, p := pOf 0x81, spUser := 0x0300, esrOther := 5, eim := .written 3 }

/-- The interrupted program counter is the sign extension of what is stacked, at the top of the address space too. -/
theorem test_witness_RtiResumesInterrupted :
    us.Inv ∧ us.Flat ∧ takeInterrupt 3 us = .next (after (takeInterrupt 3 us))
      ∧ us.pc = us.cfg.trunc ((us.cfg.frameWidth us.mode).signExtend us.pc)
      ∧ 0xFFFF = us.cfg.trunc ((us.cfg.frameWidth us.mode).signExtend 0xFFFF)
      ∧ (handled (after (takeInterrupt 3 us))).cfg = us.cfg ∧ (handled (after (takeInterrupt 3 us))).Flat
      ∧ (handled (after (takeInterrupt 3 us))).mode = .hyp
      ∧ (handled (after (takeInterrupt 3 us))).spHyp = (after (takeInterrupt 3 us)).spHyp
      ∧ (after (takeInterrupt 3 us)).SameMemory (handled (after (takeInterrupt 3 us))) :=
  ⟨us_inv, by decide, eq_next_after (by decide), by decide, by decide, rfl, rfl, rfl, rfl, fun _ => rfl⟩
theorem test_witness_RtuResumesTrapped :
    us.Inv ∧ us.Flat ∧ (3 : Byte).toNat < us.tmv ∧ exec (.trap 3) us = .next (after (exec (.trap 3) us))
      ∧ us.nextPc (.trap 3) = us.cfg.trunc ((us.cfg.frameWidth us.mode).signExtend (us.nextPc (.trap 3)))
      ∧ (handled (after (exec (.trap 3) us))).cfg = us.cfg ∧ (handled (after (exec (.trap 3) us))).Flat
      ∧ (handled (after (exec (.trap 3) us))).mode = .hyp
      ∧ (handled (after (exec (.trap 3) us))).spHyp = (after (exec (.trap 3) us)).spHyp
      ∧ (after (exec (.trap 3) us)).SameMemory (handled (after (exec (.trap 3) us))) :=
  ⟨us_inv, by decide, by decide, eq_next_after (by decide), by decide, rfl, rfl, rfl, rfl, fun _ => rfl⟩
theorem test_witness_RtiReturnsFromBrk :
    st.Inv ∧ st.Flat ∧ exec .brk st = .next (after (exec .brk st))
      ∧ st.brkReturn = st.cfg.trunc ((st.cfg.nativeWidth st.mode).signExtend st.brkReturn)
      ∧ (handled (after (exec .brk st))).cfg = st.cfg ∧ (handled (after (exec .brk st))).Flat
      ∧ (handled (after (exec .brk st))).mode = st.mode
      ∧ (handled (after (exec .brk st))).sp st.mode = (after (exec .brk st)).sp st.mode
      ∧ (after (exec .brk st)).SameMemory (handled (after (exec .brk st))) :=
  ⟨st_inv, by decide, eq_next_after (by decide), by decide, rfl, rfl, rfl, rfl, fun _ => rfl⟩

theorem test_witness_StepKeepsLegality : st.Inv ∧ goesTo (step st) (fun t => t.pc == 0) := ⟨st_inv, by decide⟩

/-- From user mode by an interrupt, by an abort and by a TRAP; to user mode by JPU, RTU and RTI; BRK, and a BRK that is
aborted; reset, at the boundary and in the middle of a step. -/
theorem test_witness_WaysBetweenModes :
    goesTo (step { us with inputs := [.lines [3]] }) (fun t => t.mode == .hyp)
    ∧ goesTo (step { us with mem := memory [(0x2000, 0x12)] }) (fun t => t.mode == .hyp)
    ∧ goesTo (step { us with mem := memory [(0x2000, 0x02), (0x2001, 0x03)] }) (fun t => t.mode == .hyp)
    ∧ goesTo (step { st with mem := memory [(0x8000, 0x32)] }) (fun t => t.mode == .user)
    ∧ goesTo (step { st with mem := memory [(0x01F1, 0x80), (0x8000, 0x12)] }) (fun t => t.mode == .user)
    ∧ goesTo (step { st with mem := memory [(0x01F2, 0x80), (0x8000, 0x40)] }) (fun t => t.mode == .user)
    ∧ (us.NoReset ∧ us.nextInterrupt = none ∧ us.inputs = [] ∧ us.sampled.fetchInstr = .instr .brk
      ∧ goesTo (step us) (fun t => t.mode == .user))
    ∧ ((usX [hole .user .write 0x01DF .privmem]).sampled.fetchInstr = .instr .brk
      ∧ goesTo (step (usX [hole .user .write 0x01DF .privmem])) (fun t => t.mode == .hyp))
    ∧ goesTo (step { us with inputs := [.reset] }) (fun t => t.mode == .hyp)
    ∧ (¬ ({ us with inputs := [.resetWithin 2] } : State).NoReset
      ∧ goesTo (step { us with inputs := [.resetWithin 2] }) (fun t => t.mode == .hyp)) := by decide
theorem test_witness_UserModeCannotConfigure :
    us.mode = .user ∧ us.NoReset ∧ goesTo (step us) (fun t => t.mode == .user) := by decide

/-- Each instruction that leaves the status register or EIM alone, and both entries, answer a next state; a step changes the
status register, and steps change EIM in each of the three ways. -/
theorem test_witness_WritersOfStatusAndMask :
    (∀ i ∈ [Instr.brk, .trap 3, .jpuAbs 0x4000, .jpuInd 0xFFFC, .rtu], goesTo (exec i st) fun _ => true)
    ∧ goesTo (raiseAbort .nomem st) (fun _ => true) ∧ goesTo (takeInterrupt 0 st) (fun _ => true)
    ∧ (st.NoReset ∧ goesTo (step (st.withFetchWord 8 0x78)) fun t => t.p != st.p)
    ∧ goesTo (step { st with inputs := [.lines [3]] }) (fun t => t.eim != st.eim)
    ∧ goesTo (step { st with inputs := [.config (.write (.eim (.written 5)))] }) (fun t => t.eim != st.eim)
    ∧ goesTo (step (({ st with eim := .written 5 } : State).withFetchWord 8 0x58)) (fun t => t.eim == .clear) := by decide
theorem test_witness_OtherRegistersAreOpaque :
    (st.NoReset ∧ goesTo (step st) fun _ => true)
    ∧ (¬ ({ st with inputs := [.reset] } : State).NoReset
      ∧ goesTo (step { st with inputs := [.reset], other := [1, 2] }) fun t => t.other == [0, 0])
    ∧ (¬ ({ st with inputs := [.resetWithin 1] } : State).NoReset
      ∧ goesTo (step { st with inputs := [.resetWithin 1], other := [1, 2] }) fun t => t.other == [0, 0]) := by decide
theorem test_witness_ParametersNeverChange : st.Reaches st := .refl

end Sys2Proof.Tests
end

/-! PROOF. A property of states that survives each kind of write that instructions and entries make survives every
instruction and both entries: so do the legality of the state, the active flags and whatever else is not written. -/

namespace Sys2Proof

/-! ### Which instructions write the status register and EIM -/

/-- The instructions that write the status register (10_state.md R9). -/
def Instr.writesStatus (c : Config) : Instr → Bool
  | .sei => true
  | .cli => true
  | .rti => true
  | .brk => c.brkSetsI
  | .trap _ => false
  | .rtu => false
  | .jpuAbs _ => false
  | .jpuInd _ => false

/-- The instructions that write EIM (10_state.md R16). -/
def Instr.writesMask : Instr → Bool
  | .cli => true
  | .rti => true
  | .brk => false
  | .sei => false
  | .trap _ => false
  | .rtu => false
  | .jpuAbs _ => false
  | .jpuInd _ => false

theorem Instr.writesStatus_iff (c : Config) (i : Instr) :
    i.writesStatus c = true ↔ i = .sei ∨ i = .cli ∨ i = .rti ∨ (i = .brk ∧ c.brkSetsI = true) := by
  cases i <;> simp [Instr.writesStatus]

theorem Instr.writesMask_iff (i : Instr) : i.writesMask = true ↔ i = .cli ∨ i = .rti := by
  cases i <;> simp [Instr.writesMask]

/-! ### Values that are `ADDR_BITS` wide -/

theorem Config.fits_extendOperand (c : Config) (operand : Half) : c.fits (c.extendOperand operand) := by
  have hzero : c.fits (operand.setWidth 64) := by
    refine Config.fits_of_lt ?_
    rw [BitVec.toNat_setWidth]
    omega
  unfold Config.extendOperand
  split
  · exact hzero
  · exact c.fits_signExtend operand
  · exact hzero
  · exact c.fits_trunc _

end Sys2Proof

namespace Sys2Proof.Machine

/-! ### The targets of vectors are `ADDR_BITS` wide -/

theorem State.fits_tableTarget {s : State} {base va a : Addr} (h : s.tableTarget base va = .ok a) : s.cfg.fits a := by
  unfold State.tableTarget at h
  split at h
  · cases h
  · cases h; exact Config.fits_augment _ _ _

theorem State.fits_legacyTarget {s : State} {sp : Space} {k : Nat} {a : Addr} (h : s.legacyTarget sp k = .ok a) :
    s.cfg.fits a := by
  unfold State.legacyTarget at h
  split at h
  · cases h
  · cases h; exact Config.fits_signExtend _ _

theorem State.fits_interruptTarget {s : State} {n : Nat} {a : Addr} (h : s.interruptTarget n = .ok a) : s.cfg.fits a := by
  unfold State.interruptTarget at h
  split at h
  · exact State.fits_tableTarget h
  · split at h
    · exact State.fits_legacyTarget h
    · exact State.fits_legacyTarget h

theorem State.fits_abortTarget {s : State} {c : AbortCause} {a : Addr} (h : s.abortTarget c = .ok a) : s.cfg.fits a := by
  unfold State.abortTarget at h
  split at h
  · exact State.fits_tableTarget h
  · exact State.fits_legacyTarget h

theorem State.fits_trapTarget {s : State} {n : Byte} {a : Addr} (h : s.trapTarget n = .ok a) : s.cfg.fits a := by
  unfold State.trapTarget at h
  split at h
  · exact State.fits_tableTarget h
  · exact State.fits_legacyTarget h

theorem State.fits_brkTarget {s : State} {a : Addr} (h : s.brkTarget = .ok a) : s.cfg.fits a := by
  unfold State.brkTarget at h
  split at h
  · split at h
    · exact State.fits_tableTarget h
    · exact State.fits_legacyTarget h
  · exact State.fits_legacyTarget h

/-! ### The temporary stack pointer of a return is `ADDR_BITS` wide -/

theorem State.fits_pullByte {s : State} {m : Mode} {a sp : Addr} {b : Byte} (h : s.pullByte m a = .ok (b, sp))
    (ha : s.cfg.fits a) : s.cfg.fits sp := by
  unfold State.pullByte at h
  split at h
  · cases h
  · cases h; exact Config.fits_incSp ha

theorem State.fits_pullValue {s : State} {m : Mode} {w : FrameWidth} {a v sp : Addr} (h : s.pullValue m w a = .ok (v, sp))
    (ha : s.cfg.fits a) : s.cfg.fits sp := by
  unfold State.pullValue at h
  split at h
  · cases h
  · next hp =>
    cases h
    obtain ⟨-, hsp, -⟩ := State.pullBytes_ok hp
    exact hsp ▸ Config.fits_incSpN ha _

/-! ### Properties of every state that a computation answers -/

/-- Every state that a run of pushes leaves, done or aborted, has the property. -/
def Pushed.All (P : State → Prop) : Pushed → Prop
  | .done s => P s
  | .aborted _ s => P s

/-- Every state that an instruction itself comes to, complete or aborted, has the property. -/
def Effect.All (P : State → Prop) : Effect → Prop
  | .next s => P s
  | .abort _ s => P s
  | .refused _ => True

theorem Effect.all_of_cases {P : State → Prop} {e : Effect} (hn : ∀ t, e = .next t → P t)
    (ha : ∀ c t, e = .abort c t → P t) : e.All P := by
  cases e with
  | next t => exact hn t rfl
  | abort c t => exact ha c t rfl
  | refused r => trivial

theorem orAbort_all {P : State → Prop} {s : State} {r : Except AbortCause Addr} {k : Addr → Effect} (hs : P s)
    (hk : ∀ a, r = .ok a → (k a).All P) : (orAbort s r k).All P := by
  cases r with
  | error c => exact hs
  | ok a => exact hk a rfl

theorem pushOrAbort_all {P : State → Prop} {m : Mode} {frame : List Byte} {s : State} {k : State → Effect}
    (hp : (State.pushBytes m frame s).All P) (hk : ∀ s1, P s1 → (k s1).All P) : (pushOrAbort m frame s k).All P := by
  unfold pushOrAbort
  split
  · next h => rw [h] at hp; exact hp
  · next h => rw [h] at hp; exact hk _ hp

/-! ### Properties that survive the writes -/

/-- The property survives each write that instructions and entries make to anything but the status register and EIM: an
`ADDR_BITS`-wide program counter, a mode that the processor has, a stack pointer no wider than the one before, a byte of
memory inside the address space, the other bits of ESR, and the count of free values. -/
structure Survives (P : State → Prop) : Prop where
  pc : ∀ {u a}, P u → u.cfg.fits a → P { u with pc := a }
  mode : ∀ {u m}, P u → (m = .user → u.cfg.hasSupervisor = true) → P { u with mode := m }
  sp : ∀ {u m a}, P u → (u.cfg.fits (u.sp m) → u.cfg.fits a) → P (u.setSp m a)
  poke : ∀ {u a b}, P u → u.cfg.fits a → P (u.poke a b)
  esrOther : ∀ {u o}, P u → P { u with esrOther := o }
  draws : ∀ {u n}, P u → P { u with draws := n }

/-- The property survives each write of the status register that the instruction makes. -/
abbrev SurvivesStatus (P : State → Prop) (i : Instr) : Prop :=
  ∀ {u} (x), i.writesStatus u.cfg = true → P u → P { u with p := x }

/-- The property survives each write of EIM. -/
abbrev SurvivesMask (P : State → Prop) : Prop := ∀ {u} (e), P u → P { u with eim := e }

/-- A piece of the state that depends on nothing these writes reach keeps its value. -/
theorem Survives.of_unwritten {α : Type} (f : State → α)
    (hf : ∀ (u : State) pc mode spHyp spUser esrOther mem draws,
      f { u with pc, mode, spHyp, spUser, esrOther, mem, draws } = f u) (x : α) : Survives (fun u => f u = x) where
  pc {u a} h _ := (hf u a u.mode u.spHyp u.spUser u.esrOther u.mem u.draws).trans h
  mode {u m} h _ := (hf u u.pc m u.spHyp u.spUser u.esrOther u.mem u.draws).trans h
  sp {u m a} h _ := by
    cases m with
    | hyp => exact (hf u u.pc u.mode a u.spUser u.esrOther u.mem u.draws).trans h
    | user => exact (hf u u.pc u.mode u.spHyp a u.esrOther u.mem u.draws).trans h
  poke {u a b} h _ := (hf u u.pc u.mode u.spHyp u.spUser u.esrOther (u.poke a b).mem u.draws).trans h
  esrOther {u o} h := (hf u u.pc u.mode u.spHyp u.spUser o u.mem u.draws).trans h
  draws {u n} h := (hf u u.pc u.mode u.spHyp u.spUser u.esrOther u.mem n).trans h

theorem SurvivesMask.rtiCommit {P : State → Prop} (hmask : SurvivesMask P) (hst : SurvivesStatus P .rti) {b : Byte}
    {u : State} (hu : P u) : P (rtiCommit b u) :=
  hmask .clear (hst (statusAfterRti u.cfg b) rfl hu)

section
variable {P : State → Prop} (hP : Survives P)
include hP

theorem Survives.hyp {u : State} (hu : P u) : P { u with mode := .hyp } := hP.mode hu nofun

theorem Survives.pushed {u : State} {m : Mode} {pa : Addr} {b : Byte} (hu : P u) (hpa : u.cfg.fits pa) :
    P (u.pushed m pa b) :=
  hP.sp (hP.poke hu hpa) fun h => by cases m <;> exact Config.fits_decSp h

theorem Survives.pushBytes {m : Mode} {bs : List Byte} {u : State} (hu : P u) : (State.pushBytes m bs u).All P := by
  induction bs generalizing u with
  | nil => exact hu
  | cons b bs ih =>
    rw [State.pushBytes_cons]
    split
    · next htr => exact ih (hP.pushed hu (State.fits_translate htr))
    · exact hu

theorem Survives.loadPc {u : State} (hu : P u) (w : FrameWidth) (v : Addr) : P (u.loadPc w v) := by
  unfold State.loadPc
  split
  · exact hP.pc hu (Config.fits_trunc _ _)
  · exact hP.draws (hP.pc hu (Config.fits_trunc _ _))

/-! ### The two entries -/

theorem Survives.raiseAbort {c : AbortCause} {s t : State} (hs : P s) (h : raiseAbort c s = .next t) : P t := by
  have hpush := hP.pushBytes (m := .hyp) (bs := s.entryFrame s.pc) hs
  unfold Machine.raiseAbort at h
  split at h
  · cases h
  · next s1 hp =>
    rw [hp] at hpush
    split at h
    · cases h
    · next target ht =>
      cases h
      exact hP.pc (hP.hyp hpush) (State.fits_abortTarget ht)

theorem Survives.takeInterrupt (hmask : SurvivesMask P) {n : Nat} {s t : State} (hs : P s)
    (h : takeInterrupt n s = .next t) : P t := by
  have hpush := hP.pushBytes (m := .hyp) (bs := s.entryFrame s.pc) hs
  unfold Machine.takeInterrupt at h
  split at h
  · cases h
  · next s1 hp =>
    rw [hp] at hpush
    split at h
    · cases h
    · next target ht =>
      cases h
      exact hP.pc (hmask _ (hP.hyp hpush)) (State.fits_interruptTarget ht)

theorem Survives.finish {e : Effect} {t : State} (he : e.All P) (h : e.finish = .next t) : P t := by
  rcases Effect.finish_next h with rfl | ⟨c, s1, rfl, hr⟩
  · exact he
  · exact hP.raiseAbort he hr

/-! ### The instructions -/

theorem Survives.trapEffect {n : Byte} {s : State} (hs : P s) : (trapEffect n s).All P := by
  unfold Machine.trapEffect
  split
  · refine pushOrAbort_all (hP.pushBytes hs) fun s1 hs1 => orAbort_all (hP.hyp hs1) fun a ha => ?_
    exact hP.pc (hP.hyp hs1) (State.fits_trapTarget ha)
  · exact hs

theorem Survives.brkEffect (hst : SurvivesStatus P .brk) {s : State} (hs : P s) : (brkEffect s).All P := by
  refine pushOrAbort_all (hP.pushBytes hs) fun s1 hs1 => ?_
  have hflag : P s1.brkSetsFlag := by
    unfold State.brkSetsFlag
    split
    · exact hst _ ‹_› hs1
    · exact hs1
  exact orAbort_all hflag fun a ha => hP.pc hflag (State.fits_brkTarget ha)

theorem Survives.returned {u : State} {m : Mode} {sp : Addr} {e : Byte} (hu : P u)
    (hsp : u.cfg.fits (u.sp m) → u.cfg.fits sp)
    (hmode : u.cfg.esr.decodeMode e = .user → u.cfg.hasSupervisor = true) :
    P { u.setSp m sp with mode := u.cfg.esr.decodeMode e, esrOther := u.cfg.esr.decodeOther e } :=
  hP.esrOther (hP.mode (hP.sp hu hsp) (by simpa using hmode))

theorem Survives.rtiEffect (hst : SurvivesStatus P .rti) (hmask : SurvivesMask P) {s : State} (hs : P s) :
    (rtiEffect s).All P := by
  refine Effect.all_of_cases (fun t h => ?_) fun c t h => rtiEffect_abort h ▸ hs
  rcases rtiEffect_next h with ⟨b, sp1, a, sp, h1, -, h2, rfl⟩
    | ⟨b, sp1, e, sp2, w, a, sp, h1, -, h2, -, hsup, -, h3, rfl⟩
  · have hsp : s.cfg.fits (s.sp s.mode) → s.cfg.fits sp := fun h =>
      State.fits_pullValue h2 (State.fits_pullByte h1 h)
    exact hP.loadPc (hmask.rtiCommit hst (hP.sp hs hsp)) _ _
  · have hsp : s.cfg.fits (s.sp s.mode) → s.cfg.fits sp := fun h =>
      State.fits_pullValue h3 (State.fits_pullByte h2 (State.fits_pullByte h1 h))
    exact hP.loadPc (hmask.rtiCommit hst (hP.returned hs hsp hsup)) _ _

theorem Survives.rtuEffect {s : State} (hs : P s) : (rtuEffect s).All P := by
  refine Effect.all_of_cases (fun t h => ?_) fun c t h => rtuEffect_abort h ▸ hs
  obtain ⟨e, sp1, w, a, sp, -, h1, hsup, -, h2, rfl⟩ := rtuEffect_next h
  have hsp : s.cfg.fits (s.sp .hyp) → s.cfg.fits sp := fun h => State.fits_pullValue h2 (State.fits_pullByte h1 h)
  exact hP.loadPc (hP.returned hs hsp hsup) _ _

theorem Survives.enterUser {s : State} {k : State → Effect} (hs : P s)
    (hk : ∀ u, P u → (k u).All P) : (enterUser s k).All P := by
  unfold Machine.enterUser
  split
  · split
    · exact hs
    · exact hk _ (hP.mode hs fun _ => ‹_›)
  · trivial

theorem Survives.jpuAbsEffect {operand : Half} {s : State} (hs : P s) : (jpuAbsEffect operand s).All P :=
  hP.enterUser hs fun u hu => hP.pc hu (u.cfg.fits_extendOperand operand)

theorem Survives.jpuIndEffect {operand : Half} {s : State} (hs : P s) : (jpuIndEffect operand s).All P :=
  hP.enterUser hs fun _ hu => orAbort_all hu fun _ _ => hP.loadPc hu _ _

theorem Survives.seiEffect (hst : SurvivesStatus P .sei) {s : State} (hs : P s) : (seiEffect s).All P :=
  hP.pc (hst (s.p.withI true) rfl hs) (Config.fits_trunc _ _)

theorem Survives.cliEffect (hst : SurvivesStatus P .cli) (hmask : SurvivesMask P) {s : State} (hs : P s) :
    (cliEffect s).All P :=
  hP.pc (hmask .clear (hst (s.p.withI false) rfl hs)) (Config.fits_trunc _ _)

/-- A property that survives the writes survives what an instruction itself does; one that does not survive a write of the
status register or of EIM survives the instructions that make no such write. -/
theorem Survives.instrEffect {i : Instr} (hst : SurvivesStatus P i) (hmask : i.writesMask = true → SurvivesMask P)
    {s : State} (hs : P s) : (instrEffect i s).All P := by
  cases i with
  | brk => exact hP.brkEffect hst hs
  | rti => exact hP.rtiEffect hst (hmask rfl) hs
  | cli => exact hP.cliEffect hst (hmask rfl) hs
  | sei => exact hP.seiEffect hst hs
  | trap n => exact hP.trapEffect hs
  | rtu => exact hP.rtuEffect hs
  | jpuAbs operand => exact hP.jpuAbsEffect hs
  | jpuInd operand => exact hP.jpuIndEffect hs

/-- The same with the abort that the instruction may raise taken. -/
theorem Survives.exec {i : Instr} (hst : SurvivesStatus P i) (hmask : i.writesMask = true → SurvivesMask P)
    {s t : State} (hs : P s) (h : exec i s = .next t) : P t := by
  rw [exec_eq_finish] at h
  exact hP.finish (hP.instrEffect hst hmask hs) h

/-- A property that survives every write of instructions and entries survives a boundary, if it survives the configuration
action that may stand there. -/
theorem Survives.runBoundary (hst : ∀ i, SurvivesStatus P i) (hmask : SurvivesMask P) {s t : State} (hs : P s)
    (hconfig : ∀ a rest, s.inputs = .config a :: rest → configAction a { s with inputs := rest } = .next t → P t)
    (h : runBoundary s = .next t) : P t := by
  rcases runBoundary_next h with ⟨n, -, h⟩ | ⟨-, ⟨a, rest, hi, h⟩ | ⟨-, ⟨i, -, h⟩ | ⟨c, -, h⟩⟩⟩
  · exact hP.takeInterrupt hmask hs h
  · exact hconfig a rest hi h
  · exact hP.exec (hst i) (fun _ => hmask) hs h
  · exact hP.raiseAbort hs h

end

end Sys2Proof.Machine

/-! PROOF. The state after reset is legal, and every step keeps it so (10_state.md R5 to R23). -/

namespace Sys2Proof

/-- Narrowing a value to `ADDR_BITS` keeps its reserved bits zero. -/
theorem Config.trunc_and_eq_zero {c : Config} {a mask : Addr} (h : a &&& mask = 0) : c.trunc a &&& mask = 0 := by
  apply BitVec.eq_of_getLsbD_eq
  intro k _
  have hk : (a.getLsbD k && mask.getLsbD k) = false := by
    rw [← BitVec.getLsbD_and, h]
    exact BitVec.getLsbD_zero
  rw [BitVec.getLsbD_and, Config.getLsbD_trunc, Bool.and_assoc, hk]
  simp

end Sys2Proof

namespace Sys2Proof.Machine

/-! ### The writes keep the state legal -/

theorem State.Inv.fits_sp {s : State} (h : s.Inv) (m : Mode) : s.cfg.fits (s.sp m) := by
  cases m with
  | hyp => exact h.spHyp
  | user => exact h.spUser

theorem State.Inv.setSp {s : State} (h : s.Inv) {m : Mode} {a : Addr} (ha : s.cfg.fits a) : (s.setSp m a).Inv := by
  cases m with
  | hyp => exact { h with spHyp := ha }
  | user => exact { h with spUser := ha }

theorem inv_survives : Survives State.Inv where
  pc h ha := { h with pc := ha }
  mode h hm := { h with mode := hm }
  sp h ha := h.setSp (ha (h.fits_sp _))
  poke h ha := { h with mem := ⟨Memory.write_wf h.mem.1 _ _, Memory.write_below h.mem.2 ha _⟩ }
  esrOther h := { h with }
  draws h := { h with }

theorem inv_survivesStatus (i : Instr) : SurvivesStatus State.Inv i := fun _ _ h => { h with }

theorem inv_survivesMask : SurvivesMask State.Inv := fun _ h => { h with }

/-! ### The configuration actions -/

theorem State.Inv.writeConfig {v : ConfigValue} {s t : State} (hs : s.Inv) (h : writeConfig v s = .next t) : t.Inv := by
  obtain ⟨hibr, habr, htbr⟩ := hs.bases
  obtain ⟨ribr, rabr, rtbr⟩ := hs.reserved
  obtain ⟨-, ⟨a, -, ha, rfl⟩ | ⟨a, -, ha, rfl⟩ | ⟨a, -, ha, rfl⟩ | ⟨n, -, rfl⟩ | ⟨e, -, rfl⟩ | ⟨u, -, rfl⟩
    | ⟨b, -, hx, rfl⟩⟩ := writeConfig_next h
  · exact { hs with
      bases := ⟨Config.fits_trunc _ _, habr, htbr⟩
      reserved := ⟨fun _ => Config.trunc_and_eq_zero ha, rabr, rtbr⟩ }
  · exact { hs with
      bases := ⟨hibr, Config.fits_trunc _ _, htbr⟩
      reserved := ⟨ribr, fun _ => Config.trunc_and_eq_zero ha, rtbr⟩ }
  · exact { hs with
      bases := ⟨hibr, habr, Config.fits_trunc _ _⟩
      reserved := ⟨ribr, rabr, fun _ => Config.trunc_and_eq_zero ha⟩ }
  · exact { hs with tmv := Nat.mod_lt _ (Nat.two_pow_pos _) }
  · exact { hs with }
  · exact { hs with }
  · exact { hs with xlate := fun _ => hx }

/-- A read that goes on was made in hypervisor mode and changes the model's record of the answer alone. -/
theorem readConfig_next {r : ConfigReg} {s t : State} (h : readConfig r s = .next t) :
    s.mode = .hyp ∧ t = { s with configRead := some (s.configValue r) } := by
  unfold readConfig at h
  split at h
  · cases h
  · cases h; exact ⟨‹_›, rfl⟩

theorem State.Inv.configAction {a : ConfigAction} {s t : State} (hs : s.Inv) (h : configAction a s = .next t) :
    t.Inv := by
  cases a with
  | write v => exact hs.writeConfig h
  | read r =>
    obtain ⟨-, rfl⟩ := readConfig_next h
    exact { hs with }

theorem State.Inv.withInputs {s : State} (hs : s.Inv) (rest : List Input) : ({ s with inputs := rest } : State).Inv :=
  { hs with }

/-! ### Boundaries -/

theorem State.Inv.runBoundary {s t : State} (hs : s.Inv) (h : runBoundary s = .next t) : t.Inv :=
  inv_survives.runBoundary inv_survivesStatus inv_survivesMask hs
    (fun _ rest _ h => (hs.withInputs rest).configAction h) h

theorem State.Inv.sampled {s : State} (hs : s.Inv) : s.sampled.Inv := by
  obtain ⟨lines, inputs, heq, hl⟩ := s.sampled_eq
  rw [heq]
  exact { hs with lines := hl hs.lines }

/-! ### Reset -/

/-- What reset makes of a state is legal if its parameters, lines and memory are, whatever its registers hold
(10_state.md R23). -/
theorem State.inv_resetSequence {s : State} (hcfg : s.cfg.Wf) (hlines : ∀ n ∈ s.lines, n < s.cfg.numInt)
    (hmem : s.mem.wf s.cfg.fill ∧ s.mem.below (2 ^ s.cfg.addrWidth.bits)) : s.resetSequence.Inv where
  cfg := hcfg
  pc := Config.fits_signExtend _ _
  spHyp := Config.fits_of_lt (by simp)
  spUser := Config.fits_of_lt (by simp)
  bases := hcfg.resets
  reserved := ⟨nofun, nofun, nofun⟩
  tmv := Nat.two_pow_pos _
  mode := nofun
  xlate := nofun
  lines := hlines
  mem := hmem

theorem State.Inv.resetSequence {s : State} (hs : s.Inv) : s.resetSequence.Inv :=
  State.inv_resetSequence hs.cfg hs.lines hs.mem

/-! ### What a step stores lies inside the address space -/

/-- The bytes that abort entry stores after an instruction have addresses of `ADDR_BITS` bits. -/
theorem fits_abortStores {i : Instr} {s : State} {x : Addr × Byte} (h : x ∈ (instrEffect i s).abortStores) :
    s.cfg.fits x.1 := by
  have hcfg : (instrEffect i s).All (fun t => t.cfg = s.cfg) :=
    (Survives.of_unwritten State.cfg (fun _ _ _ _ _ _ _ _ => rfl) s.cfg).instrEffect (fun _ _ h => h) (fun _ _ _ h => h) rfl
  cases he : instrEffect i s with
  | next t => rw [he] at h; cases h
  | abort c t =>
    rw [he] at h hcfg
    exact hcfg ▸ State.fits_pushStores h
  | refused r => rw [he] at h; cases h

theorem fits_ownStores {i : Instr} {s : State} {x : Addr × Byte} (h : x ∈ ownStores i s) : s.cfg.fits x.1 := by
  cases i with
  | brk => exact State.fits_pushStores h
  | trap n =>
    simp only [ownStores, trapStores] at h
    split at h
    · exact State.fits_pushStores h
    · cases h
  | rti | cli | sei | rtu | jpuAbs _ | jpuInd _ => cases h

theorem State.fits_instructionStores {s : State} {x : Addr × Byte} (h : x ∈ s.instructionStores) : s.cfg.fits x.1 := by
  unfold State.instructionStores at h
  split at h
  · rcases List.mem_append.1 h with h | h
    · exact fits_ownStores h
    · exact fits_abortStores h
  · exact State.fits_pushStores h
  · cases h

theorem State.fits_boundaryStores {s : State} {x : Addr × Byte} (h : x ∈ s.boundaryStores) : s.cfg.fits x.1 := by
  unfold State.boundaryStores at h
  split at h
  · exact State.fits_pushStores h
  · split at h
    · cases h
    all_goals exact State.fits_instructionStores h

theorem State.Inv.storeAll {s : State} (hs : s.Inv) {l : List (Addr × Byte)} (hl : ∀ x ∈ l, s.cfg.fits x.1) :
    (s.storeAll l).Inv := by
  rw [State.storeAll_eq]
  exact { hs with mem := ⟨State.storeAll_wf hs.mem.1 l, State.storeAll_below hs.mem.2 hl⟩ }

theorem State.Inv.resetWithin {k : Nat} {s t : State} (hs : s.Inv) (h : resetWithin k s = .next t) : t.Inv := by
  rcases resetWithin_next h with ⟨-, rfl⟩ | ⟨u, hu, rfl⟩
  · exact (hs.storeAll fun x hx => State.fits_boundaryStores (List.mem_of_mem_take hx)).resetSequence
  · exact (hs.runBoundary hu).resetSequence

theorem State.Inv.step {s t : State} (hs : s.Inv) (h : step s = .next t) : t.Inv := by
  rcases s.noReset_cases with hn | hr | ⟨k, rest, hw⟩
  · rw [step_of_noReset hn] at h
    exact hs.sampled.runBoundary h
  · rw [step_of_reset hr] at h
    cases h
    exact (hs.withInputs _).resetSequence
  · rw [step_of_resetWithin hw] at h
    exact (hs.sampled.withInputs rest).resetWithin h

/-- Settles O55: each write of instructions and entries keeps the state legal, and so do the configuration actions, the
sampling of the lines and reset. -/
theorem stepKeepsLegality : Obligations.StepKeepsLegality := fun _ _ hs h => hs.step h

end Sys2Proof.Machine

/-! PROOF. The state after reset, the configuration actions, the active flags, and the writers of the status register and of
EIM (10_state.md R9, R12 to R23). -/

namespace Sys2Proof.Machine

/-! ### The state after reset -/

theorem implementationOpcodes_wf : implementationOpcodes.wf := by
  unfold implementationOpcodes lawfulOpenOpcodes
  split
  · assumption
  · decide

theorem implementation_wf : implementation.Wf where
  numInt := by decide
  priority := List.Perm.refl _
  native m := by cases m <;> decide
  frame m := by cases m <;> decide
  esr := by decide
  tmvBits := Nat.le_refl 8
  opcodes := implementationOpcodes_wf
  resets := ⟨Nat.two_pow_pos 16, Nat.two_pow_pos 16, Nat.two_pow_pos 16⟩

/-- Settles O54: the state after reset is what the reset sequence makes of it, and its parameters are well formed whatever
the opaque opcodes are. -/
theorem resetIsLegal : Obligations.ResetIsLegal := by
  unfold Obligations.ResetIsLegal
  rw [← State.resetSequence_reset]
  exact State.inv_resetSequence implementation_wf nofun ⟨⟨.nil, nofun⟩, nofun⟩

/-! ### The configuration actions -/

/-- Settles O12: the step is the boundary of the sampled state, which goes on with the action that stands next. -/
theorem stepRunsConfigurationAction : Obligations.StepRunsConfigurationAction := by
  intro s a rest hreset hnone hinputs
  rw [step_of_noReset hreset]
  simp only [runBoundary, hnone, runAction, hinputs]

/-- Settles O14: in hypervisor mode a value that its register can hold is stored as it is. -/
theorem configurationActionsInHypervisorMode : Obligations.ConfigurationActionsInHypervisorMode := by
  intro s hmode
  refine ⟨fun a hfits ha => ⟨?_, ?_⟩, fun a hfits ha => ?_, fun n hn => ?_, fun e => ?_, fun u => ?_, fun hx b => ?_,
    ?_, ?_, ?_, ?_, ?_, ?_⟩
  · simp only [writeConfig, hmode, ha, if_true, Config.trunc_of_fits hfits]
  · simp only [writeConfig, hmode, ha, if_true, Config.trunc_of_fits hfits]
  · simp only [writeConfig, hmode, ha, if_true, Config.trunc_of_fits hfits]
  · simp only [writeConfig, hmode, Nat.mod_eq_of_lt hn]
  · simp only [writeConfig, hmode]
  · simp only [writeConfig, hmode]
  · simp only [writeConfig, hmode, hx, if_true]
  all_goals simp only [readConfig, hmode, State.configValue]

theorem configAction_user {s : State} (hmode : s.mode = .user) (a : ConfigAction) :
    configAction a s = .refused .configActionInUserMode := by
  cases a with
  | write v => simp only [configAction, writeConfig, hmode]
  | read r => simp only [configAction, readConfig, hmode]

/-- Settles O15: the mode is tested first, then the value. -/
theorem configurationActionsRefused : Obligations.ConfigurationActionsRefused := by
  intro s
  refine ⟨configAction_user, fun hmode => ⟨fun a ha => ⟨?_, ?_⟩, fun a ha => ?_, fun hx b => ?_⟩⟩
  · simp only [writeConfig, hmode, ha, if_false]
  · simp only [writeConfig, hmode, ha, if_false]
  · simp only [writeConfig, hmode, ha, if_false]
  · simp [writeConfig, hmode, hx]

/-! ### The active flags of the base registers -/

/-- The active flags of IBR, ABR and TBR (10_state.md R18). -/
def State.activeFlags (s : State) : Bool × Bool × Bool := (s.ibrActive, s.abrActive, s.tbrActive)

theorem activeFlags_survives (s : State) : Survives (fun t => t.activeFlags = s.activeFlags) :=
  Survives.of_unwritten _ (fun _ _ _ _ _ _ _ _ => rfl) _

/-- After a configuration write a base register is active if it was so before or is the one written. -/
theorem writeConfig_active {v : ConfigValue} {s t : State} (h : writeConfig v s = .next t) :
    (t.ibrActive = true ↔ s.ibrActive = true ∨ ∃ a, v = .ibr a)
    ∧ (t.abrActive = true ↔ s.abrActive = true ∨ ∃ a, v = .abr a)
    ∧ (t.tbrActive = true ↔ s.tbrActive = true ∨ ∃ a, v = .tbr a) := by
  obtain ⟨-, ⟨a, rfl, -, rfl⟩ | ⟨a, rfl, -, rfl⟩ | ⟨a, rfl, -, rfl⟩ | ⟨n, rfl, rfl⟩ | ⟨e, rfl, rfl⟩ | ⟨u, rfl, rfl⟩
    | ⟨b, rfl, -, rfl⟩⟩ := writeConfig_next h
  all_goals simp

/-- A boundary leaves the active flags as they are, or is a configuration write. -/
theorem runBoundary_activeFlags {s t : State} (h : runBoundary s = .next t) :
    t.activeFlags = s.activeFlags
    ∨ ∃ v rest, s.inputs = .config (.write v) :: rest ∧ writeConfig v { s with inputs := rest } = .next t := by
  by_cases hw : ∃ v rest, s.inputs = .config (.write v) :: rest ∧ writeConfig v { s with inputs := rest } = .next t
  · exact .inr hw
  · refine .inl ((activeFlags_survives s).runBoundary (fun _ _ _ _ hu => hu) (fun _ hu => hu) rfl ?_ h)
    intro a rest hi ha
    cases a with
    | write v => exact absurd ⟨v, rest, hi, ha⟩ hw
    | read r =>
      obtain ⟨-, rfl⟩ := readConfig_next ha
      rfl

/-- Settles O16: a step without a reset leaves the flags as they are, or is a configuration write. -/
theorem baseRegisterStaysActive : Obligations.BaseRegisterStaysActive := by
  intro s t h hreset
  rw [step_of_noReset hreset] at h
  obtain ⟨lines, inputs, heq, -⟩ := s.sampled_eq
  have hsampled : s.sampled.activeFlags = s.activeFlags := by rw [heq]; rfl
  simp only [State.activeFlags, Prod.mk.injEq] at hsampled
  obtain ⟨hi, ha, ht⟩ := hsampled
  rcases runBoundary_activeFlags h with hsame | ⟨v, rest, hinputs, hw⟩
  · simp only [State.activeFlags, Prod.mk.injEq, hi, ha, ht] at hsame
    obtain ⟨hi', ha', ht'⟩ := hsame
    rw [hi', ha', ht']
    exact ⟨id, id, id, .inl, .inl, .inl⟩
  · have hactive := writeConfig_active hw
    simp only [hi, ha, ht] at hactive
    simp only [hinputs, List.head?_cons, Option.some.injEq, Input.config.injEq, ConfigAction.write.injEq, hactive]
    exact ⟨.inl, .inl, .inl, id, id, id⟩

/-! ### Who writes the status register and EIM -/

/-- The status register, beside the parameters on which it depends whether BRK writes it. -/
theorem status_survives (s : State) : Survives (fun t => (t.cfg, t.p) = (s.cfg, s.p)) :=
  Survives.of_unwritten _ (fun _ _ _ _ _ _ _ _ => rfl) _

theorem mask_survives (s : State) : Survives (fun t => t.eim = s.eim) :=
  Survives.of_unwritten _ (fun _ _ _ _ _ _ _ _ => rfl) _

theorem exec_p {i : Instr} {s t : State} (hi : ¬ i.writesStatus s.cfg = true) (h : exec i s = .next t) : t.p = s.p := by
  have hkept : SurvivesStatus (fun t => (t.cfg, t.p) = (s.cfg, s.p)) i := by
    intro u x hw hu
    exact absurd ((Prod.mk.inj hu).1 ▸ hw) hi
  exact (Prod.mk.inj ((status_survives s).exec hkept (fun _ _ _ hu => hu) rfl h)).2

theorem exec_eim {i : Instr} {s t : State} (hi : ¬ i.writesMask = true) (h : exec i s = .next t) : t.eim = s.eim :=
  (mask_survives s).exec (fun _ _ hu => hu) (fun hw => absurd hw hi) rfl h

theorem raiseAbort_p {c : AbortCause} {s t : State} (h : raiseAbort c s = .next t) : t.p = s.p :=
  (Prod.mk.inj ((status_survives s).raiseAbort rfl h)).2

theorem raiseAbort_eim {c : AbortCause} {s t : State} (h : raiseAbort c s = .next t) : t.eim = s.eim :=
  (mask_survives s).raiseAbort rfl h

theorem takeInterrupt_p {n : Nat} {s t : State} (h : takeInterrupt n s = .next t) : t.p = s.p :=
  (Prod.mk.inj ((status_survives s).takeInterrupt (fun _ hu => hu) rfl h)).2

theorem configAction_p {a : ConfigAction} {s t : State} (h : configAction a s = .next t) : t.p = s.p := by
  cases a with
  | write v =>
    obtain ⟨-, ⟨a, -, -, rfl⟩ | ⟨a, -, -, rfl⟩ | ⟨a, -, -, rfl⟩ | ⟨n, -, rfl⟩ | ⟨e, -, rfl⟩ | ⟨u, -, rfl⟩
      | ⟨b, -, -, rfl⟩⟩ := writeConfig_next h
    all_goals rfl
  | read r =>
    obtain ⟨-, rfl⟩ := readConfig_next h
    rfl

/-- Of the configuration actions a write of EIM alone changes it. -/
theorem configAction_eim {a : ConfigAction} {s t : State} (h : configAction a s = .next t) :
    t.eim = s.eim ∨ ∃ e, a = .write (.eim e) := by
  cases a with
  | write v =>
    obtain ⟨-, ⟨a, -, -, rfl⟩ | ⟨a, -, -, rfl⟩ | ⟨a, -, -, rfl⟩ | ⟨n, -, rfl⟩ | ⟨e, rfl, -⟩ | ⟨u, -, rfl⟩
      | ⟨b, -, -, rfl⟩⟩ := writeConfig_next h
    case inr.inr.inr.inr.inl => exact .inr ⟨e, rfl⟩
    all_goals exact .inl rfl
  | read r =>
    obtain ⟨-, rfl⟩ := readConfig_next h
    exact .inl rfl

/-- A boundary that changes the status register takes no interrupt and runs an instruction that writes it. -/
theorem runBoundary_writes_p {s t : State} (h : runBoundary s = .next t) (hp : t.p ≠ s.p) :
    s.nextInterrupt = none ∧ ∃ i, s.fetchInstr = .instr i ∧ i.writesStatus s.cfg = true := by
  rcases runBoundary_next h with ⟨n, -, h⟩ | ⟨hn, ⟨a, rest, -, h⟩ | ⟨-, ⟨i, hf, h⟩ | ⟨c, -, h⟩⟩⟩
  · exact absurd (takeInterrupt_p h) hp
  · exact absurd (configAction_p h) hp
  · exact ⟨hn, i, hf, by_contra fun hi => hp (exec_p hi h)⟩
  · exact absurd (raiseAbort_p h) hp

/-- A boundary that changes EIM takes an interrupt, writes EIM or runs an instruction that writes it. -/
theorem runBoundary_writes_eim {s t : State} (h : runBoundary s = .next t) (he : t.eim ≠ s.eim) :
    (∃ n, s.nextInterrupt = some n) ∨ (∃ e, s.inputs.head? = some (.config (.write (.eim e))))
    ∨ ∃ i, s.fetchInstr = .instr i ∧ i.writesMask = true := by
  rcases runBoundary_next h with ⟨n, hn, -⟩ | ⟨-, ⟨a, rest, hi, h⟩ | ⟨-, ⟨i, hf, h⟩ | ⟨c, -, h⟩⟩⟩
  · exact .inl ⟨n, hn⟩
  · rcases configAction_eim h with h | ⟨e, rfl⟩
    · exact absurd h he
    · exact .inr (.inl ⟨e, by rw [hi]; rfl⟩)
  · exact .inr (.inr ⟨i, hf, by_contra fun hi => he (exec_eim hi h)⟩)
  · exact absurd (raiseAbort_eim h) he

/-- Settles O58: the status register and EIM survive every other write, so a change names its writer. -/
theorem writersOfStatusAndMask : Obligations.WritersOfStatusAndMask := by
  intro s t
  refine ⟨fun h hreset => ?_, fun i h => ⟨fun hsei hcli hrti hbrk => ?_, fun hcli hrti => ?_⟩,
    fun c h => ⟨raiseAbort_p h, raiseAbort_eim h⟩, fun n h => takeInterrupt_p h⟩
  · rw [step_of_noReset hreset] at h
    obtain ⟨lines, inputs, heq, -⟩ := s.sampled_eq
    have hcfg : s.sampled.cfg = s.cfg := by rw [heq]
    have hp : s.sampled.p = s.p := by rw [heq]
    have heim : s.sampled.eim = s.eim := by rw [heq]
    refine ⟨fun hne => ?_, fun hne => ?_⟩
    · obtain ⟨hn, i, hf, hw⟩ := runBoundary_writes_p h (hp ▸ hne)
      exact ⟨hn, i, hf, (i.writesStatus_iff s.cfg).1 (hcfg ▸ hw)⟩
    · rcases runBoundary_writes_eim h (heim ▸ hne) with hn | hc | ⟨i, hf, hw⟩
      · exact .inl hn
      · exact .inr (.inl hc)
      · rcases i.writesMask_iff.1 hw with rfl | rfl
        · exact .inr (.inr (.inl hf))
        · exact .inr (.inr (.inr hf))
  · refine exec_p (fun hw => ?_) h
    rcases (i.writesStatus_iff s.cfg).1 hw with hi | hi | hi | ⟨hi, hset⟩
    · exact hsei hi
    · exact hcli hi
    · exact hrti hi
    · simp [hbrk hi] at hset
  · exact exec_eim (fun hw => (i.writesMask_iff.1 hw).elim hcli hrti) h

end Sys2Proof.Machine

/-! PROOF. The image of the extended status byte gives back what it was made of, for every legal layout (10_state.md R11). -/

namespace Sys2Proof

/-- `awDec(awEnc(w)) = w` (10_state.md R11). -/
theorem EsrLayout.awDec_awEnc {l : EsrLayout} (h : l.wf) (w : FrameWidth) : l.awDec (l.awEnc w) = some w := by
  obtain ⟨-, -, h24, h28, h48⟩ := h
  cases w <;> simp [EsrLayout.awDec, EsrLayout.awEnc, h24.symm, h28.symm, h48.symm]

/-! ### The positions of the other bits -/

theorem EsrLayout.mem_otherPos {l : EsrLayout} {p : Nat} :
    p ∈ l.otherPos ↔ p < 8 ∧ p ≠ l.modePos ∧ p ≠ l.awHiPos ∧ p ≠ l.awLoPos := by
  simp only [EsrLayout.otherPos, List.mem_filter, Bool.and_eq_true, decide_eq_true_eq, and_assoc]
  refine and_congr_left fun _ => ?_
  exact (List.mem_range (m := p) (n := 8))

theorem EsrLayout.otherPos_nodup (l : EsrLayout) : l.otherPos.Nodup := List.Nodup.filter _ (List.nodup_range (n := 8))

/-- Three of the eight places are taken, so five are left. -/
theorem EsrLayout.otherPos_length {l : EsrLayout} (h : l.wf) : l.otherPos.length = 5 := by
  obtain ⟨⟨hm, hh, hl⟩, ⟨hmh, hml, hhl⟩, -⟩ := h
  have hset : l.otherPos.toFinset = Finset.range 8 \ {l.modePos, l.awHiPos, l.awLoPos} := by
    ext p
    simp [EsrLayout.mem_otherPos]
  have hsub : ({l.modePos, l.awHiPos, l.awLoPos} : Finset Nat) ⊆ Finset.range 8 := by
    simp [Finset.insert_subset_iff, hm, hh, hl]
  have hthree : ({l.modePos, l.awHiPos, l.awLoPos} : Finset Nat).card = 3 := Finset.card_eq_three.2
    ⟨_, _, _, hmh, hml, hhl, rfl⟩
  rw [← List.toFinset_card_of_nodup l.otherPos_nodup, hset, Finset.card_sdiff_of_subset hsub, hthree, Finset.card_range]

/-! ### The bits of an image -/

section
variable {l : EsrLayout} (h : l.wf) (m : Mode) (w : FrameWidth) (other : BitVec 5)
include h

theorem EsrLayout.encode_modeBit : (l.encode m w other).getLsbD l.modePos = ((m == .user) == l.userBit) := by
  obtain ⟨⟨hm, -, -⟩, -, -⟩ := h
  simp only [EsrLayout.encode, byteOfBits_getLsbD _ hm, if_true]

theorem EsrLayout.encode_awHiBit : (l.encode m w other).getLsbD l.awHiPos = (l.awEnc w).getLsbD 1 := by
  obtain ⟨⟨-, hh, -⟩, ⟨hmh, -, -⟩, -⟩ := h
  simp only [EsrLayout.encode, byteOfBits_getLsbD _ hh, if_true, if_neg hmh.symm]

theorem EsrLayout.encode_awLoBit : (l.encode m w other).getLsbD l.awLoPos = (l.awEnc w).getLsbD 0 := by
  obtain ⟨⟨-, -, hl⟩, ⟨-, hml, hhl⟩, -⟩ := h
  simp only [EsrLayout.encode, byteOfBits_getLsbD _ hl, if_true, if_neg hml.symm, if_neg hhl.symm]

/-- The `k`-th of the other bits lies at the `k`-th place that is left. -/
theorem EsrLayout.encode_otherBit {k : Nat} (hk : k < 5) :
    (l.encode m w other).getLsbD (l.otherPos.getD k 8) = other.getLsbD k := by
  have hlen : k < l.otherPos.length := by rw [EsrLayout.otherPos_length h]; exact hk
  have hget : l.otherPos.getD k 8 = l.otherPos[k] := List.getD_eq_getElem _ _ hlen
  obtain ⟨hp, hpm, hph, hpl⟩ := EsrLayout.mem_otherPos.1 (List.getElem_mem hlen)
  rw [hget]
  simp only [EsrLayout.encode, byteOfBits_getLsbD _ hp, if_neg hpm, if_neg hph, if_neg hpl,
    l.otherPos_nodup.idxOf_getElem k hlen]

end

/-- A number of two bits is made of its bits. -/
theorem ofNat_bits_two : ∀ x : BitVec 2, BitVec.ofNat 2 ((x.getLsbD 0).toNat + 2 * (x.getLsbD 1).toNat) = x := by decide

/-- A number of five bits is made of its bits. -/
theorem ofNat_bits_five : ∀ x : BitVec 5, BitVec.ofNat 5 ((x.getLsbD 0).toNat + 2 * (x.getLsbD 1).toNat
    + 4 * (x.getLsbD 2).toNat + 8 * (x.getLsbD 3).toNat + 16 * (x.getLsbD 4).toNat) = x := by decide

theorem EsrLayout.decodeMode_encode {l : EsrLayout} (h : l.wf) (m : Mode) (w : FrameWidth) (other : BitVec 5) :
    l.decodeMode (l.encode m w other) = m := by
  rw [EsrLayout.decodeMode, EsrLayout.encode_modeBit h]
  cases m <;> cases l.userBit <;> rfl

theorem EsrLayout.decodeWidth_encode {l : EsrLayout} (h : l.wf) (m : Mode) (w : FrameWidth) (other : BitVec 5) :
    l.decodeWidth (l.encode m w other) = some w := by
  rw [EsrLayout.decodeWidth, EsrLayout.encode_awLoBit h, EsrLayout.encode_awHiBit h, ofNat_bits_two,
    EsrLayout.awDec_awEnc h]

theorem EsrLayout.decodeOther_encode {l : EsrLayout} (h : l.wf) (m : Mode) (w : FrameWidth) (other : BitVec 5) :
    l.decodeOther (l.encode m w other) = other := by
  simp only [EsrLayout.decodeOther, EsrLayout.encode_otherBit h, Nat.reduceLT]
  exact ofNat_bits_five other

/-- Settles O30: each of the eight places of an image holds one bit of what it was made of. -/
theorem extendedStatusRoundTrip : Obligations.ExtendedStatusRoundTrip := fun _ m w other h =>
  ⟨EsrLayout.decodeMode_encode h m w other, EsrLayout.decodeWidth_encode h m w other,
    EsrLayout.decodeOther_encode h m w other⟩

end Sys2Proof

/-! PROOF. Every operation goes the same way whatever the opaque registers hold: it commutes with putting other contents
there (10_state.md R21). -/

namespace Sys2Proof.Machine

/-- The state with other contents in the registers that the source does not name. -/
def State.withOther (s : State) (regs : List Nat) : State := { s with other := regs }

/-- A run of pushes with the state that it leaves changed. -/
def Pushed.map (f : State → State) : Pushed → Pushed
  | .done s => .done (f s)
  | .aborted c s => .aborted c (f s)

/-- What an instruction itself comes to, with the state changed. -/
def Effect.map (f : State → State) : Effect → Effect
  | .next s => .next (f s)
  | .abort c s => .abort c (f s)
  | .refused r => .refused r

section
variable (s : State) (regs : List Nat)

@[simp] theorem State.withOther_cfg : (s.withOther regs).cfg = s.cfg := rfl
@[simp] theorem State.withOther_mode : (s.withOther regs).mode = s.mode := rfl
@[simp] theorem State.withOther_spHyp : (s.withOther regs).spHyp = s.spHyp := rfl
@[simp] theorem State.withOther_ibr : (s.withOther regs).ibr = s.ibr := rfl
@[simp] theorem State.withOther_abr : (s.withOther regs).abr = s.abr := rfl
@[simp] theorem State.withOther_tbr : (s.withOther regs).tbr = s.tbr := rfl
@[simp] theorem State.withOther_ibrActive : (s.withOther regs).ibrActive = s.ibrActive := rfl
@[simp] theorem State.withOther_abrActive : (s.withOther regs).abrActive = s.abrActive := rfl
@[simp] theorem State.withOther_tbrActive : (s.withOther regs).tbrActive = s.tbrActive := rfl
@[simp] theorem State.withOther_inputs : (s.withOther regs).inputs = s.inputs := rfl
@[simp] theorem State.withOther_other : (s.withOther regs).other = regs := rfl

/-! ### Reads -/

@[simp] theorem State.sp_withOther (m : Mode) : (s.withOther regs).sp m = s.sp m := by cases m <;> rfl
@[simp] theorem State.translate_withOther : (s.withOther regs).translate = s.translate := rfl
@[simp] theorem State.readByte_withOther : (s.withOther regs).readByte = s.readByte := rfl

@[simp] theorem State.readBytes_withOther (sp : Space) (n : Nat) (a : Addr) :
    (s.withOther regs).readBytes sp n a = s.readBytes sp n a := by
  induction n generalizing a with
  | zero => rfl
  | succ n ih => simp only [State.readBytes, State.readByte_withOther, State.withOther_cfg, ih]

@[simp] theorem State.tableTarget_withOther (base va : Addr) :
    (s.withOther regs).tableTarget base va = s.tableTarget base va := by
  simp only [State.tableTarget, State.readVector, State.readBytes_withOther, State.withOther_cfg]

@[simp] theorem State.legacyTarget_withOther (sp : Space) (k : Nat) :
    (s.withOther regs).legacyTarget sp k = s.legacyTarget sp k := by
  simp only [State.legacyTarget, State.readVector, State.readBytes_withOther, State.withOther_cfg]

@[simp] theorem State.interruptTarget_withOther (n : Nat) :
    (s.withOther regs).interruptTarget n = s.interruptTarget n := by
  simp [State.interruptTarget, State.intVectorAddr]

@[simp] theorem State.abortTarget_withOther (c : AbortCause) : (s.withOther regs).abortTarget c = s.abortTarget c := by
  simp [State.abortTarget, State.abortVectorAddr]

@[simp] theorem State.trapTarget_withOther (n : Byte) : (s.withOther regs).trapTarget n = s.trapTarget n := by
  simp [State.trapTarget, State.trapVectorAddr]

@[simp] theorem State.brkTarget_withOther : (s.withOther regs).brkTarget = s.brkTarget := by
  simp [State.brkTarget, State.abortVectorAddr]

@[simp] theorem State.readPointer_withOther (a : Addr) : (s.withOther regs).readPointer a = s.readPointer a := by
  simp [State.readPointer]

@[simp] theorem State.pullBytes_withOther (m : Mode) (n : Nat) (a : Addr) :
    (s.withOther regs).pullBytes m n a = s.pullBytes m n a := by
  induction n generalizing a with
  | zero => rfl
  | succ n ih => simp only [State.pullBytes, State.readByte_withOther, State.withOther_cfg, ih]

@[simp] theorem State.pullByte_withOther (m : Mode) (a : Addr) :
    (s.withOther regs).pullByte m a = s.pullByte m a := rfl

@[simp] theorem State.pullValue_withOther (m : Mode) (w : FrameWidth) (a : Addr) :
    (s.withOther regs).pullValue m w a = s.pullValue m w a := by
  simp only [State.pullValue, State.pullBytes_withOther]

@[simp] theorem State.fetchInstr_withOther : (s.withOther regs).fetchInstr = s.fetchInstr := by
  have hmore : ∀ n bs, (s.withOther regs).fetchMore n bs = s.fetchMore n bs := by
    intro n
    induction n with
    | zero => intro bs; rfl
    | succ n ih =>
      intro bs
      have hbyte : (s.withOther regs).fetchByte bs.length = s.fetchByte bs.length := rfl
      simp only [State.fetchMore, hbyte, State.withOther_cfg, ih]
  exact hmore _ _

@[simp] theorem State.nextInterrupt_withOther : (s.withOther regs).nextInterrupt = s.nextInterrupt := rfl

/-! ### Pushes and the two entries -/

theorem State.pushed_withOther (m : Mode) (pa : Addr) (b : Byte) :
    (s.withOther regs).pushed m pa b = (s.pushed m pa b).withOther regs := by cases m <;> rfl

theorem State.pushBytes_withOther (m : Mode) (bs : List Byte) :
    State.pushBytes m bs (s.withOther regs) = (State.pushBytes m bs s).map (·.withOther regs) := by
  induction bs generalizing s with
  | nil => rfl
  | cons b bs ih =>
    simp only [State.pushBytes_cons, State.translate_withOther, State.sp_withOther, State.pushed_withOther, ih]
    cases s.translate m.space (s.sp m) .write <;> rfl

theorem raiseAbort_withOther (c : AbortCause) :
    raiseAbort c (s.withOther regs) = mapNext (·.withOther regs) (raiseAbort c s) := by
  have hframe : (s.withOther regs).entryFrame (s.withOther regs).pc = s.entryFrame s.pc := rfl
  unfold raiseAbort
  rw [hframe, State.pushBytes_withOther]
  cases State.pushBytes .hyp (s.entryFrame s.pc) s with
  | aborted d u => rfl
  | done u =>
    have htarget : ({ u.withOther regs with mode := .hyp } : State).abortTarget c
        = ({ u with mode := .hyp } : State).abortTarget c := State.abortTarget_withOther _ regs c
    simp only [Pushed.map, htarget]
    cases ({ u with mode := .hyp } : State).abortTarget c <;> rfl

theorem takeInterrupt_withOther (n : Nat) :
    takeInterrupt n (s.withOther regs) = mapNext (·.withOther regs) (takeInterrupt n s) := by
  have hframe : (s.withOther regs).entryFrame (s.withOther regs).pc = s.entryFrame s.pc := rfl
  unfold takeInterrupt
  rw [hframe, State.pushBytes_withOther]
  cases State.pushBytes .hyp (s.entryFrame s.pc) s with
  | aborted d u => rfl
  | done u =>
    have htarget : ({ u.withOther regs with mode := .hyp, eim := .entered (u.withOther regs).eim n } : State).interruptTarget n
        = ({ u with mode := .hyp, eim := .entered u.eim n } : State).interruptTarget n :=
      State.interruptTarget_withOther _ regs n
    simp only [Pushed.map, htarget]
    cases ({ u with mode := .hyp, eim := .entered u.eim n } : State).interruptTarget n <;> rfl

/-! ### The instructions -/

theorem Effect.finish_map_withOther (e : Effect) :
    (e.map (·.withOther regs)).finish = mapNext (·.withOther regs) e.finish := by
  cases e with
  | next u => rfl
  | abort c u => exact raiseAbort_withOther u regs c
  | refused r => rfl

theorem orAbort_withOther {r : Except AbortCause Addr} {k k' : Addr → Effect}
    (hk : ∀ a, k' a = (k a).map (·.withOther regs)) :
    orAbort (s.withOther regs) r k' = (orAbort s r k).map (·.withOther regs) := by
  cases r with
  | error c => rfl
  | ok a => exact hk a

theorem pushOrAbort_withOther {m : Mode} {frame : List Byte} {k : State → Effect}
    (hk : ∀ u, k (u.withOther regs) = (k u).map (·.withOther regs)) :
    pushOrAbort m frame (s.withOther regs) k = (pushOrAbort m frame s k).map (·.withOther regs) := by
  unfold pushOrAbort
  rw [State.pushBytes_withOther]
  cases State.pushBytes m frame s with
  | done u => exact hk u
  | aborted c u => rfl

theorem State.loadPc_withOther (w : FrameWidth) (v : Addr) :
    (s.withOther regs).loadPc w v = (s.loadPc w v).withOther regs := by
  unfold State.loadPc
  rw [State.withOther_cfg]
  split <;> rfl

theorem returnExtended_withOther {m : Mode} {e : Byte} {a : Addr} {commit : State → State}
    (hc : ∀ u, commit (u.withOther regs) = (commit u).withOther regs) :
    returnExtended m e a commit (s.withOther regs) = (returnExtended m e a commit s).map (·.withOther regs) := by
  unfold returnExtended
  simp only [State.withOther_cfg, State.pullValue_withOther]
  split
  · rfl
  · split
    · rfl
    · split
      · rfl
      · next a' sp' _ =>
        have hset : ({ (s.withOther regs).setSp m sp' with
              mode := s.cfg.esr.decodeMode e, esrOther := s.cfg.esr.decodeOther e } : State)
            = ({ s.setSp m sp' with
                mode := s.cfg.esr.decodeMode e, esrOther := s.cfg.esr.decodeOther e } : State).withOther regs := by
          cases m <;> rfl
        rw [hset, hc, State.loadPc_withOther]
        rfl

theorem returnStandard_withOther {a : Addr} {commit : State → State}
    (hc : ∀ u, commit (u.withOther regs) = (commit u).withOther regs) :
    returnStandard a commit (s.withOther regs) = (returnStandard a commit s).map (·.withOther regs) := by
  have hset : ∀ sp, (s.withOther regs).setSp s.mode sp = (s.setSp s.mode sp).withOther regs := by
    intro sp
    cases s.mode <;> rfl
  unfold returnStandard
  simp only [State.withOther_cfg, State.withOther_mode, State.pullValue_withOther, hset, hc, State.loadPc_withOther]
  split <;> rfl

theorem trapEffect_withOther (n : Byte) :
    trapEffect n (s.withOther regs) = (trapEffect n s).map (·.withOther regs) := by
  have hallowed : (s.withOther regs).trapAllowed n = s.trapAllowed n := rfl
  unfold trapEffect
  rw [hallowed]
  split
  · refine pushOrAbort_withOther s regs fun u => ?_
    have htarget : ({ u.withOther regs with mode := .hyp } : State).trapTarget n
        = ({ u with mode := .hyp } : State).trapTarget n := State.trapTarget_withOther _ regs n
    rw [htarget]
    exact orAbort_withOther { u with mode := .hyp } regs fun a => rfl
  · rfl

theorem brkEffect_withOther : brkEffect (s.withOther regs) = (brkEffect s).map (·.withOther regs) := by
  refine pushOrAbort_withOther s regs fun u => ?_
  have hflag : (u.withOther regs).brkSetsFlag = u.brkSetsFlag.withOther regs := by
    unfold State.brkSetsFlag
    rw [State.withOther_cfg]
    split <;> rfl
  rw [hflag, State.brkTarget_withOther]
  exact orAbort_withOther _ regs fun a => rfl

theorem rtiEffect_withOther : rtiEffect (s.withOther regs) = (rtiEffect s).map (·.withOther regs) := by
  unfold rtiEffect
  simp only [State.withOther_mode, State.sp_withOther, State.pullByte_withOther, State.withOther_cfg]
  split
  · rfl
  · split
    · exact returnStandard_withOther s regs fun _ => rfl
    · split
      · rfl
      · next e t' _ =>
        by_cases hpriv : s.mode = .user ∧ s.cfg.esr.decodeMode e = .hyp
        · simp only [hpriv, and_self, if_true]
          rfl
        · simp only [hpriv, if_false]
          exact returnExtended_withOther s regs fun _ => rfl

theorem rtuEffect_withOther : rtuEffect (s.withOther regs) = (rtuEffect s).map (·.withOther regs) := by
  unfold rtuEffect
  simp only [State.withOther_mode, State.withOther_spHyp, State.pullByte_withOther]
  split
  · rfl
  · split
    · rfl
    · exact returnExtended_withOther s regs fun _ => rfl

theorem enterUser_withOther {k : State → Effect} (hk : ∀ u, k (u.withOther regs) = (k u).map (·.withOther regs)) :
    enterUser (s.withOther regs) k = (enterUser s k).map (·.withOther regs) := by
  unfold enterUser
  rw [State.withOther_mode]
  cases hsup : s.cfg.hasSupervisor with
  | false => simp only [State.withOther_cfg, hsup, Bool.false_eq_true, if_false, Effect.map]
  | true =>
    simp only [State.withOther_cfg, hsup, if_true]
    cases s.mode with
    | user => rfl
    | hyp => exact hk { s with mode := .user }

theorem jpuAbsEffect_withOther (operand : Half) :
    jpuAbsEffect operand (s.withOther regs) = (jpuAbsEffect operand s).map (·.withOther regs) :=
  enterUser_withOther s regs fun _ => rfl

theorem jpuIndEffect_withOther (operand : Half) :
    jpuIndEffect operand (s.withOther regs) = (jpuIndEffect operand s).map (·.withOther regs) := by
  refine enterUser_withOther s regs fun u => ?_
  rw [State.withOther_cfg, State.readPointer_withOther]
  exact orAbort_withOther u regs fun a => congrArg Effect.next (u.loadPc_withOther regs _ a)

theorem instrEffect_withOther (i : Instr) :
    instrEffect i (s.withOther regs) = (instrEffect i s).map (·.withOther regs) := by
  cases i with
  | brk => exact brkEffect_withOther s regs
  | rti => exact rtiEffect_withOther s regs
  | cli => rfl
  | sei => rfl
  | trap n => exact trapEffect_withOther s regs n
  | rtu => exact rtuEffect_withOther s regs
  | jpuAbs operand => exact jpuAbsEffect_withOther s regs operand
  | jpuInd operand => exact jpuIndEffect_withOther s regs operand

theorem exec_withOther (i : Instr) : exec i (s.withOther regs) = mapNext (·.withOther regs) (exec i s) := by
  rw [exec_eq_finish, exec_eq_finish, instrEffect_withOther, Effect.finish_map_withOther]

/-! ### Boundaries -/

theorem runInstruction_withOther :
    runInstruction (s.withOther regs) = mapNext (·.withOther regs) (runInstruction s) := by
  unfold runInstruction
  rw [State.fetchInstr_withOther]
  cases s.fetchInstr with
  | instr i => exact exec_withOther s regs i
  | abort c => exact raiseAbort_withOther s regs c
  | undefined => rfl

theorem configAction_withOther (a : ConfigAction) :
    configAction a (s.withOther regs) = mapNext (·.withOther regs) (configAction a s) := by
  cases a with
  | write v =>
    simp only [configAction, writeConfig, State.withOther_mode, State.withOther_cfg]
    cases s.mode with
    | user => rfl
    | hyp =>
      cases v with
      | ibr a | abr a | tbr a => dsimp only; split <;> rfl
      | tmv _ | eim _ | uim _ => rfl
      | xlate b =>
        by_cases hx : s.cfg.hasTranslation = true
        · simp only [hx, if_true]
          rfl
        · simp only [hx, Bool.false_eq_true, if_false, mapNext]
  | read r =>
    simp only [configAction, readConfig, State.withOther_mode]
    cases s.mode <;> cases r <;> rfl

theorem runAction_withOther : runAction (s.withOther regs) = mapNext (·.withOther regs) (runAction s) := by
  unfold runAction
  rw [State.withOther_inputs, runInstruction_withOther]
  split
  · next a rest _ => exact configAction_withOther { s with inputs := rest } regs a
  all_goals rfl

theorem runBoundary_withOther : runBoundary (s.withOther regs) = mapNext (·.withOther regs) (runBoundary s) := by
  unfold runBoundary
  rw [State.nextInterrupt_withOther]
  cases s.nextInterrupt with
  | some n => exact takeInterrupt_withOther s regs n
  | none => exact runAction_withOther s regs

/-! ### Stores and reset -/

theorem State.pushStores_withOther (m : Mode) (bs : List Byte) (a : Addr) :
    (s.withOther regs).pushStores m bs a = s.pushStores m bs a := by
  induction bs generalizing a with
  | nil => rfl
  | cons b bs ih => simp only [State.pushStores, State.translate_withOther, State.withOther_cfg, ih]

theorem ownStores_withOther (i : Instr) : ownStores i (s.withOther regs) = ownStores i s := by
  cases i with
  | brk =>
    simp only [ownStores, brkStores, State.pushStores_withOther, State.sp_withOther]
    rfl
  | trap n =>
    simp only [ownStores, trapStores, State.pushStores_withOther]
    rfl
  | rti | cli | sei | rtu | jpuAbs _ | jpuInd _ => rfl

theorem Effect.abortStores_map_withOther (e : Effect) : (e.map (·.withOther regs)).abortStores = e.abortStores := by
  cases e with
  | next u => rfl
  | abort c u => exact State.pushStores_withOther u regs _ _ _
  | refused r => rfl

theorem State.boundaryStores_withOther : (s.withOther regs).boundaryStores = s.boundaryStores := by
  have hentry : (s.withOther regs).entryStores = s.entryStores := State.pushStores_withOther s regs _ _ _
  have hinstr : (s.withOther regs).instructionStores = s.instructionStores := by
    simp only [State.instructionStores, State.fetchInstr_withOther, ownStores_withOther, instrEffect_withOther,
      Effect.abortStores_map_withOther, hentry]
  simp only [State.boundaryStores, State.nextInterrupt_withOther, State.withOther_inputs, hentry, hinstr]

theorem State.storeAll_withOther (l : List (Addr × Byte)) :
    (s.withOther regs).storeAll l = (s.storeAll l).withOther regs := by
  induction l generalizing s with
  | nil => rfl
  | cons x l ih => exact ih (s.poke x.1 x.2)

/-- Reset sets every opaque register to zero, whatever it held, and leaves everything else as it does with other contents. -/
theorem State.resetSequence_withOther :
    (s.withOther regs).resetSequence = s.resetSequence.withOther (List.replicate regs.length 0) := by
  rw [← List.map_const']
  rfl

theorem resetWithin_withOther (k : Nat) :
    resetWithin k (s.withOther regs)
      = mapNext (·.withOther (List.replicate regs.length 0)) (resetWithin k s) := by
  unfold resetWithin
  rw [State.boundaryStores_withOther, State.storeAll_withOther, State.resetSequence_withOther, runBoundary_withOther]
  split
  · rfl
  · cases runBoundary s with
    | next t => exact congrArg Host.Outcome.next (t.resetSequence_withOther regs)
    | fault f => rfl
    | refused r => rfl

/-! ### Steps -/

theorem State.sampled_withOther : (s.withOther regs).sampled = s.sampled.withOther regs := by
  unfold State.sampled
  rw [State.withOther_inputs]
  split <;> rfl

theorem State.noReset_withOther : (s.withOther regs).NoReset ↔ s.NoReset := by
  simp only [State.NoReset, State.sampled_withOther, State.withOther_inputs]

/-- A step without a reset neither reads nor writes the opaque registers. -/
theorem step_withOther_of_noReset (h : s.NoReset) :
    step (s.withOther regs) = mapNext (·.withOther regs) (step s) := by
  rw [step_of_noReset h, step_of_noReset ((s.noReset_withOther regs).2 h), State.sampled_withOther, runBoundary_withOther]

/-- A step with a reset, at the boundary or within it, sets them to zero. -/
theorem step_withOther_of_reset (h : ¬ s.NoReset) :
    step (s.withOther regs) = mapNext (·.withOther (List.replicate regs.length 0)) (step s) := by
  rcases s.noReset_cases with hn | hr | ⟨k, rest, hw⟩
  · exact absurd hn h
  · rw [step_of_reset hr, step_of_reset (s := s.withOther regs) hr]
    exact congrArg Host.Outcome.next (State.resetSequence_withOther { s with inputs := s.inputs.tail } regs)
  · have hw' : (s.withOther regs).sampled.inputs = .resetWithin k :: rest := by
      rw [State.sampled_withOther]; exact hw
    rw [step_of_resetWithin hw, step_of_resetWithin hw', State.sampled_withOther]
    exact resetWithin_withOther { s.sampled with inputs := rest } regs k

end

/-- An outcome that giving its next state these contents leaves as it is, has them. -/
theorem other_of_mapNext_withOther {regs : List Nat} {o : Host.Outcome State Fault Refusal} {t : State}
    (ho : o = mapNext (·.withOther regs) o) (ht : o = .next t) : t.other = regs := by
  subst ht
  have hself : t = t.withOther regs := Host.Outcome.next.inj ho
  rw [hself, State.withOther_other]

/-- Settles O59: a step commutes with putting other contents into the opaque registers; with the contents that stand there
already, that says what it leaves in them. -/
theorem otherRegistersAreOpaque : Obligations.OtherRegistersAreOpaque := fun s regs =>
  ⟨step_withOther_of_noReset s regs, step_withOther_of_reset s regs,
    fun _ ht h => other_of_mapNext_withOther (step_withOther_of_noReset s s.other h) ht,
    fun _ ht h => other_of_mapNext_withOther (step_withOther_of_reset s s.other h) ht⟩

end Sys2Proof.Machine

/-! PROOF. Vectors and reads of several bytes: how a vector becomes an address, the order of the bytes of a value, and where
the vectors lie (20_memory.md R27 to R32). -/

namespace Sys2Proof

/-! ### The two ways a vector becomes an address -/

/-- The bits of a mask of `n` ones. -/
theorem getLsbD_ones {n : Nat} (hn : n ≤ 64) (k : Nat) : (BitVec.ofNat 64 (2 ^ n - 1)).getLsbD k = decide (k < n) := by
  rw [BitVec.getLsbD_ofNat, Nat.testBit_two_pow_sub_one, ← Bool.decide_and]
  exact decide_eq_decide.2 ⟨And.right, fun h => ⟨by omega, h⟩⟩

theorem Config.getLsbD_signExtend (c : Config) (v : Half) (k : Nat) :
    (c.signExtend v).getLsbD k = if k < 16 then v.getLsbD k else (decide (k < c.addrWidth.bits) && v.getLsbD 15) := by
  have hw := c.addrWidth.bits_cases
  rw [Config.signExtend, Config.getLsbD_trunc, BitVec.getLsbD_signExtend]
  by_cases hk : k < 16
  · have hb : k < c.addrWidth.bits ∧ k < 64 := by omega
    simp [hk, hb]
  · by_cases hb : k < c.addrWidth.bits
    · have h64 : k < 64 := by omega
      simp [hk, hb, h64, BitVec.msb_eq_getLsbD_last]
    · simp [hk, hb]

theorem Config.getLsbD_augment (c : Config) (base : Addr) (v : Half) (k : Nat) :
    (c.augment base v).getLsbD k
      = if k < 16 then v.getLsbD k else (decide (k < c.addrWidth.bits) && base.getLsbD k) := by
  have hw := c.addrWidth.bits_cases
  have hmask : (0xFFFF : Addr).getLsbD k = decide (k < 16) := getLsbD_ones (n := 16) (by omega) k
  rw [Config.augment, Config.getLsbD_trunc, BitVec.getLsbD_or, BitVec.getLsbD_and, BitVec.getLsbD_not, hmask,
    BitVec.getLsbD_setWidth]
  by_cases hk : k < 16
  · have hb : k < c.addrWidth.bits ∧ k < 64 := by omega
    simp [hk, hb]
  · by_cases hb : k < c.addrWidth.bits
    · have h64 : k < 64 := by omega
      simp [hk, hb, h64, BitVec.getLsbD_of_ge v k (by omega)]
    · simp [hk, hb]

/-- At 16 bits nothing lies above a vector. -/
theorem Config.signExtend_bits16 {c : Config} (h : c.addrWidth = .bits16) (v : Half) :
    c.signExtend v = v.setWidth 64 := by
  apply BitVec.eq_of_getLsbD_eq
  intro k hk
  rw [c.getLsbD_signExtend, BitVec.getLsbD_setWidth, h]
  by_cases hk16 : k < 16
  · simp [hk, hk16]
  · simp [AddrWidth.bits, hk16, BitVec.getLsbD_of_ge v k (by omega)]

/-- The two ways agree where the base's upper bits are copies of the vector's top bit. -/
theorem Config.augment_eq_signExtend {c : Config} {base : Addr} {v : Half}
    (h : ∀ k, 16 ≤ k → k < c.addrWidth.bits → base.getLsbD k = v.getLsbD 15) : c.augment base v = c.signExtend v := by
  apply BitVec.eq_of_getLsbD_eq
  intro k _
  rw [c.getLsbD_augment, c.getLsbD_signExtend]
  split
  · rfl
  · next hk =>
    by_cases hb : k < c.addrWidth.bits
    · rw [h k (by omega) hb]
    · simp [hb]

/-- Settles O17: bit by bit; the 16-bit case and the agreement follow from the bits. -/
theorem signExtendAndAugment : Obligations.SignExtendAndAugment := by
  intro c base v
  refine ⟨c.getLsbD_signExtend v, c.getLsbD_augment base v, fun h16 => ?_, Config.augment_eq_signExtend⟩
  have hagree : c.augment base v = c.signExtend v := by
    refine Config.augment_eq_signExtend fun k hk hb => ?_
    rw [h16] at hb
    exact absurd hb (Nat.not_lt.2 hk)
  exact ⟨Config.signExtend_bits16 h16 v, hagree.trans (Config.signExtend_bits16 h16 v)⟩

/-! ### Byte order -/

theorem FrameWidth.bytes_le (w : FrameWidth) : w.bytes ≤ 8 := by cases w <;> simp [FrameWidth.bytes]

/-- The bits of a value: each byte holds eight of them, the first byte the lowest. -/
theorem getLsbD_valueLE (bs : List Byte) (k : Nat) :
    (valueLE bs).getLsbD k = (decide (k < 64) && (bs.getD (k / 8) 0).getLsbD (k % 8)) := by
  induction bs generalizing k with
  | nil => simp [valueLE]
  | cons b bs ih =>
    rw [valueLE, BitVec.getLsbD_or, BitVec.getLsbD_setWidth, BitVec.getLsbD_shiftLeft, ih]
    by_cases hk : k < 8
    · rw [Nat.div_eq_of_lt hk, Nat.mod_eq_of_lt hk]
      simp [hk]
    · have hdiv : k / 8 = (k - 8) / 8 + 1 := by omega
      have hmod : k % 8 = (k - 8) % 8 := by omega
      rw [hdiv, hmod, List.getD_cons_succ, BitVec.getLsbD_of_ge b k (by omega)]
      by_cases h64 : k < 64
      · have h64' : k - 8 < 64 := by omega
        simp [hk, h64, h64']
      · simp [h64]

/-- The bytes of a value, by their place. -/
theorem getElem_bytesLE {n k : Nat} (v : Addr) (h : k < (bytesLE n v).length) :
    (bytesLE n v)[k] = (v >>> (8 * k)).setWidth 8 := by
  induction n generalizing k v with
  | zero => simp at h
  | succ n ih =>
    cases k with
    | zero => simp [bytesLE]
    | succ k =>
      have hk : k < (bytesLE n (v >>> 8)).length := by simpa [bytesLE] using h
      have hshift : 8 + 8 * k = 8 * (k + 1) := by omega
      simp only [bytesLE, List.getElem_cons_succ]
      rw [ih _ hk, ← BitVec.shiftRight_add, hshift]

/-- Each byte of a value lies at its place. -/
theorem byte_valueLE {bs : List Byte} {k : Nat} (h : k < bs.length) (hk : k < 8) :
    (valueLE bs >>> (8 * k)).setWidth 8 = bs[k] := by
  apply BitVec.eq_of_getLsbD_eq
  intro i hi
  have h64 : 8 * k + i < 64 := by omega
  have hdiv : (8 * k + i) / 8 = k := by omega
  have hmod : (8 * k + i) % 8 = i := by omega
  rw [BitVec.getLsbD_setWidth, BitVec.getLsbD_ushiftRight, getLsbD_valueLE, hdiv, hmod, List.getD_eq_getElem _ _ h]
  simp [hi, h64]

/-- The value of a value's `n` low bytes. -/
theorem valueLE_bytesLE (n : Nat) (v : Addr) : valueLE (bytesLE n v) = (v.setWidth (8 * n)).setWidth 64 := by
  apply BitVec.eq_of_getLsbD_eq
  intro k hk
  rw [getLsbD_valueLE, BitVec.getLsbD_setWidth, BitVec.getLsbD_setWidth]
  by_cases hn : k < 8 * n
  · have hlen : k / 8 < (bytesLE n v).length := by rw [bytesLE_length]; omega
    have hbit : 8 * (k / 8) + k % 8 = k := by omega
    rw [List.getD_eq_getElem _ _ hlen, getElem_bytesLE]
    simp [hk, hn, hbit, Nat.mod_lt]
  · have hlen : (bytesLE n v).length ≤ k / 8 := by rw [bytesLE_length]; omega
    rw [List.getD_eq_default _ _ hlen]
    simp [hn]

/-- Two bytes make a vector, the lower one first. -/
theorem valueLE_pair (lo hi : Byte) : (valueLE [lo, hi]).setWidth 16 = hi ++ lo := by
  apply BitVec.eq_of_getLsbD_eq
  intro k hk
  rw [BitVec.getLsbD_setWidth, getLsbD_valueLE, BitVec.getLsbD_append]
  by_cases h8 : k < 8
  · rw [Nat.div_eq_of_lt h8, Nat.mod_eq_of_lt h8]
    have h64 : k < 64 := by omega
    simp [hk, h8, h64]
  · have hdiv : k / 8 = 1 := by omega
    have hmod : k % 8 = k - 8 := by omega
    have h64 : k < 64 := by omega
    simp [hk, h8, h64, hdiv, hmod]

/-! ### Addresses modulo 2^`ADDR_BITS`, and even ones -/

/-- The bits of an address are no more than its container has. -/
theorem AddrWidth.two_pow_bits_dvd (w : AddrWidth) : 2 ^ w.bits ∣ 2 ^ 64 :=
  Nat.pow_dvd_pow 2 (by rcases w.bits_cases with h | h | h <;> omega)

/-- Address arithmetic is modulo 2^`ADDR_BITS`. -/
theorem Config.trunc_add_toNat (c : Config) (a : Addr) (k : Nat) :
    (c.trunc (a + BitVec.ofNat 64 k)).toNat = (a.toNat + k) % 2 ^ c.addrWidth.bits := by
  rw [Config.trunc_toNat, BitVec.toNat_add, BitVec.toNat_ofNat, Nat.add_mod_mod,
    Nat.mod_mod_of_dvd _ c.addrWidth.two_pow_bits_dvd]

/-- The place after the place after. -/
theorem Config.trunc_trunc_succ_add (c : Config) (a : Addr) (k : Nat) :
    c.trunc (c.trunc (a + 1) + BitVec.ofNat 64 k) = c.trunc (a + BitVec.ofNat 64 (k + 1)) := by
  apply BitVec.eq_of_toNat_eq
  have hone : (c.trunc (a + 1)).toNat = (a.toNat + 1) % 2 ^ c.addrWidth.bits := c.trunc_add_toNat a 1
  rw [Config.trunc_add_toNat, Config.trunc_add_toNat, hone, Nat.mod_add_mod, Nat.add_right_comm, Nat.add_assoc]

/-- Narrowing keeps an address even or odd. -/
theorem Config.trunc_toNat_mod_two (c : Config) (a : Addr) : (c.trunc a).toNat % 2 = a.toNat % 2 := by
  rw [Config.trunc_toNat]
  exact Nat.mod_mod_of_dvd _ (dvd_pow_self 2 (by rcases c.addrWidth.bits_cases with h | h | h <;> omega))

theorem toNat_mod_two_of_bit {a : Addr} (h : a.getLsbD 0 = false) : a.toNat % 2 = 0 := by
  simpa [BitVec.getLsbD, Nat.testBit_zero] using h

/-- A base register with its low bits masked off is even. -/
theorem toNat_masked_mod_two (a : Addr) {mask : Addr} (h : mask.getLsbD 0 = true) : (a &&& ~~~mask).toNat % 2 = 0 :=
  toNat_mod_two_of_bit (by simp [h])

/-- A legacy vector's address: `-k` counts down from the top of the address space. -/
theorem Config.negAddr_toNat (c : Config) {k : Nat} (h0 : 0 < k) (hk : k < 2 ^ 16) :
    (c.negAddr k).toNat = 2 ^ c.addrWidth.bits - k := by
  rw [Config.negAddr, Config.trunc_toNat, BitVec.toNat_neg, BitVec.toNat_ofNat]
  rcases c.addrWidth.bits_cases with h | h | h <;> rw [h] <;> omega

end Sys2Proof

namespace Sys2Proof.Machine

/-! ### Where the vectors lie -/

theorem State.intVectorAddr_even (s : State) (n : Nat) : (s.intVectorAddr n).toNat % 2 = 0 := by
  have hbase := toNat_masked_mod_two s.ibr (mask := 0xFF) rfl
  rw [State.intVectorAddr, Config.trunc_toNat_mod_two, BitVec.toNat_add, BitVec.toNat_ofNat]
  omega

theorem State.abortVectorAddr_even (s : State) (k : Nat) : (s.abortVectorAddr k).toNat % 2 = 0 := by
  have hbase := toNat_masked_mod_two s.abr (mask := 0xFF) rfl
  have htop : (0xFE : Addr).toNat = 254 := rfl
  rw [State.abortVectorAddr, Config.trunc_toNat_mod_two, BitVec.toNat_sub, BitVec.toNat_add, BitVec.toNat_ofNat, htop]
  omega

theorem State.trapVectorAddr_even (s : State) (n : Byte) : (s.trapVectorAddr n).toNat % 2 = 0 := by
  rw [State.trapVectorAddr, Config.trunc_toNat_mod_two]
  exact toNat_mod_two_of_bit (by simp)

/-! ### Reads of several bytes -/

theorem State.readBytes_succ_ok {s : State} {sp : Space} {n : Nat} {a : Addr} {bs : List Byte} :
    s.readBytes sp (n + 1) a = .ok bs ↔ ∃ b bs', bs = b :: bs' ∧ s.readByte sp a .read = .ok b
      ∧ s.readBytes sp n (s.cfg.trunc (a + 1)) = .ok bs' := by
  simp only [State.readBytes]
  cases s.readByte sp a .read with
  | error c => simp
  | ok b =>
    cases s.readBytes sp n (s.cfg.trunc (a + 1)) with
    | error c => simp
    | ok bs' => simp [eq_comm]

theorem State.readBytes_succ_error {s : State} {sp : Space} {n : Nat} {a : Addr} {c : AbortCause} :
    s.readBytes sp (n + 1) a = .error c ↔ s.readByte sp a .read = .error c
      ∨ ((∃ b, s.readByte sp a .read = .ok b) ∧ s.readBytes sp n (s.cfg.trunc (a + 1)) = .error c) := by
  simp only [State.readBytes]
  cases s.readByte sp a .read with
  | error c => simp
  | ok b => cases s.readBytes sp n (s.cfg.trunc (a + 1)) <;> simp

/-- The first of several places is the address itself. -/
theorem Config.trunc_add_zero {c : Config} {a : Addr} (h : c.fits a) : c.trunc (a + BitVec.ofNat 64 0) = a := by
  simpa using Config.trunc_of_fits h

/-- A read that succeeds answers the byte at each of the places. -/
theorem State.readBytes_ok_iff {s : State} {sp : Space} {n : Nat} {a : Addr} (ha : s.cfg.fits a) (bs : List Byte) :
    s.readBytes sp n a = .ok bs ↔ bs.length = n ∧ ∀ (k : Nat) (h : k < bs.length),
      s.readByte sp (s.cfg.trunc (a + BitVec.ofNat 64 k)) .read = .ok bs[k] := by
  induction n generalizing a bs with
  | zero => cases bs <;> simp [State.readBytes]
  | succ n ih =>
    rw [State.readBytes_succ_ok]
    constructor
    · rintro ⟨b, bs, rfl, hb, hbs⟩
      obtain ⟨hlen, hat⟩ := (ih (s.cfg.fits_trunc _) bs).1 hbs
      refine ⟨by simp [hlen], fun k hk => ?_⟩
      cases k with
      | zero => rw [Config.trunc_add_zero ha]; exact hb
      | succ k =>
        rw [← Config.trunc_trunc_succ_add]
        exact hat k (by simpa using hk)
    · rintro ⟨hlen, hat⟩
      cases bs with
      | nil => simp at hlen
      | cons b bs =>
        have hb := hat 0 (by simp)
        rw [Config.trunc_add_zero ha] at hb
        refine ⟨b, bs, rfl, hb, (ih (s.cfg.fits_trunc _) bs).2 ⟨by simpa using hlen, fun k hk => ?_⟩⟩
        rw [Config.trunc_trunc_succ_add]
        exact hat (k + 1) (by simpa using hk)

/-- A read that aborts meets the abort of the first place that has one. -/
theorem State.readBytes_error_iff {s : State} {sp : Space} {n : Nat} {a : Addr} (ha : s.cfg.fits a) (c : AbortCause) :
    s.readBytes sp n a = .error c ↔ ∃ k, k < n
      ∧ s.readByte sp (s.cfg.trunc (a + BitVec.ofNat 64 k)) .read = .error c
      ∧ ∀ j, j < k → ∃ b, s.readByte sp (s.cfg.trunc (a + BitVec.ofNat 64 j)) .read = .ok b := by
  induction n generalizing a with
  | zero => simp [State.readBytes]
  | succ n ih =>
    rw [State.readBytes_succ_error, ih (s.cfg.fits_trunc _)]
    simp only [Config.trunc_trunc_succ_add]
    constructor
    · rintro (hc | ⟨hb, k, hk, hc, hbefore⟩)
      · exact ⟨0, by omega, by rwa [Config.trunc_add_zero ha], fun j hj => absurd hj (Nat.not_lt_zero j)⟩
      · refine ⟨k + 1, by omega, hc, fun j hj => ?_⟩
        cases j with
        | zero => rwa [Config.trunc_add_zero ha]
        | succ j => exact hbefore j (by omega)
    · rintro ⟨k, hk, hc, hbefore⟩
      cases k with
      | zero => exact .inl (by rwa [Config.trunc_add_zero ha] at hc)
      | succ k =>
        have hb := hbefore 0 (by omega)
        rw [Config.trunc_add_zero ha] at hb
        exact .inr ⟨hb, k, by omega, hc, fun j hj => hbefore (j + 1) (by omega)⟩

/-- A vector is read from two bytes. -/
theorem State.readVector_of_bytes {s : State} {sp : Space} {a : Addr} {lo hi : Byte}
    (hlo : s.readByte sp a .read = .ok lo) (hhi : s.readByte sp (s.cfg.trunc (a + 1)) .read = .ok hi) :
    s.readVector sp a = .ok (hi ++ lo) := by
  have hbytes : s.readBytes sp 2 a = .ok [lo, hi] := by simp only [State.readBytes, hlo, hhi]
  simp only [State.readVector, hbytes, valueLE_pair]

/-- JPU's pointer is the value of its bytes. -/
theorem State.readPointer_of_bytes {s : State} {a : Addr} {bs : List Byte}
    (h : s.readBytes .user s.cfg.jpuPtr.bytes a = .ok bs) : s.readPointer a = .ok (valueLE bs) := by
  simp only [State.readPointer, h]

/-- Settles O18: a read goes byte by byte, by induction on their number; every table counts in steps of two from an even
base. -/
theorem vectorsAreTwoBytes : Obligations.VectorsAreTwoBytes := fun s =>
  ⟨fun _ _ _ _ => State.readVector_of_bytes,
    fun _ _ _ ha => ⟨State.readBytes_ok_iff ha, State.readBytes_error_iff ha⟩,
    fun _ _ => State.readPointer_of_bytes,
    fun _ _ => byte_valueLE,
    s.intVectorAddr_even, s.abortVectorAddr_even, s.trapVectorAddr_even,
    fun k hk => s.cfg.negAddr_toNat (by simp at hk; omega) (by simp at hk; omega)⟩

end Sys2Proof.Machine

/-! PROOF. Accesses, aborts and stacks: what an access goes to or which abort it meets, how a stack pointer moves, what pushes
store and pulls give back (20_memory.md R24, R30, R34, R35, R36). -/

namespace Sys2Proof

/-! ### The mapping -/

/-- The mapping aborts an access only with a cause that can belong to it. -/
theorem Config.translate_error {c : Config} {m : Mode} {a : Addr} {k : Access} {cause : AbortCause}
    (h : c.translate m a k = .error cause) : cause.appliesTo m k = true := by
  unfold Config.translate at h
  split at h
  · next r hfind =>
    have hcovers := List.find?_some hfind
    split at h
    · cases h
    · next cause' hr =>
      cases h
      simp only [TransRule.covers, hr, Bool.and_eq_true] at hcovers
      exact hcovers.2
  · cases h; rfl

/-- The causes that can belong to an access of this mode and kind. -/
theorem AbortCause.appliesTo_iff {cause : AbortCause} {m : Mode} {k : Access} :
    cause.appliesTo m k = true ↔
      cause = .nomem ∨ (cause = .wprot ∧ k = .write) ∨ (cause = .noexec ∧ k = .fetch) ∨ (cause = .privmem ∧ m = .user) := by
  cases cause <;> simp [AbortCause.appliesTo]

/-! ### How a stack pointer moves -/

/-- An address with its low byte taken from another one. -/
theorem toNat_withLowByte (a b : Addr) :
    ((a &&& ~~~(0xFF : Addr)) ||| (b &&& 0xFF)).toNat = a.toNat / 256 * 256 + b.toNat % 256 := by
  have hmask (k : Nat) : (0xFF : Addr).getLsbD k = decide (k < 8) := getLsbD_ones (n := 8) (by omega) k
  calc _ = 2 ^ 8 * (a.toNat / 2 ^ 8) + b.toNat % 2 ^ 8 := Nat.eq_of_testBit_eq fun k => ?_
    _ = _ := by omega
  rw [Nat.testBit_two_pow_mul_add _ (Nat.mod_lt _ (by omega)), Nat.testBit_mod_two_pow, Nat.testBit_div_two_pow,
    BitVec.testBit_toNat, BitVec.testBit_toNat, BitVec.testBit_toNat, BitVec.getLsbD_or, BitVec.getLsbD_and,
    BitVec.getLsbD_and, BitVec.getLsbD_not, hmask]
  by_cases hk : k < 8
  · simp [hk]
  · have hback : 8 + (k - 8) = k ∧ k - 8 + 8 = k := by omega
    by_cases h64 : k < 64
    · simp [hk, h64, hback]
    · simp [hk, h64, hback, BitVec.getLsbD_of_ge a k (by omega)]

theorem Config.decSp_full {c : Config} (h : c.spWrap = .full) (a : Addr) :
    (c.decSp a).toNat = (a.toNat + (2 ^ c.addrWidth.bits - 1)) % 2 ^ c.addrWidth.bits := by
  have hone : (1 : Addr).toNat = 1 := rfl
  simp only [Config.decSp, h]
  rw [Config.trunc_toNat, BitVec.toNat_sub, hone]
  rcases c.addrWidth.bits_cases with hb | hb | hb <;> rw [hb] <;> omega

theorem Config.incSp_full {c : Config} (h : c.spWrap = .full) (a : Addr) :
    (c.incSp a).toNat = (a.toNat + 1) % 2 ^ c.addrWidth.bits := by
  simp only [Config.incSp, h]
  exact c.trunc_add_toNat a 1

theorem Config.decSp_page {c : Config} (h : c.spWrap = .page) (a : Addr) :
    (c.decSp a).toNat = a.toNat / 256 * 256 + (a.toNat % 256 + 255) % 256 := by
  have hone : (1 : Addr).toNat = 1 := rfl
  simp only [Config.decSp, h]
  rw [toNat_withLowByte, BitVec.toNat_sub, hone]
  omega

theorem Config.incSp_page {c : Config} (h : c.spWrap = .page) (a : Addr) :
    (c.incSp a).toNat = a.toNat / 256 * 256 + (a.toNat % 256 + 1) % 256 := by
  have hone : (1 : Addr).toNat = 1 := rfl
  simp only [Config.incSp, h]
  rw [toNat_withLowByte, BitVec.toNat_add, hone]
  omega

/-- A push at 0100 leaves 01FF where only the low byte counts. -/
theorem Config.decSp_page_corner {c : Config} (h : c.spWrap = .page) : c.decSp 0x0100 = 0x01FF := by
  apply BitVec.eq_of_toNat_eq
  rw [Config.decSp_page h]
  rfl

/-- Settles O26: one equation for each reading and direction. -/
theorem stackPointerWrap : Obligations.StackPointerWrap := fun _ a _ =>
  ⟨fun h => ⟨Config.decSp_full h a, Config.incSp_full h a⟩, fun h => ⟨Config.decSp_page h a, Config.incSp_page h a⟩,
    Config.decSp_page_corner⟩

/-- Under either reading the low byte of a decremented stack pointer goes down by one, modulo 256. -/
theorem Config.decSp_mod_256 (c : Config) (a : Addr) : (c.decSp a).toNat % 256 = (a.toNat + 255) % 256 := by
  cases h : c.spWrap with
  | full =>
    rw [Config.decSp_full h]
    rcases c.addrWidth.bits_cases with hb | hb | hb <;> rw [hb] <;> omega
  | page =>
    rw [Config.decSp_page h]
    omega

theorem Config.decSpN_mod_256 (c : Config) (n : Nat) (a : Addr) :
    (c.decSpN n a).toNat % 256 = (a.toNat + 255 * n) % 256 := by
  induction n generalizing a with
  | zero => rfl
  | succ n ih =>
    have hdec := c.decSp_mod_256 a
    rw [Config.decSpN, ih]
    omega

/-- Up to 256 pushes go to different addresses. -/
theorem Config.decSpN_ne {c : Config} {a : Addr} {j k : Nat} (hjk : j < k) (hk : k < 256) :
    c.decSpN j a ≠ c.decSpN k a := by
  intro heq
  have hj := c.decSpN_mod_256 j a
  have hk := c.decSpN_mod_256 k a
  rw [heq] at hj
  omega

/-- A pull moves the stack pointer back to where the push found it. -/
theorem Config.incSp_decSp {c : Config} {a : Addr} (h : c.fits a) : c.incSp (c.decSp a) = a := by
  apply BitVec.eq_of_toNat_eq
  cases hw : c.spWrap with
  | full =>
    rw [Config.incSp_full hw, Config.decSp_full hw, Nat.mod_add_mod, Nat.add_assoc,
      Nat.sub_add_cancel (Nat.one_le_two_pow), Nat.add_mod_right, Nat.mod_eq_of_lt h]
  | page =>
    rw [Config.incSp_page hw, Config.decSp_page hw]
    omega

/-- The last of several decrements. -/
theorem Config.decSpN_succ (c : Config) (n : Nat) (a : Addr) : c.decSpN (n + 1) a = c.decSp (c.decSpN n a) := by
  induction n generalizing a with
  | zero => rfl
  | succ n ih => exact ih (c.decSp a)

end Sys2Proof

namespace Sys2Proof.Machine

/-! ### Accesses -/

theorem State.readByte_flat {s : State} (h : s.Flat) (sp : Space) (a : Addr) (k : Access) :
    s.readByte sp a k = .ok (s.peek (s.cfg.trunc a)) := by
  simp only [State.readByte, State.translate_flat h]

/-- Settles O24: the three spaces are one where nothing is translated. -/
theorem spacesAreOneWithoutTranslation : Obligations.SpacesAreOneWithoutTranslation := fun _ sp a k h =>
  ⟨State.translate_flat h sp a k, State.readByte_flat h sp a k⟩

/-- An access that aborts is translated, in the space of a mode, by the mapping. -/
theorem State.translate_error {s : State} {sp : Space} {a : Addr} {k : Access} {c : AbortCause}
    (h : s.translate sp a k = .error c) :
    s.cfg.hasTranslation = true ∧ s.xlateOn = true ∧ ∃ m : Mode, sp = m.space ∧ s.cfg.translate m a k = .error c := by
  unfold State.translate at h
  split at h
  · next hon =>
    obtain ⟨hhas, hon⟩ := Bool.and_eq_true_iff.1 hon
    refine ⟨hhas, hon, ?_⟩
    cases sp with
    | hyp => exact ⟨.hyp, rfl, h⟩
    | user => exact ⟨.user, rfl, h⟩
    | phys => cases h
  · cases h

@[simp] theorem Mode.space_ne_phys (m : Mode) : m.space ≠ .phys := by cases m <;> simp [Mode.space]

@[simp] theorem Mode.space_eq_user (m : Mode) : m.space = .user ↔ m = .user := by cases m <;> simp [Mode.space]

/-- Settles O25: an abort comes from the mapping, whose causes fit the mode and the kind of the access. -/
theorem memoryAbortsFitTheirAccess : Obligations.MemoryAbortsFitTheirAccess := by
  intro s sp a k c h
  obtain ⟨hhas, hon, m, rfl, hm⟩ := State.translate_error h
  refine ⟨⟨hhas, hon, Mode.space_ne_phys m⟩, ?_⟩
  rw [Mode.space_eq_user]
  exact AbortCause.appliesTo_iff.1 (Config.translate_error hm)

/-! ### Pushing -/

/-- A push without translation goes to the address that the decremented stack pointer holds. -/
theorem State.translate_decSpN {s : State} {m : Mode} (h : s.Flat) (ha : s.cfg.fits (s.sp m)) (k : Nat) :
    s.translate m.space (s.cfg.decSpN k (s.sp m)) .write = .ok (s.cfg.decSpN k (s.sp m)) := by
  rw [State.translate_flat h, Config.trunc_of_fits (Config.fits_decSpN ha k)]

/-- Without translation up to 256 pushed bytes lie where the decremented stack pointer pointed. -/
theorem State.StackHolds.peek_decSpN {s t : State} {m : Mode} {bs : List Byte} (hst : s.StackHolds t m bs) (h : s.Flat)
    (ha : s.cfg.fits (s.sp m)) (hlen : bs.length ≤ 256) {k : Nat} (hk : k < bs.length) :
    t.peek (s.cfg.decSpN k (s.sp m)) = bs[k] := by
  refine hst.stored k hk _ (State.translate_decSpN h ha k) fun j hkj hj heq => ?_
  rw [State.translate_decSpN h ha] at heq
  exact Config.decSpN_ne hkj (by omega) (Except.ok.inj heq).symm

/-- Without translation pushes change no byte but those where the decremented stack pointer pointed. -/
theorem State.StackHolds.peek_of_ne {s t : State} {m : Mode} {bs : List Byte} (hst : s.StackHolds t m bs) (h : s.Flat)
    (ha : s.cfg.fits (s.sp m)) {a : Addr} (hne : ∀ k, k < bs.length → a ≠ s.cfg.decSpN k (s.sp m)) :
    t.peek a = s.peek a := by
  refine hst.kept a fun k hk heq => ?_
  rw [State.translate_decSpN h ha] at heq
  exact hne k hk (Except.ok.inj heq).symm

/-- The bytes of a pushed address: the most significant one first. -/
theorem getElem_addressBytes (w : FrameWidth) (v : Addr) {k : Nat} (h : k < (addressBytes w v).length) :
    (addressBytes w v)[k] = (v >>> (8 * (w.bytes - 1 - k))).setWidth 8 := by
  simp [addressBytes, getElem_bytesLE]

/-- Settles O27: pushes can be made where nothing is translated, and what they leave is known; up to 256 of them go to
different addresses. -/
theorem pushStoresBelowPointer : Obligations.PushStoresBelowPointer := by
  intro s m bs h ha hwf hlen
  refine ⟨?_, fun w v _ => getElem_addressBytes w v⟩
  obtain ⟨t, ht⟩ := State.pushBytes_of_canPush (State.canPush_of_flat h m bs.length)
  obtain ⟨hsame, hsp, -, hmem, -⟩ := State.pushBytes_done ht
  obtain ⟨hst, -⟩ := hmem hwf
  refine ⟨t, ht, ?_, fun k hk => hst.peek_decSpN h ha hlen hk, fun _ => hst.peek_of_ne h ha⟩
  rw [← hsp]
  exact hsame

/-- Pushes that meet an abort at one byte are done up to it. -/
theorem State.pushBytes_aborted_at {m : Mode} {bs : List Byte} {s t : State} {c : AbortCause}
    (h : State.pushBytes m bs s = .aborted c t) :
    ∃ k, k < bs.length ∧ State.pushBytes m (bs.take k) s = .done t ∧ s.translate m.space (t.sp m) .write = .error c := by
  induction bs generalizing s with
  | nil => cases h
  | cons b bs ih =>
    rw [State.pushBytes_cons] at h
    cases htr : s.translate m.space (s.sp m) .write with
    | error c' =>
      rw [htr] at h
      cases h
      exact ⟨0, by simp, rfl, htr⟩
    | ok pa =>
      rw [htr] at h
      obtain ⟨k, hk, hdone, herr⟩ := ih h
      rw [State.translate_pushed] at herr
      refine ⟨k + 1, by simpa using hk, ?_, herr⟩
      rw [List.take_succ_cons, State.pushBytes_cons, htr]
      exact hdone

/-- Settles O29: the pushes before the abort are a run of their own, which is done. -/
theorem abortedPushKeepsEarlierBytes : Obligations.AbortedPushKeepsEarlierBytes := by
  intro s t m bs c h
  obtain ⟨k, hk, hdone, herr⟩ := State.pushBytes_aborted_at h
  obtain ⟨-, hsp, -⟩ := State.pushBytes_done hdone
  rw [List.length_take_of_le hk.le] at hsp
  exact ⟨k, hk, hdone, hsp, hsp ▸ herr⟩

/-! ### Pulling -/

/-- Without translation a pull from below the bytes of a stack gives them back, the last one first, and ends at the stack
pointer from before they were pushed. -/
theorem State.pullBytes_of_stack {t : State} (h : t.Flat) (m : Mode) {a : Addr} (ha : t.cfg.fits a) (bs : List Byte)
    (hbs : ∀ (k : Nat) (hk : k < bs.length), t.peek (t.cfg.decSpN k a) = bs[k]) :
    t.pullBytes m bs.length (t.cfg.decSpN bs.length a) = .ok (bs.reverse, a) := by
  induction bs using List.reverseRecOn with
  | nil => rfl
  | append_singleton bs b ih =>
    have hfits := Config.fits_decSpN ha bs.length
    have hlast : t.readByte m.space (t.cfg.decSpN bs.length a) .read = .ok b := by
      rw [State.readByte_flat h, Config.trunc_of_fits hfits, hbs bs.length (by simp)]
      simp
    have hrest := ih fun k hk => by
      rw [hbs k (by simp; omega), List.getElem_append_left hk]
    rw [List.length_append, List.length_singleton, Config.decSpN_succ]
    simp only [State.pullBytes, Config.incSp_decSp hfits, hlast, hrest, List.reverse_append, List.reverse_singleton,
      List.singleton_append]

/-- Without translation pulling as many bytes as were pushed undoes the pushes. -/
theorem State.pullBytes_of_pushBytes {s t : State} {m : Mode} {bs : List Byte} (h : s.Flat) (ha : s.cfg.fits (s.sp m))
    (hwf : s.mem.wf s.cfg.fill) (hlen : bs.length ≤ 256) (hpush : State.pushBytes m bs s = .done t) :
    t.pullBytes m bs.length (t.sp m) = .ok (bs.reverse, s.sp m) := by
  obtain ⟨hsame, hsp, -, hmem, -⟩ := State.pushBytes_done hpush
  obtain ⟨hst, -⟩ := hmem hwf
  have hcfg : t.cfg = s.cfg := by rw [hsame]; simp
  have hxlate : t.xlateOn = s.xlateOn := by rw [hsame]; simp
  rw [hsp, ← hcfg]
  refine State.pullBytes_of_stack (by rw [State.Flat, hcfg, hxlate]; exact h) m (by rw [hcfg]; exact ha) bs fun k hk => ?_
  rw [hcfg]
  exact hst.peek_decSpN h ha hlen hk

/-- Settles O28: the pull gives the pushed bytes back in the opposite order, which is the order of a value's bytes. -/
theorem pullInvertsPush : Obligations.PullInvertsPush := by
  intro s t m w v h ha hwf hpush
  have hlen : (addressBytes w v).length ≤ 256 := by
    rw [addressBytes_length]
    exact w.bytes_le.trans (by omega)
  have hpull := State.pullBytes_of_pushBytes h ha hwf hlen hpush
  rw [addressBytes_length, addressBytes, List.reverse_reverse] at hpull
  simp only [State.pullValue, hpull, valueLE_bytesLE]

end Sys2Proof.Machine

/-! PROOF. The decoder and the encoder agree: the decoder reads by the first row of the table whose opcode the bytes begin
with, and an instruction that is well formed for the table leaves no other row to be read by (30_encoding.md R42 to R46).
Bytes that no row fits make the step a refusal (R48). -/

namespace Sys2Proof

/-! ### Opcodes -/

theorem stripOpcode_eq_some {o bs rest : List Byte} : stripOpcode o bs = some rest ↔ bs = o ++ rest := by
  induction o generalizing bs with
  | nil => simp [stripOpcode]
  | cons a o ih =>
    cases bs with
    | nil => simp [stripOpcode]
    | cons b bs =>
      by_cases hab : a = b
      · simp [stripOpcode, hab, ih]
      · simp [stripOpcode, hab, Ne.symm hab]

@[simp] theorem stripOpcode_append (o rest : List Byte) : stripOpcode o (o ++ rest) = some rest :=
  stripOpcode_eq_some.2 rfl

theorem stripOpcode_of_not_prefix {o bs : List Byte} (h : ¬ o <+: bs) : stripOpcode o bs = none :=
  Option.eq_none_iff_forall_ne_some.2 fun rest hrest => h ⟨rest, (stripOpcode_eq_some.1 hrest).symm⟩

theorem Apart.symm {a b : List Byte} (h : Apart a b) : Apart b a := And.symm h

/-- Bytes that begin with `a`, or that `a` begins with, do not begin with what stands apart from `a`. -/
theorem Apart.not_prefix {a b bs : List Byte} (h : Apart a b) (hbs : bs <+: a ∨ a <+: bs) : ¬ b <+: bs := by
  obtain ⟨hab, hba⟩ := h
  intro hb
  rcases hbs with hbs | hbs
  · exact hba (hb.trans hbs)
  · exact (List.prefix_or_prefix_of_prefix hbs hb).elim hab hba

/-- The opcode of an instruction is one of the table's. -/
theorem Instr.opcode_mem_rows (t : OpcodeTable) (i : Instr) : i.opcode t ∈ t.rows := by
  cases i <;> simp [Instr.opcode, OpcodeTable.rows]

/-- Settles O4: put the instruction's opcode first among the rows; the others then come after it, and stand apart from it. -/
theorem wellFormedTableAdmitsAll : Obligations.WellFormedTableAdmitsAll := by
  intro t i ⟨hne, hapart⟩
  have hmem := i.opcode_mem_rows t
  have hperm := hapart.perm (List.perm_cons_erase hmem) Apart.symm
  exact ⟨hne _ hmem, (List.pairwise_cons.1 hperm).1⟩

/-- The rows before and after the one of a well-formed instruction hold opcodes that stand apart from its own. -/
theorem Instr.apart_of_rows_eq {t : OpcodeTable} {i : Instr} (h : i.wf t) {before after : List (List Byte)}
    (hrows : t.rows = before ++ i.opcode t :: after) : ∀ o ∈ before ++ after, Apart (i.opcode t) o := by
  have hfirst : t.rows.Perm (i.opcode t :: (before ++ after)) := hrows ▸ List.perm_middle
  have hperm := hfirst.erase (i.opcode t)
  rw [List.erase_cons_head] at hperm
  exact fun o ho => h.2 o (hperm.mem_iff.2 ho)

/-! ### Operands -/

/-- What the decoder makes of the bytes after the opcode of an instruction; the operand of `i` itself does not matter. -/
def Instr.readOperand : Instr → List Byte → Decoded
  | .brk => .ok .brk
  | .rti => .ok .rti
  | .cli => .ok .cli
  | .sei => .ok .sei
  | .trap _ => takeByte .trap
  | .rtu => .ok .rtu
  | .jpuAbs _ => takeHalf .jpuAbs
  | .jpuInd _ => takeHalf .jpuInd

theorem half_of_bytes (a : Half) : (a >>> 8).setWidth 8 ++ a.setWidth 8 = a := by
  ext k hk
  simp only [BitVec.getElem_append, BitVec.getElem_setWidth, BitVec.getLsbD_ushiftRight]
  split
  · rfl
  · rw [Nat.add_sub_cancel' (by omega)]; rfl

theorem lowByte_append (lo hi : Byte) : (hi ++ lo : Half).setWidth 8 = lo := by
  ext k hk
  rw [BitVec.getElem_setWidth]
  exact BitVec.getLsbD_append.trans (by simp [hk])

theorem highByte_append (lo hi : Byte) : ((hi ++ lo : Half) >>> 8).setWidth 8 = hi := by
  ext k hk
  rw [BitVec.getElem_setWidth, BitVec.getLsbD_ushiftRight]
  exact BitVec.getLsbD_append.trans (by simp [hk])

theorem takeByte_eq_ok {f : Byte → Instr} {bs rest : List Byte} {i : Instr} (h : takeByte f bs = .ok i rest) :
    ∃ n, i = f n ∧ bs = n :: rest := by
  cases bs with
  | nil => cases h
  | cons n bs => cases h; exact ⟨n, rfl, rfl⟩

theorem takeHalf_eq_ok {f : Half → Instr} {bs rest : List Byte} {i : Instr} (h : takeHalf f bs = .ok i rest) :
    ∃ a : Half, i = f a ∧ bs = a.setWidth 8 :: (a >>> 8).setWidth 8 :: rest := by
  match bs with
  | [] | [_] => cases h
  | lo :: hi :: _ =>
    cases h
    exact ⟨hi ++ lo, rfl, by rw [lowByte_append, highByte_append]⟩

theorem Instr.readOperand_operandBytes (i : Instr) (rest : List Byte) :
    i.readOperand (i.operandBytes ++ rest) = .ok i rest := by
  cases i with
  | brk | rti | cli | sei | rtu | trap n => rfl
  | jpuAbs a => exact congrArg (fun a => Decoded.ok (.jpuAbs a) rest) (half_of_bytes a)
  | jpuInd a => exact congrArg (fun a => Decoded.ok (.jpuInd a) rest) (half_of_bytes a)

/-- An instruction read by the row of `j` has the opcode of `j`, and what is read are its operand bytes. -/
theorem Instr.readOperand_eq_ok {i j : Instr} {bs rest : List Byte} (h : j.readOperand bs = .ok i rest)
    (t : OpcodeTable) : i.opcode t = j.opcode t ∧ bs = i.operandBytes ++ rest := by
  cases j with
  | brk | rti | cli | sei | rtu => cases h; exact ⟨rfl, rfl⟩
  | trap _ => obtain ⟨n, rfl, rfl⟩ := takeByte_eq_ok h; exact ⟨rfl, rfl⟩
  | jpuAbs _ | jpuInd _ => obtain ⟨a, rfl, rfl⟩ := takeHalf_eq_ok h; exact ⟨rfl, rfl⟩

/-- A proper beginning of the operand bytes asks for more. -/
theorem Instr.readOperand_take {i : Instr} {k : Nat} (hk : k < i.operandBytes.length) :
    i.readOperand (i.operandBytes.take k) = .short := by
  cases i with
  | brk | rti | cli | sei | rtu => cases hk
  | trap n => match k, hk with | 0, _ => rfl
  | jpuAbs a | jpuInd a => match k, hk with | 0, _ | 1, _ => rfl

/-! ### The decoder reads by the first row that fits -/

/-- A row as the decoder reads by it: the opcode, and what is made of the bytes after it. -/
abbrev RowReader : Type := List Byte × (List Byte → Decoded)

/-- Read by the first row whose opcode the bytes begin with, and answer `d` where none fits. -/
def readFirst (d : Decoded) (bs : List Byte) : List RowReader → Decoded
  | [] => d
  | (o, read) :: rs =>
    match stripOpcode o bs with
    | some rest => read rest
    | none => readFirst d bs rs

/-- The rows of the table in the decoder's order. -/
def OpcodeTable.readers (t : OpcodeTable) : List RowReader :=
  [([t.brk], .ok .brk), ([t.rti], .ok .rti), ([t.cli], .ok .cli), ([t.sei], .ok .sei), (t.trap, takeByte .trap),
    (t.rtu, .ok .rtu), (t.jpuAbs, takeHalf .jpuAbs), (t.jpuInd, takeHalf .jpuInd)]

/-- What the decoder answers where no row fits. -/
def OpcodeTable.noRow (t : OpcodeTable) (bs : List Byte) : Decoded :=
  if [t.trap, t.rtu, t.jpuAbs, t.jpuInd].any (fun o => bs.isPrefixOf o) then .short else .undefined

theorem OpcodeTable.rows_eq_map_readers (t : OpcodeTable) : t.rows = t.readers.map Prod.fst := rfl

theorem OpcodeTable.mem_readers {t : OpcodeTable} {r : RowReader} :
    r ∈ t.readers ↔ ∃ i : Instr, r = (i.opcode t, i.readOperand) := by
  constructor
  · intro h
    simp only [OpcodeTable.readers, List.mem_cons, List.not_mem_nil, or_false] at h
    rcases h with h | h | h | h | h | h | h | h
    exacts [⟨.brk, h⟩, ⟨.rti, h⟩, ⟨.cli, h⟩, ⟨.sei, h⟩, ⟨.trap 0, h⟩, ⟨.rtu, h⟩, ⟨.jpuAbs 0, h⟩, ⟨.jpuInd 0, h⟩]
  · rintro ⟨i, rfl⟩
    cases i <;> simp [OpcodeTable.readers, Instr.opcode, Instr.readOperand]

/-- A row with a one-byte opcode fits where the byte is the first one. -/
theorem readFirst_singleton (d : Decoded) (a b : Byte) (bs : List Byte) (read : List Byte → Decoded)
    (rs : List RowReader) :
    readFirst d (b :: bs) (([a], read) :: rs) = if b = a then read bs else readFirst d (b :: bs) rs := by
  by_cases hba : b = a
  · simp [readFirst, stripOpcode, hba]
  · simp [readFirst, stripOpcode, hba, Ne.symm hba]

/-- The decoder reads by the first row that fits. -/
theorem decode_of_ne_nil (t : OpcodeTable) {bs : List Byte} (h : bs ≠ []) :
    decode t bs = readFirst (t.noRow bs) bs t.readers := by
  obtain ⟨b, bs, rfl⟩ := List.exists_cons_of_ne_nil h
  simp only [OpcodeTable.readers, readFirst_singleton]
  rfl

/-- What the decoder makes of the bytes is what some row does, or what it answers where none fits. -/
theorem readFirst_cases (d : Decoded) (bs : List Byte) (rs : List RowReader) :
    readFirst d bs rs = d ∨ ∃ r ∈ rs, ∃ rest, bs = r.1 ++ rest ∧ readFirst d bs rs = r.2 rest := by
  induction rs with
  | nil => exact .inl rfl
  | cons r rs ih =>
    rw [readFirst]
    split
    · next rest hrest => exact .inr ⟨r, List.mem_cons_self, rest, stripOpcode_eq_some.1 hrest, rfl⟩
    · exact ih.imp_right fun ⟨r', hr', h⟩ => ⟨r', List.mem_cons_of_mem _ hr', h⟩

/-- Rows that do not fit are passed over. -/
theorem readFirst_append {d : Decoded} {bs : List Byte} {before : List RowReader} (h : ∀ r ∈ before, ¬ r.1 <+: bs)
    (rs : List RowReader) : readFirst d bs (before ++ rs) = readFirst d bs rs := by
  induction before with
  | nil => rfl
  | cons r before ih =>
    obtain ⟨hr, hbefore⟩ := List.forall_mem_cons.1 h
    rw [List.cons_append, readFirst, stripOpcode_of_not_prefix hr]
    exact ih hbefore

theorem readFirst_of_not_prefix {d : Decoded} {bs : List Byte} {rs : List RowReader} (h : ∀ r ∈ rs, ¬ r.1 <+: bs) :
    readFirst d bs rs = d := by
  simpa only [List.append_nil, readFirst] using readFirst_append (d := d) h []

theorem readFirst_cons_append (d : Decoded) (o rest : List Byte) (read : List Byte → Decoded) (rs : List RowReader) :
    readFirst d (o ++ rest) ((o, read) :: rs) = read rest := by
  rw [readFirst, stripOpcode_append]

/-- Settles O2: the row that reads the instruction has its opcode, and the bytes after that are its operand bytes. -/
theorem encodeOfDecode : Obligations.EncodeOfDecode := by
  intro t bs rest i h
  have hne : bs ≠ [] := by rintro rfl; cases h
  rw [decode_of_ne_nil t hne] at h
  rcases readFirst_cases (t.noRow bs) bs t.readers with hnone | ⟨r, hr, after, hbs, hread⟩
  · rw [hnone, OpcodeTable.noRow] at h
    split at h <;> cases h
  · obtain ⟨j, rfl⟩ := OpcodeTable.mem_readers.1 hr
    obtain ⟨hop, hafter⟩ := Instr.readOperand_eq_ok (hread.symm.trans h) t
    rw [hbs, hafter, encode, hop, List.append_assoc]

/-! ### Well-formed instructions -/

/-- The rows before and after the one of a well-formed instruction fit no bytes that begin with its opcode, and none that
its opcode begins with. -/
theorem Instr.readers_eq {t : OpcodeTable} {i : Instr} (h : i.wf t) : ∃ before after,
    t.readers = before ++ (i.opcode t, i.readOperand) :: after
    ∧ ∀ bs, (bs <+: i.opcode t ∨ i.opcode t <+: bs) → ∀ r ∈ before ++ after, ¬ r.1 <+: bs := by
  obtain ⟨before, after, hsplit⟩ := List.mem_iff_append.1 (OpcodeTable.mem_readers.2 ⟨i, rfl⟩)
  have hrows : t.rows = before.map Prod.fst ++ i.opcode t :: after.map Prod.fst := by
    rw [OpcodeTable.rows_eq_map_readers, hsplit, List.map_append, List.map_cons]
  refine ⟨before, after, hsplit, fun bs hbs r hr => ?_⟩
  have hmem : r.1 ∈ before.map Prod.fst ++ after.map Prod.fst :=
    List.map_append ▸ List.mem_map_of_mem hr
  exact (Instr.apart_of_rows_eq h hrows _ hmem).not_prefix hbs

/-- After the opcode of a well-formed instruction its own row reads the operand. -/
theorem decode_opcode_append {t : OpcodeTable} {i : Instr} (h : i.wf t) (bs : List Byte) :
    decode t (i.opcode t ++ bs) = i.readOperand bs := by
  obtain ⟨before, after, hsplit, hothers⟩ := Instr.readers_eq h
  have hbefore := fun r hr => hothers _ (.inr (List.prefix_append (i.opcode t) bs)) r (List.mem_append_left after hr)
  rw [decode_of_ne_nil t (List.append_ne_nil_of_left_ne_nil h.1 bs), hsplit, readFirst_append hbefore,
    readFirst_cons_append]

/-- A proper beginning of an opcode, other than none of its bytes, is of one that the 65002 adds. -/
theorem noRow_of_prefix {t : OpcodeTable} {i : Instr} {bs : List Byte} (hne : bs ≠ []) (hbs : bs <+: i.opcode t)
    (hproper : bs ≠ i.opcode t) : t.noRow bs = .short := by
  have hmem : i.opcode t ∈ [t.trap, t.rtu, t.jpuAbs, t.jpuInd] := by
    cases i with
    | brk | rti | cli | sei => exact absurd (hbs.eq_of_length_le (List.length_pos_iff.2 hne)) hproper
    | trap _ | rtu | jpuAbs _ | jpuInd _ => simp [Instr.opcode]
  exact if_pos (List.any_eq_true.2 ⟨_, hmem, List.isPrefixOf_iff_prefix.2 hbs⟩)

/-- A proper beginning of a well-formed instruction's opcode asks for more: it fits no row. -/
theorem decode_of_prefix_opcode {t : OpcodeTable} {i : Instr} (h : i.wf t) {bs : List Byte} (hbs : bs <+: i.opcode t)
    (hproper : bs ≠ i.opcode t) : decode t bs = .short := by
  by_cases hne : bs = []
  · subst hne; rfl
  obtain ⟨before, after, hsplit, hothers⟩ := Instr.readers_eq h
  have hown : ¬ i.opcode t <+: bs := fun hop => hproper (hbs.eq_of_length_le hop.length_le)
  have hnone : ∀ r ∈ t.readers, ¬ r.1 <+: bs := by
    intro r hr
    rw [hsplit] at hr
    rcases List.mem_cons.1 (List.perm_middle.mem_iff.1 hr) with rfl | hr
    · exact hown
    · exact hothers bs (.inl hbs) r hr
  rw [decode_of_ne_nil t hne, readFirst_of_not_prefix hnone, noRow_of_prefix hne hbs hproper]

/-- Settles O1: no row but the instruction's own fits, and that one reads the operand bytes back. -/
theorem decodeOfEncode : Obligations.DecodeOfEncode := fun t i rest h => by
  rw [encode, List.append_assoc, decode_opcode_append h, Instr.readOperand_operandBytes]

/-- Settles O3: the beginning ends within the opcode, or after it within the operand. -/
theorem partOfEncodingIsShort : Obligations.PartOfEncodingIsShort := by
  intro t i k h hk
  rw [encode, List.length_append] at hk
  rcases Nat.lt_or_ge k (i.opcode t).length with hop | hop
  · rw [encode, List.take_append_of_le_length hop.le]
    refine decode_of_prefix_opcode h (List.take_prefix _ _) fun heq => ?_
    have hlen := congrArg List.length heq
    rw [List.length_take] at hlen
    omega
  · rw [encode, List.take_append, List.take_of_length_le hop, decode_opcode_append h, Instr.readOperand_take (by omega)]

/-- Settles O5: the four one-byte opcodes are the first the decoder tries; the other words are encodings under a table that
is well formed. -/
theorem opcodeWordsDecode : Obligations.OpcodeWordsDecode := by
  refine ⟨fun o rest => ⟨rfl, rfl, rfl, rfl⟩, fun t ht => ?_⟩
  have hwf : t.wf := by subst ht; decide
  have hdecode := fun i => decodeOfEncode t i [] (wellFormedTableAdmitsAll t i hwf)
  subst ht
  exact ⟨hdecode (.trap 0x0F), hdecode .rtu, hdecode (.jpuAbs 0x8034), hdecode (.jpuInd 0xFFFC)⟩

end Sys2Proof

namespace Sys2Proof.Machine

/-! ### Bytes that no opcode begins -/

@[simp] theorem State.sampled_cfg (s : State) : s.sampled.cfg = s.cfg := by
  obtain ⟨lines, inputs, heq, -⟩ := s.sampled_eq
  rw [heq]

/-- Where no configuration action stands next, an instruction runs. -/
theorem runAction_of_no_config {s : State} (h : ∀ a, s.inputs.head? ≠ some (.config a)) :
    runAction s = runInstruction s := by
  unfold runAction
  split
  · next a rest hi => exact absurd (by rw [hi]; rfl) (h a)
  all_goals rfl

/-- A step with nothing before the instruction runs the instruction. -/
theorem step_of_quiet {s : State} (h : s.Quiet) : step s = runInstruction s.sampled := by
  obtain ⟨hreset, hint, hconfig⟩ := h
  rw [step_of_noReset hreset, runBoundary, hint]
  exact runAction_of_no_config hconfig

/-- Where the bytes fetched so far and one more ask for more, the fetch goes on with them. -/
theorem State.fetchMore_of_short {s : State} {bs : List Byte} {k : Nat} (n : Nat) (hk : k < bs.length)
    (hbyte : s.fetchByte k = .ok bs[k]) (hdecode : decode s.cfg.opcodes (bs.take (k + 1)) = .short) :
    s.fetchMore (n + 1) (bs.take k) = s.fetchMore n (bs.take (k + 1)) := by
  simp only [State.fetchMore, List.length_take_of_le hk.le, hbyte, List.take_append_getElem hk, hdecode]

theorem State.fetchMore_of_undefined {s : State} {bs : List Byte} {k : Nat} (n : Nat) (hk : k < bs.length)
    (hbyte : s.fetchByte k = .ok bs[k]) (hdecode : decode s.cfg.opcodes (bs.take (k + 1)) = .undefined) :
    s.fetchMore n (bs.take k) = .undefined := by
  cases n with
  | zero => rfl
  | succ n => simp only [State.fetchMore, List.length_take_of_le hk.le, hbyte, List.take_append_getElem hk, hdecode]

/-- Bytes of which every beginning asks for more and which no opcode begins come to nothing, however many of them are
fetched already and however many more may be. -/
theorem State.fetchMore_eq_undefined {s : State} {bs : List Byte}
    (hbytes : ∀ (k : Nat) (h : k < bs.length), s.fetchByte k = .ok bs[k])
    (hshort : ∀ k, 0 < k → k < bs.length → decode s.cfg.opcodes (bs.take k) = .short)
    (hundef : decode s.cfg.opcodes bs = .undefined) (n : Nat) {k : Nat} (hk : k < bs.length) :
    s.fetchMore n (bs.take k) = .undefined := by
  induction n generalizing k with
  | zero => rfl
  | succ n ih =>
    rcases Nat.lt_or_ge (k + 1) bs.length with hnext | hlast
    · rw [State.fetchMore_of_short n hk (hbytes k hk) (hshort (k + 1) k.succ_pos hnext)]
      exact ih hnext
    · exact State.fetchMore_of_undefined _ hk (hbytes k hk) (by rw [List.take_of_length_le hlast]; exact hundef)

/-- Settles O7: the fetch reads the bytes one by one until no opcode fits. -/
theorem undefinedOpcodeIsRefused : Obligations.UndefinedOpcodeIsRefused := by
  intro s bs hquiet hbytes hshort hundef
  have hlen : 0 < bs.length := List.length_pos_iff.2 (by rintro rfl; cases hundef)
  rw [← State.sampled_cfg s] at hshort hundef
  have hfetch : s.sampled.fetchInstr = .undefined := State.fetchMore_eq_undefined hbytes hshort hundef _ hlen
  rw [step_of_quiet hquiet, runInstruction, hfetch]

end Sys2Proof.Machine

/-! PROOF. TRAP and BRK (41_trap_and_brk.md): the status image, the handler that each enters, and the aborts that it meets on
the way. What an entry writes before it reads its vector does not decide whether the vector can be read. -/

namespace Sys2Proof.Machine

/-! ### The status image -/

/-- Settles O31: each bit of the image is one of the eight it was made of. -/
theorem statusImageBits : Obligations.StatusImageBits := by
  intro p b5 b4
  refine ⟨?_, ?_, ?_, ?_, ?_, ?_, ?_, ?_⟩ <;> exact byteOfBits_getLsbD _ (by decide)

/-! ### Which abort a read meets -/

/-- The abort that an access meets, if it meets one. -/
def abortOf {α : Type} : Except AbortCause α → Option AbortCause
  | .ok _ => none
  | .error c => some c

theorem abortOf_eq_some {α : Type} {r : Except AbortCause α} {c : AbortCause} : abortOf r = some c ↔ r = .error c := by
  cases r <;> simp [abortOf]

theorem abortOf_eq_none {α : Type} {r : Except AbortCause α} : abortOf r = none ↔ ∃ a, r = .ok a := by
  cases r <;> simp [abortOf]

theorem State.abortOf_readByte (s : State) (sp : Space) (a : Addr) (k : Access) :
    abortOf (s.readByte sp a k) = abortOf (s.translate sp a k) := by
  unfold State.readByte
  cases s.translate sp a k <;> rfl

/-- A read of several bytes meets the abort of its first byte, or else that of the others. -/
theorem State.abortOf_readBytes_succ (s : State) (sp : Space) (n : Nat) (a : Addr) :
    abortOf (s.readBytes sp (n + 1) a)
      = (abortOf (s.translate sp a .read)).or (abortOf (s.readBytes sp n (s.cfg.trunc (a + 1)))) := by
  rw [← State.abortOf_readByte, State.readBytes]
  cases s.readByte sp a .read with
  | error c => rfl
  | ok b => cases s.readBytes sp n (s.cfg.trunc (a + 1)) <;> rfl

/-- Memory does not decide which abort a read meets: the parameters and the translation switch do. -/
theorem State.abortOf_readBytes_congr {s t : State} (hc : t.cfg = s.cfg) (hx : t.xlateOn = s.xlateOn) (sp : Space)
    (n : Nat) (a : Addr) : abortOf (t.readBytes sp n a) = abortOf (s.readBytes sp n a) := by
  induction n generalizing a with
  | zero => rfl
  | succ n ih => rw [State.abortOf_readBytes_succ, State.abortOf_readBytes_succ, State.translate_congr hc hx, hc, ih]

theorem State.abortOf_tableTarget (s : State) (base va : Addr) :
    abortOf (s.tableTarget base va) = abortOf (s.readBytes .hyp 2 va) := by
  unfold State.tableTarget State.readVector
  cases s.readBytes .hyp 2 va <;> rfl

theorem State.abortOf_legacyTarget (s : State) (sp : Space) (k : Nat) :
    abortOf (s.legacyTarget sp k) = abortOf (s.readBytes sp 2 (s.cfg.negAddr k)) := by
  unfold State.legacyTarget State.readVector
  cases s.readBytes sp 2 (s.cfg.negAddr k) <;> rfl

theorem State.abortOf_tableTarget_congr {s t : State} (hc : t.cfg = s.cfg) (hx : t.xlateOn = s.xlateOn) (base va : Addr) :
    abortOf (t.tableTarget base va) = abortOf (s.tableTarget base va) := by
  rw [State.abortOf_tableTarget, State.abortOf_tableTarget, State.abortOf_readBytes_congr hc hx]

theorem State.abortOf_legacyTarget_congr {s t : State} (hc : t.cfg = s.cfg) (hx : t.xlateOn = s.xlateOn) (sp : Space)
    (k : Nat) : abortOf (t.legacyTarget sp k) = abortOf (s.legacyTarget sp k) := by
  rw [State.abortOf_legacyTarget, State.abortOf_legacyTarget, hc, State.abortOf_readBytes_congr hc hx]

/-! ### Where the vectors are read -/

/-- All that says where the vectors of a mode lie and whether they can be read: the parameters, the translation switch and
the base registers with their active flags. -/
def State.tables (s : State) : Config × Bool × (Addr × Bool) × (Addr × Bool) × (Addr × Bool) :=
  (s.cfg, s.xlateOn, (s.ibr, s.ibrActive), (s.abr, s.abrActive), (s.tbr, s.tbrActive))

theorem State.tables_eq_iff {s t : State} : t.tables = s.tables ↔
    t.cfg = s.cfg ∧ t.xlateOn = s.xlateOn ∧ (t.ibr = s.ibr ∧ t.ibrActive = s.ibrActive)
      ∧ (t.abr = s.abr ∧ t.abrActive = s.abrActive) ∧ t.tbr = s.tbr ∧ t.tbrActive = s.tbrActive := by
  simp only [State.tables, Prod.mk.injEq]

theorem State.tables_brkSetsFlag (s : State) : s.brkSetsFlag.tables = s.tables := by
  simp [State.tables]

/-- Pushes leave the vectors where they are. -/
theorem State.tables_of_pushBytes {m : Mode} {bs : List Byte} {s t : State} (h : State.pushBytes m bs s = .done t) :
    t.tables = s.tables := by
  have hkeeps : Survives fun u => u.tables = s.tables := Survives.of_unwritten State.tables (fun _ _ _ _ _ _ _ _ => rfl) _
  have hall := hkeeps.pushBytes (m := m) (bs := bs) rfl
  rwa [h] at hall

/-- The vector of a trap can be read, or meets an abort, whatever lies in memory and whatever the mode. -/
theorem State.abortOf_trapTarget_congr {s t : State} (h : t.tables = s.tables) (n : Byte) :
    abortOf (t.trapTarget n) = abortOf (s.trapTarget n) := by
  obtain ⟨hc, hx, -, -, htbr, hactive⟩ := State.tables_eq_iff.1 h
  unfold State.trapTarget State.trapVectorAddr
  rw [hactive, htbr, hc]
  split
  · exact State.abortOf_tableTarget_congr hc hx _ _
  · exact State.abortOf_legacyTarget_congr hc hx _ _

/-- The vector of BRK can be read, or meets an abort, whatever lies in memory. -/
theorem State.abortOf_brkTarget_congr {s t : State} (h : t.tables = s.tables) (hmode : t.mode = s.mode) :
    abortOf t.brkTarget = abortOf s.brkTarget := by
  obtain ⟨hc, hx, -, ⟨habr, hactive⟩, -⟩ := State.tables_eq_iff.1 h
  unfold State.brkTarget State.abortVectorAddr
  rw [hmode, hactive, habr, hc]
  cases s.mode with
  | user => exact State.abortOf_legacyTarget_congr hc hx _ _
  | hyp =>
    dsimp only
    split
    · exact State.abortOf_tableTarget_congr hc hx _ _
    · exact State.abortOf_legacyTarget_congr hc hx _ _

/-! ### What the two instructions come to -/

@[simp] theorem orAbort_ok (s : State) (a : Addr) (k : Addr → Effect) : orAbort s (.ok a) k = k a := rfl
@[simp] theorem orAbort_error (s : State) (c : AbortCause) (k : Addr → Effect) :
    orAbort s (.error c) k = .abort c s := rfl

theorem pushOrAbort_of_done {m : Mode} {frame : List Byte} {s s1 : State} {k : State → Effect}
    (h : State.pushBytes m frame s = .done s1) : pushOrAbort m frame s k = k s1 := by
  simp only [pushOrAbort, h]

theorem pushOrAbort_of_aborted {m : Mode} {frame : List Byte} {s s1 : State} {c : AbortCause} {k : State → Effect}
    (h : State.pushBytes m frame s = .aborted c s1) : pushOrAbort m frame s k = .abort c s1 := by
  simp only [pushOrAbort, h]

theorem State.trapAllowed_iff (s : State) (n : Byte) : s.trapAllowed n = true ↔ n.toNat < s.tmv := decide_eq_true_iff

/-- The effect of TRAP where TMV allows the number. -/
theorem trapEffect_of_lt {n : Byte} {s : State} (h : n.toNat < s.tmv) :
    trapEffect n s = pushOrAbort .hyp (s.trapFrame (s.nextPc (.trap n))) s fun s1 =>
      orAbort { s1 with mode := .hyp } (({ s1 with mode := .hyp } : State).trapTarget n) fun target =>
        .next { s1 with mode := .hyp, pc := target } :=
  if_pos ((s.trapAllowed_iff n).2 h)

/-- A number not below TMV is a MAXTRAP abort. -/
theorem exec_trap_of_le {n : Byte} {s : State} (h : s.tmv ≤ n.toNat) : exec (.trap n) s = raiseAbort .maxtrap s := by
  have heffect : trapEffect n s = .abort .maxtrap s := if_neg (by rw [s.trapAllowed_iff]; omega)
  rw [exec_eq_finish, instrEffect, heffect, Effect.finish_abort]

/-- Settles O35: TMV is 0 after reset, so that no number is below it. -/
theorem trapNotAllowedAborts : Obligations.TrapNotAllowedAborts := fun _ _ =>
  ⟨exec_trap_of_le, exec_trap_of_le (Nat.zero_le _)⟩

theorem exec_trap_of_aborted {n : Byte} {s s1 : State} {c : AbortCause} (h : n.toNat < s.tmv)
    (hpush : State.pushBytes .hyp (s.trapFrame (s.nextPc (.trap n))) s = .aborted c s1) :
    exec (.trap n) s = raiseAbort c s1 := by
  rw [exec_eq_finish, instrEffect, trapEffect_of_lt h, pushOrAbort_of_aborted hpush, Effect.finish_abort]

/-- TRAP after its pushes: the vector is read in hypervisor mode. -/
theorem exec_trap_of_done {n : Byte} {s s1 : State} (h : n.toNat < s.tmv)
    (hpush : State.pushBytes .hyp (s.trapFrame (s.nextPc (.trap n))) s = .done s1) :
    exec (.trap n) s = (orAbort { s1 with mode := .hyp } (({ s1 with mode := .hyp } : State).trapTarget n) fun target =>
      .next { s1 with mode := .hyp, pc := target }).finish := by
  rw [exec_eq_finish, instrEffect, trapEffect_of_lt h, pushOrAbort_of_done hpush]

theorem exec_brk_of_aborted {s s1 : State} {c : AbortCause}
    (hpush : State.pushBytes s.mode (s.brkFrame s.brkReturn) s = .aborted c s1) : exec .brk s = raiseAbort c s1 := by
  rw [exec_eq_finish, instrEffect, brkEffect, pushOrAbort_of_aborted hpush, Effect.finish_abort]

/-- BRK after its pushes: the interrupt flag, then the vector. -/
theorem exec_brk_of_done {s s1 : State} (hpush : State.pushBytes s.mode (s.brkFrame s.brkReturn) s = .done s1) :
    exec .brk s = (orAbort s1.brkSetsFlag s1.brkSetsFlag.brkTarget fun target =>
      .next { s1.brkSetsFlag with pc := target }).finish := by
  rw [exec_eq_finish, instrEffect, brkEffect, pushOrAbort_of_done hpush]

theorem State.brkSetsFlag_eq (s : State) :
    s.brkSetsFlag = { s with p := if s.cfg.brkSetsI then { s.p with i := true } else s.p } := by
  unfold State.brkSetsFlag
  split <;> rfl

/-! ### The vectors after the pushes -/

/-- What pushes that are done make of the state: the pointer moves by their number, and memory changes. -/
theorem State.pushBytes_done_eq {m : Mode} {bs : List Byte} {s t : State} (h : State.pushBytes m bs s = .done t) :
    t = { s.setSp m (s.cfg.decSpN bs.length (s.sp m)) with mem := t.mem } := by
  obtain ⟨hsame, hsp, -⟩ := State.pushBytes_done h
  rw [← hsp]
  exact hsame

theorem abortOf_trapTarget_of_done {m : Mode} {bs : List Byte} {s s1 : State} (h : State.pushBytes m bs s = .done s1)
    (n : Byte) : abortOf (({ s1 with mode := .hyp } : State).trapTarget n) = abortOf (s.trapTarget n) := by
  have htables : s1.tables = s.tables := State.tables_of_pushBytes h
  exact State.abortOf_trapTarget_congr htables n

theorem abortOf_brkTarget_of_done {m : Mode} {bs : List Byte} {s s1 : State} (h : State.pushBytes m bs s = .done s1) :
    abortOf s1.brkSetsFlag.brkTarget = abortOf s.brkTarget := by
  refine State.abortOf_brkTarget_congr (s1.tables_brkSetsFlag.trans (State.tables_of_pushBytes h)) ?_
  rw [State.brkSetsFlag_mode, State.pushBytes_done_eq h, State.setSp_mode]

/-- Settles O37: the pushes change nothing that the abort of the vector read depends on, so it is the abort that the read
would have met before them. -/
theorem entryInstructionMemoryAborts : Obligations.EntryInstructionMemoryAborts := by
  intro s s1 n c
  refine ⟨exec_trap_of_aborted, fun hn hpush hvector => ?_, exec_brk_of_aborted, fun hpush hvector => ?_⟩
  · have hafter := (abortOf_trapTarget_of_done hpush n).trans (abortOf_eq_some.2 hvector)
    rw [exec_trap_of_done hn hpush, abortOf_eq_some.1 hafter, orAbort_error, Effect.finish_abort]
  · have hafter := (abortOf_brkTarget_of_done hpush).trans (abortOf_eq_some.2 hvector)
    have hcfg : s1.cfg = s.cfg := by rw [State.pushBytes_done_eq hpush, State.setSp_cfg]
    have hp : s1.p = s.p := by rw [State.pushBytes_done_eq hpush, State.setSp_p]
    rw [exec_brk_of_done hpush, abortOf_eq_some.1 hafter, orAbort_error, Effect.finish_abort, State.brkSetsFlag_eq, hcfg, hp]

/-! ### The handlers -/

/-- Pushes that can be made leave the bytes on the stack. -/
theorem State.pushBytes_stackHolds {m : Mode} {bs : List Byte} {s : State} (hwf : s.mem.wf s.cfg.fill)
    (h : s.CanPush m bs.length) : ∃ s1, State.pushBytes m bs s = .done s1 ∧ s.StackHolds s1 m bs := by
  obtain ⟨s1, hpush⟩ := State.pushBytes_of_canPush h
  obtain ⟨-, -, -, hmem, -⟩ := State.pushBytes_done hpush
  exact ⟨s1, hpush, (hmem hwf).1⟩

/-- What a stack holds is a matter of memory. -/
theorem State.StackHolds.congr {s t u : State} {m : Mode} {bs : List Byte} (h : s.StackHolds t m bs)
    (hpeek : t.SameMemory u) : s.StackHolds u m bs where
  stored k hk pa hpa hlater := (hpeek pa).trans (h.stored k hk pa hpa hlater)
  kept pa hpa := (hpeek pa).trans (h.kept pa hpa)

theorem State.trapFrame_length (s : State) (ra : Addr) :
    (s.trapFrame ra).length = (s.cfg.frameWidth s.mode).bytes + 1 := by simp [State.trapFrame]

theorem State.brkFrame_length (s : State) (ra : Addr) :
    (s.brkFrame ra).length = (s.cfg.nativeWidth s.mode).bytes + 1 := by simp [State.brkFrame]

/-- The address after a TRAP: its opcode and one operand byte further. -/
theorem State.nextPc_trap (s : State) (n : Byte) :
    s.nextPc (.trap n) = s.cfg.trunc (s.pc + BitVec.ofNat 64 (s.cfg.opcodes.trap.length + 1)) := by
  simp [State.nextPc, Instr.length, encode, Instr.opcode, Instr.operandBytes]

/-- Settles O34: the pushes are done, and the vector that could be read before them can be read after them. -/
theorem trapEntersHandler : Obligations.TrapEntersHandler := by
  intro s n hn hwf hcan hvector
  rw [← s.trapFrame_length (s.nextPc (.trap n))] at hcan ⊢
  obtain ⟨s1, hpush, hstack⟩ := State.pushBytes_stackHolds hwf hcan
  obtain ⟨target, htarget⟩ := abortOf_eq_none.1
    ((abortOf_trapTarget_of_done hpush n).trans (abortOf_eq_none.2 hvector))
  refine ⟨{ s1 with mode := .hyp, pc := target }, ?_, ?_, htarget, ?_⟩
  · rw [exec_trap_of_done hn hpush, htarget, orAbort_ok, Effect.finish_of_next]
  · rw [State.pushBytes_done_eq hpush]
    rfl
  · rw [← s.nextPc_trap n]
    exact hstack.congr fun _ => rfl

/-- Settles O36: as for TRAP, on the stack of the current mode and with the interrupt flag set where a parameter says so. -/
theorem brkEntersHandler : Obligations.BrkEntersHandler := by
  intro s hwf hcan hvector
  rw [← s.brkFrame_length s.brkReturn] at hcan ⊢
  obtain ⟨s1, hpush, hstack⟩ := State.pushBytes_stackHolds hwf hcan
  obtain ⟨target, htarget⟩ := abortOf_eq_none.1
    ((abortOf_brkTarget_of_done hpush).trans (abortOf_eq_none.2 hvector))
  refine ⟨{ s1.brkSetsFlag with pc := target }, ?_, ?_, htarget, hstack.congr fun _ => ?_⟩
  · rw [exec_brk_of_done hpush, htarget, orAbort_ok, Effect.finish_of_next]
  · rw [State.brkSetsFlag_eq, State.pushBytes_done_eq hpush]
    simp
  · rw [State.brkSetsFlag_eq]
    rfl

end Sys2Proof.Machine

/-! PROOF. RTI and RTU (42_rti_and_rtu.md): what each comes to, pull by pull, and the frames that pair them with interrupt
entry, TRAP and BRK. -/

namespace Sys2Proof

/-- Sign extension from a width looks at the bytes of that width only. -/
theorem FrameWidth.signExtend_valueLE_bytesLE (w : FrameWidth) (a : Addr) :
    w.signExtend (valueLE (bytesLE w.bytes a)) = w.signExtend a := by
  rw [valueLE_bytesLE]
  cases w <;> simp [FrameWidth.signExtend, FrameWidth.bytes]

/-- A frame of an address and up to two images is short enough for its bytes to go to different places. -/
theorem FrameWidth.bytes_add_le (w : FrameWidth) {k : Nat} (hk : k ≤ 2) : w.bytes + k ≤ 256 := by
  have hbytes := w.bytes_le
  omega

end Sys2Proof

namespace Sys2Proof.Machine

/-! ### Pulling byte by byte -/

section
variable {s : State} {m : Mode} {a t' : Addr} {b e : Byte} {bs : List Byte} {c : AbortCause}

theorem State.pullBytes_one_eq_error : s.pullBytes m 1 a = .error c ↔ s.pullByte m a = .error c := by
  simp only [State.pullBytes, State.pullByte]
  cases s.readByte m.space (s.cfg.incSp a) .read <;> simp

theorem State.pullBytes_one_eq_ok : s.pullBytes m 1 a = .ok ([b], t') ↔ s.pullByte m a = .ok (b, t') := by
  simp only [State.pullBytes, State.pullByte]
  cases s.readByte m.space (s.cfg.incSp a) .read <;> simp

/-- A run of pulls is the pull of one byte and then that of the others. -/
theorem State.pullBytes_one_add_eq_ok {k : Nat} :
    s.pullBytes m (1 + k) a = .ok (b :: bs, t') ↔
      ∃ t, s.pullByte m a = .ok (b, t) ∧ s.pullBytes m k t = .ok (bs, t') := by
  rw [Nat.add_comm]
  simp only [State.pullBytes, State.pullByte]
  cases s.readByte m.space (s.cfg.incSp a) .read with
  | error c => simp
  | ok b' => cases h : s.pullBytes m k (s.cfg.incSp a) <;> simp [h, and_assoc, Prod.ext_iff]

theorem State.pullBytes_two_eq_ok :
    s.pullBytes m 2 a = .ok ([b, e], t') ↔ ∃ t, s.pullByte m a = .ok (b, t) ∧ s.pullByte m t = .ok (e, t') := by
  simp only [← State.pullBytes_one_eq_ok (b := e)]
  exact State.pullBytes_one_add_eq_ok (k := 1)

theorem State.pullBytes_two_add_eq_ok {k : Nat} :
    s.pullBytes m (2 + k) a = .ok (b :: e :: bs, t') ↔
      ∃ t u, s.pullByte m a = .ok (b, t) ∧ s.pullByte m t = .ok (e, u) ∧ s.pullBytes m k u = .ok (bs, t') := by
  have hadd : 2 + k = 1 + (1 + k) := by omega
  simp only [hadd, State.pullBytes_one_add_eq_ok, exists_and_left]

theorem State.pullValue_of_ok {w : FrameWidth} (h : s.pullBytes m w.bytes a = .ok (bs, t')) :
    s.pullValue m w a = .ok (valueLE bs, t') := by
  simp only [State.pullValue, h]

theorem State.pullValue_of_error {w : FrameWidth} (h : s.pullBytes m w.bytes a = .error c) :
    s.pullValue m w a = .error c := by
  simp only [State.pullValue, h]

end

/-! ### The ends of the two returns -/

section
variable {s : State} {m : Mode} {a t : Addr} {e : Byte} {bs : List Byte} {c : AbortCause} {w : FrameWidth}
  (commit : State → State)

theorem returnStandard_of_ok (h : s.pullBytes s.mode (s.cfg.nativeWidth s.mode).bytes a = .ok (bs, t)) :
    returnStandard a commit s
      = .next ((commit (s.setSp s.mode t)).loadPc (s.cfg.nativeWidth s.mode) (valueLE bs)) := by
  simp only [returnStandard, State.pullValue_of_ok h]

theorem returnStandard_of_error (h : s.pullBytes s.mode (s.cfg.nativeWidth s.mode).bytes a = .error c) :
    returnStandard a commit s = .abort c s := by
  simp only [returnStandard, State.pullValue_of_error h]

/-- An image that says user mode is refused without the supervisor feature, whatever width it records. -/
theorem returnExtended_of_noSupervisor (hs : s.cfg.hasSupervisor = false) (he : s.cfg.esr.decodeMode e = .user) :
    returnExtended m e a commit s = .refused .noSupervisorFeature :=
  if_pos ⟨hs, he⟩

/-- The mode of the image is one that the processor has. -/
theorem not_noSupervisor_and_user (h : s.cfg.esr.decodeMode e = .user → s.cfg.hasSupervisor = true) :
    ¬ (s.cfg.hasSupervisor = false ∧ s.cfg.esr.decodeMode e = .user) := fun ⟨hs, he⟩ => by simp [h he] at hs

theorem returnExtended_of_invalidWidth (h : s.cfg.esr.decodeMode e = .user → s.cfg.hasSupervisor = true)
    (hw : s.cfg.esr.decodeWidth e = none) : returnExtended m e a commit s = .refused .invalidAddressWidth := by
  simp only [returnExtended, if_neg (not_noSupervisor_and_user h), hw]

theorem returnExtended_of_ok (h : s.cfg.esr.decodeMode e = .user → s.cfg.hasSupervisor = true)
    (hw : s.cfg.esr.decodeWidth e = some w) (hpull : s.pullBytes m w.bytes a = .ok (bs, t)) :
    returnExtended m e a commit s
      = .next ((commit { s.setSp m t with mode := s.cfg.esr.decodeMode e
                                          esrOther := s.cfg.esr.decodeOther e }).loadPc w (valueLE bs)) := by
  simp only [returnExtended, if_neg (not_noSupervisor_and_user h), hw, State.pullValue_of_ok hpull]

theorem returnExtended_of_error (h : s.cfg.esr.decodeMode e = .user → s.cfg.hasSupervisor = true)
    (hw : s.cfg.esr.decodeWidth e = some w) (hpull : s.pullBytes m w.bytes a = .error c) :
    returnExtended m e a commit s = .abort c s := by
  simp only [returnExtended, if_neg (not_noSupervisor_and_user h), hw, State.pullValue_of_error hpull]

end

/-! ### What RTI comes to, by the bytes it pulls -/

section
variable {s : State} {t u : Addr} {b e : Byte} {c : AbortCause}

theorem not_isStandardFrame (hb : b.getLsbD 5 = false) : ¬ isStandardFrame b = true := ne_true_of_eq_false hb

theorem exec_rti_of_error (h : s.pullByte s.mode (s.sp s.mode) = .error c) : exec .rti s = raiseAbort c s := by
  rw [exec_eq_finish]
  simp only [instrEffect, rtiEffect, h, Effect.finish_abort]

/-- Bit 5 of the status byte makes the frame a standard one. -/
theorem exec_rti_of_standard (h : s.pullByte s.mode (s.sp s.mode) = .ok (b, t)) (hb : b.getLsbD 5 = true) :
    exec .rti s = (returnStandard t (rtiCommit b) s).finish := by
  rw [exec_eq_finish]
  simp only [instrEffect, rtiEffect, h, if_pos (show isStandardFrame b = true from hb)]

theorem exec_rti_of_image_error (h : s.pullByte s.mode (s.sp s.mode) = .ok (b, t)) (hb : b.getLsbD 5 = false)
    (he : s.pullByte s.mode t = .error c) : exec .rti s = raiseAbort c s := by
  rw [exec_eq_finish]
  simp only [instrEffect, rtiEffect, h, if_neg (not_isStandardFrame hb), he, Effect.finish_abort]

/-- An image that would raise the privilege aborts. -/
theorem exec_rti_of_privilege (h : s.pullByte s.mode (s.sp s.mode) = .ok (b, t)) (hb : b.getLsbD 5 = false)
    (he : s.pullByte s.mode t = .ok (e, u)) (hmode : s.mode = .user) (himage : s.cfg.esr.decodeMode e = .hyp) :
    exec .rti s = raiseAbort .privrti s := by
  rw [exec_eq_finish]
  simp only [instrEffect, rtiEffect, h, if_neg (not_isStandardFrame hb), he, if_pos (And.intro hmode himage),
    Effect.finish_abort]

/-- An image of a mode that the current mode may return to ends the extended return. -/
theorem exec_rti_of_extended (h : s.pullByte s.mode (s.sp s.mode) = .ok (b, t)) (hb : b.getLsbD 5 = false)
    (he : s.pullByte s.mode t = .ok (e, u)) (hpriv : s.mode = .user → s.cfg.esr.decodeMode e = .user) :
    exec .rti s = (returnExtended s.mode e u (rtiCommit b) s).finish := by
  have hallowed : ¬ (s.mode = .user ∧ s.cfg.esr.decodeMode e = .hyp) := fun ⟨hu, hh⟩ => by simp [hpriv hu] at hh
  rw [exec_eq_finish]
  simp only [instrEffect, rtiEffect, h, if_neg (not_isStandardFrame hb), he, if_neg hallowed]

end

/-! ### What RTU comes to -/

section
variable {s : State} {t : Addr} {e : Byte} {c : AbortCause}

theorem exec_rtu_of_user (h : s.mode = .user) : exec .rtu s = raiseAbort .privop s := by
  rw [exec_eq_finish]
  simp only [instrEffect, rtuEffect, h, Effect.finish_abort]

theorem exec_rtu_of_error (hmode : s.mode = .hyp) (h : s.pullByte .hyp s.spHyp = .error c) :
    exec .rtu s = raiseAbort c s := by
  rw [exec_eq_finish]
  simp only [instrEffect, rtuEffect, hmode, h, Effect.finish_abort]

theorem exec_rtu_of_image (hmode : s.mode = .hyp) (h : s.pullByte .hyp s.spHyp = .ok (e, t)) :
    exec .rtu s = (returnExtended .hyp e t id s).finish := by
  rw [exec_eq_finish]
  simp only [instrEffect, rtuEffect, hmode, h]

end

/-! ### Aborts and refusals -/

/-- Settles O42: each pull stands before anything is written. -/
theorem returnMemoryAbortsCommitNothing : Obligations.ReturnMemoryAbortsCommitNothing := by
  intro s b e w sp c
  simp only [State.pullBytes_one_eq_error, State.pullBytes_one_eq_ok, State.pullBytes_two_eq_ok]
  refine ⟨exec_rti_of_error, fun h hb ha => ?_, exec_rti_of_image_error, ?_, exec_rtu_of_error, fun hm h hs hw ha => ?_⟩
  · rw [exec_rti_of_standard h hb, returnStandard_of_error _ ha, Effect.finish_abort]
  · rintro ⟨t, h, he⟩ hb hpriv hs hw ha
    rw [exec_rti_of_extended h hb he hpriv, returnExtended_of_error _ hs hw ha, Effect.finish_abort]
  · rw [exec_rtu_of_image hm h, returnExtended_of_error _ hs hw ha, Effect.finish_abort]

/-- Settles O40: the test of the image stands before anything is written. -/
theorem rtiCannotRaisePrivilege : Obligations.RtiCannotRaisePrivilege := by
  intro s b e sp hmode hpull hb himage
  obtain ⟨t, h, he⟩ := State.pullBytes_two_eq_ok.1 hpull
  have hsp : s.sp s.mode = s.spUser := by rw [hmode, State.sp_user]
  exact exec_rti_of_privilege (by rw [hsp, hmode]; exact h) hb (by rw [hmode]; exact he) hmode himage

/-- Settles O41: RTI and RTU end in one extended return, which refuses. -/
theorem returnsRefuseUnreadableImages : Obligations.ReturnsRefuseUnreadableImages := by
  intro s b e sp
  simp only [State.pullBytes_one_eq_ok, State.pullBytes_two_eq_ok]
  refine ⟨?_, fun hmode h => ?_⟩
  · rintro ⟨t, h, he⟩ hb hpriv
    rw [exec_rti_of_extended h hb he hpriv]
    exact ⟨fun hs hu => by rw [returnExtended_of_noSupervisor _ hs hu, Effect.finish_refused],
      fun hs hw => by rw [returnExtended_of_invalidWidth _ hs hw, Effect.finish_refused]⟩
  · rw [exec_rtu_of_image hmode h]
    exact ⟨fun hs hu => by rw [returnExtended_of_noSupervisor _ hs hu, Effect.finish_refused],
      fun hs hw => by rw [returnExtended_of_invalidWidth _ hs hw, Effect.finish_refused]⟩

/-- The privilege test of JPU fails in user mode. -/
theorem enterUser_of_user {s : State} (hs : s.cfg.hasSupervisor = true) (hmode : s.mode = .user) (k : State → Effect) :
    enterUser s k = .abort .privop s := by
  simp only [enterUser, hs, hmode, if_true]

/-- Settles O44: each of the three tests the mode first. -/
theorem privilegedInstructionsAbortInUserMode : Obligations.PrivilegedInstructionsAbortInUserMode := by
  intro s operand hmode
  refine ⟨exec_rtu_of_user hmode, fun hs => ?_⟩
  rw [exec_eq_finish, exec_eq_finish]
  simp only [instrEffect, jpuAbsEffect, jpuIndEffect, enterUser_of_user hs hmode, Effect.finish_abort, and_self]

/-! ### Returns that complete -/

/-- The status register that RTI restores, bit by bit. -/
theorem statusAfterRti_eq (c : Config) (b : Byte) :
    statusAfterRti c b = { Status.ofImage b with i := b.getLsbD 2 && !c.rtiForcesIClear } := by
  unfold statusAfterRti
  cases c.rtiForcesIClear <;> simp [Status.withI, Status.ofImage]

/-- RTI restores the status register that an entry stacked, but for the interrupt flag where a parameter clears it. -/
theorem statusAfterRti_image (c : Config) (p : Status) (b5 b4 : Bool) :
    statusAfterRti c (p.image b5 b4) = { p with i := p.i && !c.rtiForcesIClear } := by
  unfold statusAfterRti
  rw [Status.ofImage_image]
  cases c.rtiForcesIClear <;> simp [Status.withI]

/-- What loading the program counter from a frame does: nothing else changes but the count of free values. -/
theorem State.loadPc_spec (s : State) (w : FrameWidth) (v : Addr) :
    s.loadPc w v = { s with pc := (s.loadPc w v).pc, draws := (s.loadPc w v).draws }
      ∧ (w.bytes ≤ s.cfg.addrWidth.bytes →
          (s.loadPc w v).draws = s.draws ∧ (s.loadPc w v).pc = s.cfg.trunc (w.signExtend v))
      ∧ (s.cfg.addrWidth.bytes < w.bytes → (s.loadPc w v).draws = s.draws + 1 ∧ s.cfg.fits (s.loadPc w v).pc) := by
  refine ⟨?_, fun h => ?_, fun h => ?_⟩
  · unfold State.loadPc
    split <;> rfl
  · rw [State.loadPc_narrow s h]
    exact ⟨rfl, rfl⟩
  · rw [State.loadPc_wide s h]
    exact ⟨rfl, Config.fits_trunc _ _⟩

section
variable {s : State} {b e : Byte} {bs : List Byte} {w : FrameWidth} {sp : Addr}

/-- RTI where a whole standard frame can be pulled. -/
theorem exec_rti_standard_next
    (hpull : s.pullBytes s.mode (1 + (s.cfg.nativeWidth s.mode).bytes) (s.sp s.mode) = .ok (b :: bs, sp))
    (hb : b.getLsbD 5 = true) :
    exec .rti s = .next ((rtiCommit b (s.setSp s.mode sp)).loadPc (s.cfg.nativeWidth s.mode) (valueLE bs)) := by
  obtain ⟨t, h, ha⟩ := State.pullBytes_one_add_eq_ok.1 hpull
  rw [exec_rti_of_standard h hb, returnStandard_of_ok _ ha, Effect.finish_of_next]

/-- RTI where a whole extended frame can be pulled. -/
theorem exec_rti_extended_next (hw : s.cfg.esr.decodeWidth e = some w)
    (hpull : s.pullBytes s.mode (2 + w.bytes) (s.sp s.mode) = .ok (b :: e :: bs, sp)) (hb : b.getLsbD 5 = false)
    (hpriv : s.mode = .user → s.cfg.esr.decodeMode e = .user)
    (hs : s.cfg.esr.decodeMode e = .user → s.cfg.hasSupervisor = true) :
    exec .rti s = .next ((rtiCommit b { s.setSp s.mode sp with
      mode := s.cfg.esr.decodeMode e, esrOther := s.cfg.esr.decodeOther e }).loadPc w (valueLE bs)) := by
  obtain ⟨t, u, h, he, ha⟩ := State.pullBytes_two_add_eq_ok.1 hpull
  rw [exec_rti_of_extended h hb he hpriv, returnExtended_of_ok _ hs hw ha, Effect.finish_of_next]

/-- RTU where a whole frame can be pulled. -/
theorem exec_rtu_next (hmode : s.mode = .hyp) (hw : s.cfg.esr.decodeWidth e = some w)
    (hpull : s.pullBytes .hyp (1 + w.bytes) s.spHyp = .ok (e :: bs, sp))
    (hs : s.cfg.esr.decodeMode e = .user → s.cfg.hasSupervisor = true) :
    exec .rtu s = .next (({ s with
      spHyp := sp, mode := s.cfg.esr.decodeMode e, esrOther := s.cfg.esr.decodeOther e } : State).loadPc w (valueLE bs)) := by
  obtain ⟨t, h, ha⟩ := State.pullBytes_one_add_eq_ok.1 hpull
  rw [exec_rtu_of_image hmode h, returnExtended_of_ok _ hs hw ha, Effect.finish_of_next]
  rfl

end

/-- Settles O38: the whole frame pulled, then all committed at once. -/
theorem rtiReturnsFromStandardFrame : Obligations.RtiReturnsFromStandardFrame := by
  intro s b bs sp hpull hb hwidth
  rw [exec_rti_standard_next hpull hb, State.loadPc_narrow _ (by simpa using hwidth), rtiCommit, statusAfterRti_eq]
  simp [Status.ofImage]

/-- Settles O39: the whole frame pulled, then all committed at once; the program counter as `loadPc` says. -/
theorem rtiReturnsFromExtendedFrame : Obligations.RtiReturnsFromExtendedFrame := by
  intro s b e bs w sp hw hpull hb hpriv hs
  refine ⟨_, exec_rti_extended_next hw hpull hb hpriv hs, ?_⟩
  obtain ⟨heq, hnarrow, hwide⟩ := State.loadPc_spec (rtiCommit b { s.setSp s.mode sp with
      mode := s.cfg.esr.decodeMode e, esrOther := s.cfg.esr.decodeOther e }) w (valueLE bs)
  refine ⟨heq.trans ?_, by simpa using hnarrow, by simpa using hwide⟩
  rw [rtiCommit, statusAfterRti_eq]
  simp [Status.ofImage]

/-- Settles O43: as for RTI, without a status byte. -/
theorem rtuReturnsFromTrapFrame : Obligations.RtuReturnsFromTrapFrame := by
  intro s e bs w sp hmode hw hpull hs
  exact ⟨_, exec_rtu_next hmode hw hpull hs, State.loadPc_spec _ w (valueLE bs)⟩

/-! ### Frames and the returns that undo them -/

/-- A frame that is still on the stack can be pulled, its last byte first, and leaves the stack pointer as it was before the
frame. -/
theorem State.StackHolds.pullBytes {s u : State} {m : Mode} {bs : List Byte} (hst : s.StackHolds u m bs) (hs : s.Flat)
    (hu : u.Flat) (hcfg : u.cfg = s.cfg) (hfits : s.cfg.fits (s.sp m)) (hlen : bs.length ≤ 256)
    (hsp : u.sp m = s.cfg.decSpN bs.length (s.sp m)) :
    u.pullBytes m bs.length (u.sp m) = .ok (bs.reverse, s.sp m) := by
  rw [hsp, ← hcfg]
  refine State.pullBytes_of_stack hu m (by rw [hcfg]; exact hfits) bs fun k hk => ?_
  rw [hcfg]
  exact hst.peek_decSpN hs hfits hlen hk

/-- A stacked address that is the sign extension of its bytes comes back. -/
theorem State.loadPc_stacked {s : State} {w : FrameWidth} {a : Addr} (h : w.bytes ≤ s.cfg.addrWidth.bytes)
    (ha : a = s.cfg.trunc (w.signExtend a)) : s.loadPc w (valueLE (bytesLE w.bytes a)) = { s with pc := a } := by
  rw [State.loadPc_narrow s h, FrameWidth.signExtend_valueLE_bytesLE, ← ha]

theorem State.trapFrame_reverse (s : State) (ra : Addr) :
    (s.trapFrame ra).reverse = s.extendedImage :: bytesLE (s.cfg.frameWidth s.mode).bytes ra := by
  simp [State.trapFrame, addressBytes]

theorem State.entryFrame_reverse (s : State) (ra : Addr) :
    (s.entryFrame ra).reverse
      = s.p.image false s.cfg.entryImageB :: s.extendedImage :: bytesLE (s.cfg.frameWidth s.mode).bytes ra := by
  simp [State.entryFrame, State.trapFrame_reverse]

theorem State.brkFrame_reverse (s : State) (ra : Addr) :
    (s.brkFrame ra).reverse = s.p.image true s.cfg.brkImageB :: bytesLE (s.cfg.nativeWidth s.mode).bytes ra := by
  simp [State.brkFrame, addressBytes]

theorem State.entryFrame_length (s : State) (ra : Addr) :
    (s.entryFrame ra).length = (s.cfg.frameWidth s.mode).bytes + 2 := by
  simp [State.entryFrame, State.trapFrame_length]

/-! ### Vectors without translation -/

theorem State.abortOf_readBytes_flat {s : State} (h : s.Flat) (sp : Space) (n : Nat) (a : Addr) :
    abortOf (s.readBytes sp n a) = none := by
  induction n generalizing a with
  | zero => rfl
  | succ n ih =>
    rw [State.abortOf_readBytes_succ, State.translate_flat h, ih]
    rfl

/-- Without translation every vector can be read. -/
theorem State.tableTarget_flat {s : State} (h : s.Flat) (base va : Addr) : ∃ a, s.tableTarget base va = .ok a :=
  abortOf_eq_none.1 (by rw [State.abortOf_tableTarget, State.abortOf_readBytes_flat h])

theorem State.legacyTarget_flat {s : State} (h : s.Flat) (sp : Space) (k : Nat) : ∃ a, s.legacyTarget sp k = .ok a :=
  abortOf_eq_none.1 (by rw [State.abortOf_legacyTarget, State.abortOf_readBytes_flat h])

theorem State.trapTarget_flat {s : State} (h : s.Flat) (n : Byte) : ∃ a, s.trapTarget n = .ok a := by
  unfold State.trapTarget
  split
  · exact State.tableTarget_flat h _ _
  · exact State.legacyTarget_flat h _ _

theorem State.brkTarget_flat {s : State} (h : s.Flat) : ∃ a, s.brkTarget = .ok a := by
  unfold State.brkTarget
  cases s.mode with
  | user => exact State.legacyTarget_flat h _ _
  | hyp =>
    dsimp only
    split
    · exact State.tableTarget_flat h _ _
    · exact State.legacyTarget_flat h _ _

/-- Without translation an allowed TRAP moves the hypervisor stack pointer past its frame and leaves the frame there. -/
theorem exec_trap_flat {s t : State} {n : Byte} (hwf : s.mem.wf s.cfg.fill) (h : s.Flat) (hn : n.toNat < s.tmv)
    (hexec : exec (.trap n) s = .next t) :
    t.spHyp = s.cfg.decSpN (s.trapFrame (s.nextPc (.trap n))).length s.spHyp
      ∧ s.StackHolds t .hyp (s.trapFrame (s.nextPc (.trap n))) := by
  obtain ⟨t', hexec', ht', -, hstack⟩ :=
    trapEntersHandler s n hn hwf (State.canPush_of_flat h _ _) (State.trapTarget_flat h n)
  cases hexec.symm.trans hexec'
  rw [← s.nextPc_trap n] at hstack
  rw [State.trapFrame_length]
  exact ⟨congrArg State.spHyp ht', hstack⟩

/-- Without translation BRK moves the stack pointer of the current mode past its frame and leaves the frame there. -/
theorem exec_brk_flat {s t : State} (hwf : s.mem.wf s.cfg.fill) (h : s.Flat) (hexec : exec .brk s = .next t) :
    t.sp s.mode = s.cfg.decSpN (s.brkFrame s.brkReturn).length (s.sp s.mode)
      ∧ s.StackHolds t s.mode (s.brkFrame s.brkReturn) := by
  obtain ⟨t', hexec', ht', -, hstack⟩ :=
    brkEntersHandler s hwf (State.canPush_of_flat h _ _) (State.brkTarget_flat h)
  cases hexec.symm.trans hexec'
  rw [State.brkFrame_length]
  refine ⟨(congrArg (State.sp · s.mode) ht').trans ?_, hstack⟩
  exact State.sp_setSp _ _ _

/-! ### The pairings -/

/-- The image that an entry stacks records the mode, the width of the frame and the other bits of ESR. -/
theorem State.decode_extendedImage {s : State} (h : s.cfg.Wf) :
    s.cfg.esr.decodeMode s.extendedImage = s.mode
      ∧ s.cfg.esr.decodeWidth s.extendedImage = some (s.cfg.frameWidth s.mode)
      ∧ s.cfg.esr.decodeOther s.extendedImage = s.esrOther :=
  extendedStatusRoundTrip _ _ _ _ h.esr

section
variable {s u : State} {ra : Addr} (hinv : s.Inv) (hcfg : u.cfg = s.cfg)
include hinv hcfg

/-- RTI in hypervisor mode over a frame that an entry made. -/
theorem exec_rti_of_entryFrame (humode : u.mode = .hyp)
    (hra : ra = s.cfg.trunc ((s.cfg.frameWidth s.mode).signExtend ra))
    (hpull : u.pullBytes .hyp (s.entryFrame ra).length u.spHyp = .ok ((s.entryFrame ra).reverse, s.spHyp)) :
    exec .rti u = .next { u with
      pc := ra, mode := s.mode, spHyp := s.spHyp, esrOther := s.esrOther, eim := .clear,
      p := { s.p with i := s.p.i && !s.cfg.rtiForcesIClear } } := by
  obtain ⟨hmode, hwidth, hother⟩ := State.decode_extendedImage hinv.cfg
  obtain ⟨-, -, hframe, -⟩ := statusImageBits s.p false s.cfg.entryImageB
  rw [State.entryFrame_length, State.entryFrame_reverse, Nat.add_comm] at hpull
  rw [← hcfg] at hmode hwidth hother hra
  rw [exec_rti_extended_next hwidth (by rw [humode, State.sp_hyp, hcfg]; exact hpull) hframe (by simp [humode])
    (by rw [hmode, hcfg]; exact hinv.mode), hcfg, State.loadPc_stacked (by simpa [hcfg] using hinv.cfg.frame s.mode)
    (by simpa [hcfg] using hra), rtiCommit, statusAfterRti_image]
  simp [← hcfg, hmode, hother, humode]

/-- RTU over a frame that a TRAP made. -/
theorem exec_rtu_of_trapFrame (humode : u.mode = .hyp)
    (hra : ra = s.cfg.trunc ((s.cfg.frameWidth s.mode).signExtend ra))
    (hpull : u.pullBytes .hyp (s.trapFrame ra).length u.spHyp = .ok ((s.trapFrame ra).reverse, s.spHyp)) :
    exec .rtu u = .next { u with pc := ra, mode := s.mode, spHyp := s.spHyp, esrOther := s.esrOther } := by
  obtain ⟨hmode, hwidth, hother⟩ := State.decode_extendedImage hinv.cfg
  rw [State.trapFrame_length, State.trapFrame_reverse, Nat.add_comm] at hpull
  rw [← hcfg] at hmode hwidth hother hra
  rw [exec_rtu_next humode hwidth (by rw [hcfg]; exact hpull) (by rw [hmode, hcfg]; exact hinv.mode), hcfg,
    State.loadPc_stacked (by simpa [hcfg] using hinv.cfg.frame s.mode) (by simpa [hcfg] using hra)]
  simp [← hcfg, hmode, hother]

/-- RTI over a frame that BRK made in the same mode. -/
theorem exec_rti_of_brkFrame (humode : u.mode = s.mode)
    (hra : ra = s.cfg.trunc ((s.cfg.nativeWidth s.mode).signExtend ra))
    (hpull : u.pullBytes s.mode (s.brkFrame ra).length (u.sp s.mode) = .ok ((s.brkFrame ra).reverse, s.sp s.mode)) :
    exec .rti u = .next { u.setSp s.mode (s.sp s.mode) with
      pc := ra, eim := .clear, p := { s.p with i := s.p.i && !s.cfg.rtiForcesIClear } } := by
  obtain ⟨-, -, hframe, -⟩ := statusImageBits s.p true s.cfg.brkImageB
  rw [State.brkFrame_length, State.brkFrame_reverse, Nat.add_comm] at hpull
  rw [exec_rti_standard_next (by rw [humode, hcfg]; exact hpull) hframe, humode, hcfg,
    State.loadPc_stacked (by simpa [hcfg] using hinv.cfg.native s.mode) (by simpa [hcfg] using hra), rtiCommit,
    statusAfterRti_image]
  simp [hcfg]

end

/-- Settles O51: the handler's stack still holds the frame, which gives back what it was made of. -/
theorem rtiResumesInterrupted : Obligations.RtiResumesInterrupted := by
  intro s t u n hinv hflat hentry hpc hcfg huflat humode husp hmem
  obtain ⟨heq, -, hstacked, -⟩ := takeInterrupt_next hentry
  obtain ⟨hstack, -⟩ := hstacked hinv.mem.1
  have htsp : t.spHyp = s.cfg.decSpN (s.entryFrame s.pc).length s.spHyp := congrArg State.spHyp heq
  have hlen : (s.entryFrame s.pc).length ≤ 256 := by
    rw [State.entryFrame_length]
    exact FrameWidth.bytes_add_le _ (by decide)
  exact exec_rti_of_entryFrame hinv hcfg humode hpc
    ((hstack.congr hmem).pullBytes hflat huflat hcfg hinv.spHyp hlen (husp.trans htsp))

/-- Settles O52: as for an interrupt, without a status byte. -/
theorem rtuResumesTrapped : Obligations.RtuResumesTrapped := by
  intro s t u n hinv hflat hn hexec hpc hcfg huflat humode husp hmem
  obtain ⟨htsp, hstack⟩ := exec_trap_flat hinv.mem.1 hflat hn hexec
  have hlen : (s.trapFrame (s.nextPc (.trap n))).length ≤ 256 := by
    rw [State.trapFrame_length]
    exact FrameWidth.bytes_add_le _ (by decide)
  exact exec_rtu_of_trapFrame hinv hcfg humode hpc
    ((hstack.congr hmem).pullBytes hflat huflat hcfg hinv.spHyp hlen (husp.trans htsp))

/-- Settles O53: as for an interrupt, on the stack of the current mode and with a standard frame. -/
theorem rtiReturnsFromBrk : Obligations.RtiReturnsFromBrk := by
  intro s t u hinv hflat hexec hpc hcfg huflat humode husp hmem
  obtain ⟨htsp, hstack⟩ := exec_brk_flat hinv.mem.1 hflat hexec
  have hlen : (s.brkFrame s.brkReturn).length ≤ 256 := by
    rw [State.brkFrame_length]
    exact FrameWidth.bytes_add_le _ (by decide)
  exact exec_rti_of_brkFrame hinv hcfg humode hpc
    ((hstack.congr hmem).pullBytes hflat huflat hcfg (hinv.fits_sp s.mode) hlen (husp.trans htsp))

end Sys2Proof.Machine

/-! PROOF. SEI, CLI and JPU (43_jpu_sei_cli.md): what the interrupt flag holds off after each of the first two, how JPU's
operand becomes an address, and what each form of JPU comes to once its privilege test is passed or has no meaning. -/

namespace Sys2Proof

/-! ### The operand address of JPU -/

theorem Config.extendOperand_bits16 {c : Config} (h : c.addrWidth = .bits16) (operand : Half) :
    c.extendOperand operand = operand.setWidth 64 := by
  simp only [Config.extendOperand, h]

/-- At 16 bits the operand is the address, which is its sign extension too. -/
theorem Config.extendOperand_signExtend {c : Config} (h : c.ext16 = .signExtend) (operand : Half) :
    c.extendOperand operand = c.signExtend operand := by
  cases hw : c.addrWidth with
  | bits16 => rw [Config.extendOperand_bits16 hw, Config.signExtend_bits16 hw]
  | bits32 => simp only [Config.extendOperand, hw, h]
  | bits64 => simp only [Config.extendOperand, hw, h]

theorem Config.extendOperand_zeroExtend {c : Config} (h : c.ext16 = .zeroExtend) (operand : Half) :
    c.extendOperand operand = operand.setWidth 64 := by
  cases hw : c.addrWidth with
  | bits16 => exact Config.extendOperand_bits16 hw operand
  | bits32 => simp only [Config.extendOperand, hw, h]
  | bits64 => simp only [Config.extendOperand, hw, h]

end Sys2Proof

namespace Sys2Proof.Machine

/-! ### The interrupt flag -/

/-- When an interrupt is acceptable, clause by clause. -/
theorem State.acceptable_iff (s : State) (n : Nat) : s.acceptable n = true ↔
    (n ∈ s.lines ∧ n < s.cfg.numInt) ∧ s.cfg.eimBlocks s.eim n = false
      ∧ (n = 0 ∨ s.p.i = false ∨ (s.mode = .user ∧ s.cfg.uimBlocks s.uim n = false)) := by
  simp [State.acceptable, and_assoc, or_assoc]

/-- A set flag in hypervisor mode holds off every interrupt but the NMI. -/
theorem State.acceptable_of_flag_hyp {s : State} (hi : s.p.i = true) (hmode : s.mode = .hyp) {n : Nat} (hn : n ≠ 0) :
    s.acceptable n = false := by
  rw [Bool.eq_false_iff, ne_eq, State.acceptable_iff]
  rintro ⟨-, -, h | h | ⟨h, -⟩⟩
  · exact hn h
  · simp [hi] at h
  · simp [hmode] at h

/-- In user mode no status register, and no program counter, matters to an interrupt that UIM lets through. -/
theorem State.acceptable_of_user {s : State} (hmode : s.mode = .user) {n : Nat} (hn : s.cfg.uimBlocks s.uim n = false)
    (p : Status) (a : Addr) : ({ s with p := p, pc := a } : State).acceptable n = s.acceptable n := by
  rw [Bool.eq_iff_iff, State.acceptable_iff, State.acceptable_iff]
  simp only [hmode, hn, and_self, or_true]

/-- With the flag and EIM clear nothing holds an asserting line off. -/
theorem State.acceptable_of_clear {s : State} (hi : s.p.i = false) (heim : s.eim = .clear) {n : Nat}
    (hline : n ∈ s.lines) (hn : n < s.cfg.numInt) : s.acceptable n = true :=
  (s.acceptable_iff n).2 ⟨⟨hline, hn⟩, by rw [heim, Config.eimBlocks_clear], .inr (.inl hi)⟩

/-- The address after SEI: its opcode is one byte. -/
theorem State.nextPc_sei (s : State) : s.nextPc .sei = s.cfg.trunc (s.pc + 1) := rfl

/-- The address after CLI: its opcode is one byte. -/
theorem State.nextPc_cli (s : State) : s.nextPc .cli = s.cfg.trunc (s.pc + 1) := rfl

theorem exec_sei (s : State) :
    exec .sei s = .next { s with p := { s.p with i := true }, pc := s.cfg.trunc (s.pc + 1) } := by
  rw [exec_eq_finish, ← State.nextPc_sei]
  rfl

theorem exec_cli (s : State) :
    exec .cli s = .next { s with p := { s.p with i := false }, eim := .clear, pc := s.cfg.trunc (s.pc + 1) } := by
  rw [exec_eq_finish, ← State.nextPc_cli]
  rfl

/-- Settles O32: in hypervisor mode the flag that SEI sets holds interrupts off, in user mode it decides nothing that UIM
does not block. -/
theorem seiSetsInterruptFlag : Obligations.SeiSetsInterruptFlag := by
  intro s
  refine ⟨_, exec_sei s, rfl, fun hmode n hn => ?_, fun hmode n hn => ?_⟩
  · refine State.acceptable_of_flag_hyp rfl ?_ hn
    exact hmode
  · exact (State.acceptable_of_user hmode hn _ _).trans (State.acceptable_of_user hmode hn _ s.pc).symm

/-- Settles O33: CLI leaves nothing that holds an interrupt off. -/
theorem cliClearsFlagAndMask : Obligations.CliClearsFlagAndMask := fun s =>
  ⟨_, exec_cli s, rfl, fun _ hline hn => State.acceptable_of_clear rfl rfl hline hn⟩

/-! ### JPU -/

/-- A processor without the supervisor feature gives JPU no meaning. -/
theorem enterUser_of_noSupervisor {s : State} (hs : s.cfg.hasSupervisor = false) (k : State → Effect) :
    enterUser s k = .refused .noSupervisorFeature := by
  simp only [enterUser, hs, Bool.false_eq_true, if_false]

/-- The privilege test of JPU passes in hypervisor mode. -/
theorem enterUser_of_hyp {s : State} (hs : s.cfg.hasSupervisor = true) (hmode : s.mode = .hyp) (k : State → Effect) :
    enterUser s k = k { s with mode := .user } := by
  simp only [enterUser, hs, hmode, if_true]

/-- Settles O47: both forms make the same privilege test. -/
theorem jpuRefusedWithoutSupervisor : Obligations.JpuRefusedWithoutSupervisor := by
  intro s operand hs
  rw [exec_eq_finish, exec_eq_finish]
  simp only [instrEffect, jpuAbsEffect, jpuIndEffect, enterUser_of_noSupervisor hs, Effect.finish_refused, and_self]

theorem exec_jpuAbs_of_hyp {s : State} (hs : s.cfg.hasSupervisor = true) (hmode : s.mode = .hyp) (operand : Half) :
    exec (.jpuAbs operand) s = .next { s with mode := .user, pc := s.cfg.extendOperand operand } := by
  rw [exec_eq_finish, instrEffect, jpuAbsEffect, enterUser_of_hyp hs hmode, Effect.finish_of_next]

/-- Settles O45: the privilege test passes, and the address is the operand's extension. -/
theorem jpuAbsEntersUserMode : Obligations.JpuAbsEntersUserMode := fun s operand hs hmode =>
  ⟨exec_jpuAbs_of_hyp hs hmode operand, s.cfg.fits_extendOperand operand,
    fun h => Config.extendOperand_bits16 h operand, fun h => Config.extendOperand_signExtend h operand,
    fun h => Config.extendOperand_zeroExtend h operand⟩

/-- A read goes to the space it names, whatever the mode. -/
theorem State.readBytes_withMode (s : State) (m : Mode) (sp : Space) (n : Nat) (a : Addr) :
    ({ s with mode := m } : State).readBytes sp n a = s.readBytes sp n a := by
  induction n generalizing a with
  | zero => rfl
  | succ n ih =>
    have hbyte : ({ s with mode := m } : State).readByte = s.readByte := rfl
    simp only [State.readBytes, hbyte, ih]

theorem State.readPointer_of_error {s : State} {a : Addr} {c : AbortCause}
    (h : s.readBytes .user s.cfg.jpuPtr.bytes a = .error c) : s.readPointer a = .error c := by
  simp only [State.readPointer, h]

section
variable {s : State} (hs : s.cfg.hasSupervisor = true) (hmode : s.mode = .hyp) {operand : Half}
include hs hmode

/-- JPU, indirect form, where the pointer can be read. -/
theorem exec_jpuInd_of_ok {bs : List Byte}
    (h : s.readBytes .user s.cfg.jpuPtr.bytes (s.cfg.extendOperand operand) = .ok bs) :
    exec (.jpuInd operand) s
      = .next (({ s with mode := .user } : State).loadPc s.cfg.jpuPtr (valueLE bs)) := by
  rw [← s.readBytes_withMode .user] at h
  rw [exec_eq_finish, instrEffect, jpuIndEffect, enterUser_of_hyp hs hmode, State.readPointer_of_bytes h, orAbort_ok,
    Effect.finish_of_next]

/-- JPU, indirect form, where the read of the pointer aborts: user mode is already entered. -/
theorem exec_jpuInd_of_error {c : AbortCause}
    (h : s.readBytes .user s.cfg.jpuPtr.bytes (s.cfg.extendOperand operand) = .error c) :
    exec (.jpuInd operand) s = raiseAbort c { s with mode := .user } := by
  rw [← s.readBytes_withMode .user] at h
  rw [exec_eq_finish, instrEffect, jpuIndEffect, enterUser_of_hyp hs hmode, State.readPointer_of_error h, orAbort_error,
    Effect.finish_abort]

end

/-- Settles O46: the pointer is read as it would be before the mode changed; the program counter is as `loadPc` says. -/
theorem jpuIndEntersUserMode : Obligations.JpuIndEntersUserMode := fun s _ hs hmode =>
  ⟨fun bs h => ⟨_, exec_jpuInd_of_ok hs hmode h,
      ({ s with mode := .user } : State).loadPc_spec s.cfg.jpuPtr (valueLE bs)⟩,
    fun _ h => exec_jpuInd_of_error hs hmode h⟩

end Sys2Proof.Machine

/-! PROOF. What an instruction boundary does (60_exceptions.md R75, R76, R79): which interrupt is taken, and what the fetch
of an instruction comes to where its bytes, or a fetch abort, are known. -/

namespace Sys2Proof

/-! ### How many bytes a decoder can ask for -/

/-- A decoder that asks for more operand bytes has at most one. -/
theorem Instr.readOperand_short_length {i : Instr} {bs : List Byte} (h : i.readOperand bs = .short) : bs.length ≤ 1 := by
  cases i with
  | brk | rti | cli | sei | rtu => cases h
  | trap n => match bs, h with | [], _ => exact Nat.zero_le 1
  | jpuAbs a | jpuInd a => match bs, h with | [], _ | [_], _ => simp

/-- Bytes that fit no row and still ask for more are no longer than an opcode of the table. -/
theorem OpcodeTable.noRow_short_length {t : OpcodeTable} {bs : List Byte} (h : t.noRow bs = .short) :
    bs.length + 2 ≤ t.maxLength := by
  rw [OpcodeTable.noRow] at h
  split at h
  · next hany =>
    obtain ⟨o, ho, hprefix⟩ := List.any_eq_true.1 hany
    have hrow : o ∈ t.rows := by
      simp only [OpcodeTable.rows, List.mem_cons, List.not_mem_nil, or_false] at ho ⊢
      tauto
    have hlen := (List.isPrefixOf_iff_prefix.1 hprefix).length_le
    exact (Nat.add_le_add_right hlen 2).trans (Laws.opcode_length_le t hrow)
  · cases h

/-- Bytes that ask for more are fewer than the longest instruction of the table has. -/
theorem length_lt_of_decode_short {t : OpcodeTable} {bs : List Byte} (h : decode t bs = .short) :
    bs.length < t.maxLength := by
  have hmax := Laws.opcode_length_le t (Instr.opcode_mem_rows t .brk)
  by_cases hne : bs = []
  · subst hne
    exact lt_of_lt_of_le (by simp) hmax
  rw [decode_of_ne_nil t hne] at h
  rcases readFirst_cases (t.noRow bs) bs t.readers with hnone | ⟨r, hr, rest, hbs, hread⟩
  · have hlen := OpcodeTable.noRow_short_length (hnone.symm.trans h)
    omega
  · obtain ⟨i, rfl⟩ := OpcodeTable.mem_readers.1 hr
    have hlen := Instr.readOperand_short_length (hread.symm.trans h)
    have hop := Laws.opcode_length_le t (i.opcode_mem_rows t)
    dsimp only at hbs
    rw [hbs, List.length_append]
    omega

theorem encode_length_le (t : OpcodeTable) : ∀ i, (encode t i).length ≤ t.maxLength
  | .brk => (Laws.EncodedLength.brk t).2
  | .rti => (Laws.EncodedLength.rti t).2
  | .cli => (Laws.EncodedLength.cli t).2
  | .sei => (Laws.EncodedLength.sei t).2
  | .trap n => (Laws.EncodedLength.trap n t).2
  | .rtu => (Laws.EncodedLength.rtu t).2
  | .jpuAbs operand => (Laws.EncodedLength.jpuAbs operand t).2
  | .jpuInd operand => (Laws.EncodedLength.jpuInd operand t).2

end Sys2Proof

namespace Sys2Proof.Machine

/-! ### The fetch -/

/-- A fetch goes past a beginning of which every part asks for more. -/
theorem State.fetchMore_take {s : State} {bs : List Byte}
    (hbytes : ∀ (k : Nat) (h : k < bs.length), s.fetchByte k = .ok bs[k]) {k : Nat} (hk : k ≤ bs.length)
    (hshort : ∀ j, 0 < j → j ≤ k → decode s.cfg.opcodes (bs.take j) = .short) (n : Nat) :
    s.fetchMore (n + k) [] = s.fetchMore n (bs.take k) := by
  induction k generalizing n with
  | zero => rfl
  | succ k ih =>
    have hnext := ih (by omega) (fun j h0 hj => hshort j h0 (by omega)) (n + 1)
    have hsum : n + (k + 1) = n + 1 + k := by omega
    rw [hsum, hnext, State.fetchMore_of_short n hk (hbytes k hk) (hshort (k + 1) k.succ_pos le_rfl)]

/-- Bytes that begin an instruction, and then a byte whose fetch meets an abort. -/
theorem State.fetchInstr_of_abort {s : State} {bs : List Byte} {c : AbortCause}
    (hbytes : ∀ (k : Nat) (h : k < bs.length), s.fetchByte k = .ok bs[k])
    (hshort : ∀ k, 0 < k → k ≤ bs.length → decode s.cfg.opcodes (bs.take k) = .short)
    (habort : s.fetchByte bs.length = .error c) : s.fetchInstr = .abort c := by
  have hall : decode s.cfg.opcodes bs = .short := by
    rcases Nat.eq_zero_or_pos bs.length with h0 | hpos
    · rw [List.length_eq_zero_iff.1 h0]; rfl
    · simpa using hshort bs.length hpos le_rfl
  obtain ⟨d, hd⟩ := Nat.exists_eq_add_of_lt (length_lt_of_decode_short hall)
  have hmax : s.cfg.opcodes.maxLength = d + 1 + bs.length := by omega
  rw [State.fetchInstr, hmax, State.fetchMore_take hbytes le_rfl hshort, List.take_length]
  simp only [State.fetchMore, habort]

/-- The bytes of a well-formed instruction at the program counter are fetched as that instruction. -/
theorem State.fetchInstr_of_encode {s : State} {i : Instr} (hi : i.wf s.cfg.opcodes)
    (hbytes : ∀ (k : Nat) (h : k < (encode s.cfg.opcodes i).length), s.fetchByte k = .ok (encode s.cfg.opcodes i)[k]) :
    s.fetchInstr = .instr i := by
  have hle := encode_length_le s.cfg.opcodes i
  have hdecode := decodeOfEncode s.cfg.opcodes i [] hi
  have hpart := partOfEncodingIsShort s.cfg.opcodes i
  rw [List.append_nil] at hdecode
  generalize encode s.cfg.opcodes i = bs at hle hdecode hpart hbytes
  have hne : bs ≠ [] := by rintro rfl; cases hdecode
  obtain ⟨last, hlast⟩ := Nat.exists_eq_succ_of_ne_zero (List.length_pos_iff.2 hne).ne'
  have hlt : last < bs.length := by omega
  obtain ⟨d, hd⟩ := Nat.exists_eq_add_of_lt (Nat.lt_of_lt_of_le hlt hle)
  have hmax : s.cfg.opcodes.maxLength = d + 1 + last := by omega
  have hwhole : bs.take last ++ [bs[last]] = bs := by
    rw [List.take_append_getElem hlt, List.take_of_length_le (by omega)]
  rw [State.fetchInstr, hmax, State.fetchMore_take hbytes hlt.le fun k _ hk => hpart k hi (by omega)]
  simp only [State.fetchMore, List.length_take_of_le hlt.le, hbytes last hlt, hwhole, hdecode]

/-- Settles O8: each byte before the abort leaves the decoder asking for the next one. -/
theorem fetchAbortIsTaken : Obligations.FetchAbortIsTaken := by
  intro s bs c hquiet hbytes hshort habort
  rw [← s.sampled_cfg] at hshort
  rw [step_of_quiet hquiet, runInstruction, State.fetchInstr_of_abort hbytes hshort habort]

/-- Settles O6: the fetch reads the bytes one by one and has the instruction with the last of them. -/
theorem stepRunsDecodedInstruction : Obligations.StepRunsDecodedInstruction := by
  intro s i hquiet hi hbytes
  rw [← s.sampled_cfg] at hi hbytes
  rw [step_of_quiet hquiet, runInstruction, State.fetchInstr_of_encode hi hbytes]

/-! ### The interrupt that is taken -/

/-- Settles O9: the boundary asks for an interrupt before it does anything else. -/
theorem interruptPrecedesInstruction : Obligations.InterruptPrecedesInstruction := by
  intro s n hreset hn
  rw [step_of_noReset hreset, runBoundary, hn]

/-- Settles O10: clause by clause. -/
theorem acceptableInterrupts : Obligations.AcceptableInterrupts := State.acceptable_iff

/-- An acceptable interrupt is one of those that the priority order lists. -/
theorem State.mem_priority_of_acceptable {s : State} (hs : s.cfg.Wf) {n : Nat} (h : s.acceptable n = true) :
    n ∈ s.cfg.priority := by
  obtain ⟨⟨-, hn⟩, -⟩ := (s.acceptable_iff n).1 h
  exact hs.priority.mem_iff.2 (List.mem_range.2 hn)

/-- Settles O11: the search goes through the order from the front, and the order lists every interrupt there is. -/
theorem firstByPriorityIsTaken : Obligations.FirstByPriorityIsTaken := by
  intro s hs
  refine ⟨fun n hn => ?_, fun hnone n => ?_, fun hall => ?_⟩
  · obtain ⟨hacc, before, after, horder, hbefore⟩ := List.find?_eq_some_iff_append.1 hn
    exact ⟨hacc, before, after, horder, fun m hm => by simpa using hbefore m hm⟩
  · by_contra hacc
    rw [Bool.not_eq_false] at hacc
    exact List.find?_eq_none.1 hnone n (State.mem_priority_of_acceptable hs hacc) hacc
  · exact List.find?_eq_none.2 fun n _ => by simp [hall n]

end Sys2Proof.Machine

/-! PROOF. The vectors and the two entries (60_exceptions.md R67 to R73, R77, R78): where each table has its vectors, which
vector each exception goes through, and what interrupt entry and abort entry make of the state. -/

namespace Sys2Proof

/-! ### Base registers without their low bits -/

/-- An address without its low `n` bits. -/
theorem toNat_masked (a : Addr) {n : Nat} (hn : n ≤ 64) :
    (a &&& ~~~(BitVec.ofNat 64 (2 ^ n - 1))).toNat = a.toNat / 2 ^ n * 2 ^ n := by
  rw [← Nat.shiftRight_eq_div_pow, ← Nat.shiftLeft_eq]
  refine Nat.eq_of_testBit_eq fun k => ?_
  rw [BitVec.testBit_toNat, BitVec.getLsbD_and, BitVec.getLsbD_not, getLsbD_ones hn, Nat.testBit_shiftLeft,
    Nat.testBit_shiftRight, BitVec.testBit_toNat]
  rcases Nat.lt_or_ge k n with hlow | hhigh
  · have hk : ¬ k ≥ n := by omega
    simp [hlow, hk]
  · have hk : ¬ k < n ∧ n + (k - n) = k := by omega
    by_cases h64 : k < 64
    · simp [hk, h64, hhigh]
    · simp [hk, h64, BitVec.getLsbD_of_ge a k (by omega)]

/-- The low 16 bits of a sign-extended vector are the vector. -/
theorem Config.signExtend_setWidth (c : Config) (v : Half) : (c.signExtend v).setWidth 16 = v := by
  apply BitVec.eq_of_getLsbD_eq
  intro k hk
  rw [BitVec.getLsbD_setWidth, c.getLsbD_signExtend, if_pos hk]
  simp [hk]

end Sys2Proof

namespace Sys2Proof.Machine

/-! ### Where the vectors of a table lie -/

theorem State.intVectorAddr_toNat {s : State} (h : s.cfg.fits s.ibr) {n : Nat} (hn : n < 128) :
    (s.intVectorAddr n).toNat = s.ibr.toNat / 256 * 256 + 2 * n := by
  have hbase : (s.ibr &&& ~~~(0xFF : Addr)).toNat = s.ibr.toNat / 256 * 256 := toNat_masked s.ibr (n := 8) (by omega)
  rw [State.intVectorAddr, Config.trunc_add_toNat, hbase, Nat.mod_eq_of_lt]
  rcases s.cfg.addrWidth.bits_cases with hw | hw | hw <;> rw [Config.fits, hw] at h <;> rw [hw] <;> omega

theorem State.abortVectorAddr_toNat {s : State} (h : s.cfg.fits s.abr) {k : Nat} (hk : k ≤ 8) :
    (s.abortVectorAddr k).toNat = s.abr.toNat / 256 * 256 + 254 - 2 * k := by
  have hbase : (s.abr &&& ~~~(0xFF : Addr)).toNat = s.abr.toNat / 256 * 256 := toNat_masked s.abr (n := 8) (by omega)
  have htop : (0xFE : Addr).toNat = 254 := rfl
  rw [State.abortVectorAddr, Config.trunc_toNat, BitVec.toNat_sub, BitVec.toNat_add, hbase, htop, BitVec.toNat_ofNat]
  rcases s.cfg.addrWidth.bits_cases with hw | hw | hw <;> rw [Config.fits, hw] at h <;> rw [hw] <;> omega

/-- The low nine bits are free for the shifted trap number, so that ORing it is adding it. -/
theorem toNat_or_trapNumber (a : Addr) (n : Byte) :
    ((a &&& ~~~(0x1FF : Addr)) ||| (n.setWidth 64 <<< 1)).toNat = a.toNat / 512 * 512 + 2 * n.toNat := by
  have hbase : (a &&& ~~~(0x1FF : Addr)).toNat = a.toNat / 512 * 512 := toNat_masked a (n := 9) (by omega)
  have hnumber : ((n.setWidth 64 <<< 1 : Addr)).toNat = 2 * n.toNat := by
    rw [BitVec.toNat_shiftLeft, BitVec.toNat_setWidth, Nat.shiftLeft_eq]
    omega
  have hor := Nat.two_pow_add_eq_or_of_lt (i := 9) (b := 2 * n.toNat) (by omega) (a.toNat / 512)
  rw [BitVec.toNat_or, hbase, hnumber, Nat.mul_comm (a.toNat / 512), ← hor]

theorem State.trapVectorAddr_eq {s : State} (h : s.cfg.fits s.tbr) (n : Byte) :
    s.trapVectorAddr n = (s.tbr &&& ~~~(0x1FF : Addr)) ||| (n.setWidth 64 <<< 1) := by
  refine Config.trunc_of_fits ?_
  rw [Config.fits] at h ⊢
  rw [toNat_or_trapNumber]
  rcases s.cfg.addrWidth.bits_cases with hw | hw | hw <;> rw [hw] at h ⊢ <;> omega

/-! ### The target of a vector that can be read -/

theorem State.tableTarget_of_ok {s : State} {va : Addr} {v : Half} (h : s.readVector .hyp va = .ok v) (base : Addr) :
    s.tableTarget base va = .ok (s.cfg.augment base v) := by
  simp only [State.tableTarget, h]

theorem State.legacyTarget_of_ok {s : State} {sp : Space} {k : Nat} {v : Half}
    (h : s.readVector sp (s.cfg.negAddr k) = .ok v) : s.legacyTarget sp k = .ok (s.cfg.signExtend v) := by
  simp only [State.legacyTarget, h]

/-- A legacy target is the sign extension of a vector that was read. -/
theorem State.legacyTarget_eq_ok {s : State} {sp : Space} {k : Nat} {a : Addr} (h : s.legacyTarget sp k = .ok a) :
    ∃ v, s.readVector sp (s.cfg.negAddr k) = .ok v ∧ a = s.cfg.signExtend v := by
  unfold State.legacyTarget at h
  split at h
  · cases h
  · next v hv => cases h; exact ⟨v, hv, rfl⟩

section
variable {s : State}

theorem State.interruptTarget_of_active (h : s.ibrActive = true) (n : Nat) :
    s.interruptTarget n = s.tableTarget s.ibr (s.intVectorAddr n) := if_pos h

theorem State.interruptTarget_of_inactive (h : s.ibrActive = false) (n : Nat) :
    s.interruptTarget n = s.legacyTarget .hyp (if n = 0 then 6 else 2) := by
  rw [State.interruptTarget, if_neg (ne_true_of_eq_false h), apply_ite (s.legacyTarget .hyp)]

theorem State.abortTarget_of_active (h : s.abrActive = true) (c : AbortCause) :
    s.abortTarget c = s.tableTarget s.abr (s.abortVectorAddr c.slot) := if_pos h

theorem State.abortTarget_of_inactive (h : s.abrActive = false) (c : AbortCause) :
    s.abortTarget c = s.legacyTarget .hyp 8 := if_neg (ne_true_of_eq_false h)

theorem State.trapTarget_of_active (h : s.tbrActive = true) (n : Byte) :
    s.trapTarget n = s.tableTarget s.tbr (s.trapVectorAddr n) := if_pos h

theorem State.trapTarget_of_inactive (h : s.tbrActive = false) (n : Byte) :
    s.trapTarget n = s.legacyTarget .hyp 10 := if_neg (ne_true_of_eq_false h)

theorem State.brkTarget_of_active (hmode : s.mode = .hyp) (h : s.abrActive = true) :
    s.brkTarget = s.tableTarget s.abr (s.abortVectorAddr 0) := by
  simp only [State.brkTarget, hmode, h, if_true]

theorem State.brkTarget_of_inactive (hmode : s.mode = .hyp) (h : s.abrActive = false) :
    s.brkTarget = s.legacyTarget .hyp 2 := by
  simp only [State.brkTarget, hmode, h, Bool.false_eq_true, if_false]

theorem State.brkTarget_of_user (hmode : s.mode = .user) : s.brkTarget = s.legacyTarget .user 2 := by
  simp only [State.brkTarget, hmode]

end

/-- Settles O19: the block has room for 128 vectors, so that no address of one wraps. -/
theorem interruptVectorTable : Obligations.InterruptVectorTable := fun _ n hibr hn =>
  ⟨State.intVectorAddr_toNat hibr hn, fun hactive _ hv =>
    (State.interruptTarget_of_active hactive n).trans (State.tableTarget_of_ok hv _)⟩

/-- Settles O20: the slots lie inside the block, so that no address of one wraps. -/
theorem abortVectorTable : Obligations.AbortVectorTable := fun _ habr =>
  ⟨fun _ => State.abortVectorAddr_toNat habr,
    fun hactive c _ hv => (State.abortTarget_of_active hactive c).trans (State.tableTarget_of_ok hv _),
    fun hactive hmode _ hv => (State.brkTarget_of_active hmode hactive).trans (State.tableTarget_of_ok hv _),
    rfl⟩

/-- Settles O21: the shifted number lies within the low nine bits, which the base register's part leaves clear. -/
theorem trapVectorTable : Obligations.TrapVectorTable := fun _ n htbr =>
  ⟨State.trapVectorAddr_eq htbr n, by rw [State.trapVectorAddr_eq htbr, toNat_or_trapNumber],
    fun hactive _ hv => (State.trapTarget_of_active hactive n).trans (State.tableTarget_of_ok hv _)⟩

/-- Settles O22: one clause per row of the table of legacy vectors. -/
theorem legacyVectors : Obligations.LegacyVectors := by
  intro s v
  refine ⟨fun hibr => ⟨fun hv => ?_, fun hv n hn => ?_⟩, fun habr => ⟨fun hv c => ?_, fun hmode hv => ?_⟩,
    fun htbr hv n => ?_, fun hmode hv => ?_⟩
  · rw [State.interruptTarget_of_inactive hibr, if_pos rfl, State.legacyTarget_of_ok hv]
  · rw [State.interruptTarget_of_inactive hibr, if_neg hn, State.legacyTarget_of_ok hv]
  · rw [State.abortTarget_of_inactive habr, State.legacyTarget_of_ok hv]
  · rw [State.brkTarget_of_inactive hmode habr, State.legacyTarget_of_ok hv]
  · rw [State.trapTarget_of_inactive htbr, State.legacyTarget_of_ok hv]
  · rw [State.brkTarget_of_user hmode, State.legacyTarget_of_ok hv]

/-! ### Whether an entry's vector can be read -/

/-- The vector of an abort can be read, or meets an abort, whatever lies in memory and whatever the mode. -/
theorem State.abortOf_abortTarget_congr {s t : State} (h : t.tables = s.tables) (c : AbortCause) :
    abortOf (t.abortTarget c) = abortOf (s.abortTarget c) := by
  obtain ⟨hc, hx, -, ⟨habr, hactive⟩, -⟩ := State.tables_eq_iff.1 h
  unfold State.abortTarget State.abortVectorAddr
  rw [hactive, habr, hc]
  split
  · exact State.abortOf_tableTarget_congr hc hx _ _
  · exact State.abortOf_legacyTarget_congr hc hx _ _

/-- The vector of an interrupt can be read, or meets an abort, whatever lies in memory and whatever the mode. -/
theorem State.abortOf_interruptTarget_congr {s t : State} (h : t.tables = s.tables) (n : Nat) :
    abortOf (t.interruptTarget n) = abortOf (s.interruptTarget n) := by
  obtain ⟨hc, hx, ⟨hibr, hactive⟩, -⟩ := State.tables_eq_iff.1 h
  unfold State.interruptTarget State.intVectorAddr
  rw [hactive, hibr, hc]
  split
  · exact State.abortOf_tableTarget_congr hc hx _ _
  · split
    · exact State.abortOf_legacyTarget_congr hc hx _ _
    · exact State.abortOf_legacyTarget_congr hc hx _ _

/-! ### The two entries -/

/-- Abort entry goes on exactly where its pushes are done and the vector can then be read in hypervisor mode. -/
theorem raiseAbort_eq_next {c : AbortCause} {s t : State} : raiseAbort c s = .next t ↔
    ∃ s1, State.pushBytes .hyp (s.entryFrame s.pc) s = .done s1
      ∧ ({ s1 with mode := .hyp } : State).abortTarget c = .ok t.pc ∧ t = { s1 with mode := .hyp, pc := t.pc } := by
  constructor
  · intro h
    unfold raiseAbort at h
    split at h
    · cases h
    · next s1 hpush =>
      split at h
      · cases h
      · next target htarget => cases h; exact ⟨s1, hpush, htarget, rfl⟩
  · rintro ⟨s1, hpush, htarget, ht⟩
    simp only [raiseAbort, hpush, htarget]
    rw [← ht]

/-- Interrupt entry goes on where its pushes are done and the vector can then be read in hypervisor mode. -/
theorem takeInterrupt_of_done {n : Nat} {s s1 : State} {target : Addr}
    (hpush : State.pushBytes .hyp (s.entryFrame s.pc) s = .done s1)
    (htarget : ({ s1 with mode := .hyp, eim := .entered s1.eim n } : State).interruptTarget n = .ok target) :
    takeInterrupt n s = .next { s1 with mode := .hyp, eim := .entered s1.eim n, pc := target } := by
  simp only [takeInterrupt, hpush, htarget]

/-- The frame of both entries, byte by byte in the order of the pushes (60_exceptions.md R77, R78). -/
theorem State.entryFrame_eq (s : State) (ra : Addr) :
    s.entryFrame ra = (bytesLE (s.cfg.frameWidth s.mode).bytes ra).reverse
      ++ [s.cfg.esr.encode s.mode (s.cfg.frameWidth s.mode) s.esrOther, s.p.image false s.cfg.entryImageB] := by
  simp only [State.entryFrame, State.trapFrame, addressBytes, State.extendedImage, List.append_assoc, List.cons_append,
    List.nil_append]

/-- Settles O48: the pushes are done, and the vector that could be read before them can be read after them; what the entry
then leaves is said of every entry that goes on. -/
theorem abortEntry : Obligations.AbortEntry := by
  intro s c hwf hcan hvector
  rw [← s.entryFrame_length s.pc] at hcan ⊢
  obtain ⟨s1, hpush⟩ := State.pushBytes_of_canPush hcan
  have htables : s1.tables = s.tables := State.tables_of_pushBytes hpush
  obtain ⟨target, htarget⟩ := abortOf_eq_none.1
    ((State.abortOf_abortTarget_congr (t := { s1 with mode := .hyp }) htables c).trans (abortOf_eq_none.2 hvector))
  have hentry : raiseAbort c s = .next { s1 with mode := .hyp, pc := target } :=
    raiseAbort_eq_next.2 ⟨s1, hpush, htarget, rfl⟩
  obtain ⟨hstate, hpc, hmem, -⟩ := raiseAbort_next hentry
  obtain ⟨hstack, -⟩ := hmem hwf
  exact ⟨_, hentry, hstate, hpc, s.entryFrame_eq s.pc ▸ hstack⟩

/-- Settles O49: as for abort entry, with the interrupt entered in EIM. -/
theorem interruptEntry : Obligations.InterruptEntry := by
  intro s n hwf hcan hvector
  rw [← s.entryFrame_length s.pc] at hcan ⊢
  obtain ⟨s1, hpush⟩ := State.pushBytes_of_canPush hcan
  have htables : s1.tables = s.tables := State.tables_of_pushBytes hpush
  obtain ⟨target, htarget⟩ := abortOf_eq_none.1
    ((State.abortOf_interruptTarget_congr (t := { s1 with mode := .hyp, eim := .entered s1.eim n }) htables n).trans
      (abortOf_eq_none.2 hvector))
  have hentry := takeInterrupt_of_done hpush htarget
  obtain ⟨hstate, hpc, hmem, -⟩ := takeInterrupt_next hentry
  obtain ⟨hstack, -⟩ := hmem hwf
  exact ⟨_, hentry, hstate, rfl, hpc, s.entryFrame_eq s.pc ▸ hstack⟩

/-! ### What an abort's handler can tell -/

/-- Settles O23: both entries make the same pushes, and only then does the cause choose the vector; while ABR is inactive it
chooses none. -/
theorem abortConditionShowsOnlyInVector : Obligations.AbortConditionShowsOnlyInVector := by
  intro s t t' c c' h
  obtain ⟨s1, hpush, htarget, ht⟩ := raiseAbort_eq_next.1 h
  refine ⟨fun h' => ?_, fun hactive => ?_⟩
  · obtain ⟨s2, hpush', -, ht'⟩ := raiseAbort_eq_next.1 h'
    cases hpush.symm.trans hpush'
    rw [ht, ht']
  · have htables := State.tables_eq_iff.1 (State.tables_of_pushBytes hpush)
    obtain ⟨hcfg, -, -, ⟨-, hactive1⟩, -⟩ := htables
    have hlegacy := State.abortTarget_of_inactive (s := { s1 with mode := .hyp }) (hactive1.trans hactive)
    refine ⟨raiseAbort_eq_next.2 ⟨s1, hpush, (hlegacy c').trans ((hlegacy c).symm.trans htarget), ht⟩, ?_⟩
    obtain ⟨v, hv, hpc⟩ := State.legacyTarget_eq_ok ((hlegacy c).symm.trans htarget)
    refine ⟨v, ?_, by rw [hpc, Config.signExtend_setWidth]⟩
    rw [ht, ← hcfg]
    exact hv

end Sys2Proof.Machine

/-! PROOF. The ways between the modes (60_exceptions.md R65, R78, R79): what a boundary comes to, what an instruction that
completes does to the mode, and what user mode can change at all. -/

namespace Sys2Proof

theorem Mode.ne_hyp_of_user {m : Mode} (h : m = .user) : m ≠ .hyp := by rw [h]; nofun

end Sys2Proof

namespace Sys2Proof.Machine

/-! ### Sampling the lines -/

@[simp] theorem State.sampled_mode (s : State) : s.sampled.mode = s.mode := by
  obtain ⟨lines, inputs, heq, -⟩ := s.sampled_eq
  rw [heq]

@[simp] theorem State.sampled_tmv (s : State) : s.sampled.tmv = s.tmv := by
  obtain ⟨lines, inputs, heq, -⟩ := s.sampled_eq
  rw [heq]

@[simp] theorem State.sampled_spHyp (s : State) : s.sampled.spHyp = s.spHyp := by
  obtain ⟨lines, inputs, heq, -⟩ := s.sampled_eq
  rw [heq]

@[simp] theorem State.sampled_xlateOn (s : State) : s.sampled.xlateOn = s.xlateOn := by
  obtain ⟨lines, inputs, heq, -⟩ := s.sampled_eq
  rw [heq]

/-! ### The mode after an entry, a configuration action or a reset -/

theorem raiseAbort_mode {c : AbortCause} {s t : State} (h : raiseAbort c s = .next t) : t.mode = .hyp := by
  obtain ⟨ht, -⟩ := raiseAbort_next h
  rw [ht]

theorem takeInterrupt_mode {n : Nat} {s t : State} (h : takeInterrupt n s = .next t) : t.mode = .hyp := by
  obtain ⟨ht, -⟩ := takeInterrupt_next h
  rw [ht]

/-- A configuration action that goes on was made in hypervisor mode, which it does not leave. -/
theorem configAction_mode {a : ConfigAction} {s t : State} (h : configAction a s = .next t) :
    s.mode = .hyp ∧ t.mode = .hyp := by
  cases a with
  | write v =>
    obtain ⟨hmode, ⟨a, -, -, rfl⟩ | ⟨a, -, -, rfl⟩ | ⟨a, -, -, rfl⟩ | ⟨n, -, rfl⟩ | ⟨e, -, rfl⟩ | ⟨u, -, rfl⟩
      | ⟨b, -, -, rfl⟩⟩ := writeConfig_next h
    all_goals exact ⟨hmode, hmode⟩
  | read r =>
    obtain ⟨hmode, rfl⟩ := readConfig_next h
    exact ⟨hmode, hmode⟩

/-- A reset, at the boundary or within the step, enters hypervisor mode. -/
theorem step_mode_of_reset {s t : State} (hreset : ¬ s.NoReset) (h : step s = .next t) : t.mode = .hyp := by
  rcases s.noReset_cases with hno | hin | ⟨k, rest, hin⟩
  · exact absurd hno hreset
  · rw [step_of_reset hin] at h
    cases h
    rfl
  · rw [step_of_resetWithin hin] at h
    rcases resetWithin_next h with ⟨-, rfl⟩ | ⟨u, -, rfl⟩
    · rfl
    · rfl

/-! ### What an instruction that completes does to the mode -/

/-- A BRK that completes has moved the stack pointer of its own mode, and no other, and stays in that mode. -/
theorem brkEffect_next {s t : State} (h : brkEffect s = .next t) :
    t.mode = s.mode ∧ (s.mode = .user → t.spHyp = s.spHyp) := by
  obtain ⟨s1, hpush, hk⟩ := pushOrAbort_next h
  obtain ⟨target, -, hn⟩ := orAbort_next hk
  cases hn
  have hs1 := State.pushBytes_done_eq hpush
  refine ⟨?_, fun hmode => ?_⟩
  · rw [State.brkSetsFlag_mode, hs1, State.setSp_mode]
  · rw [State.brkSetsFlag_spHyp, hs1, hmode, State.setSp_user]

/-- A BRK is itself aborted only with translation: without it every byte can be pushed and every vector read. -/
theorem brkEffect_abort {s s1 : State} {c : AbortCause} (h : brkEffect s = .abort c s1) : ¬ s.Flat := by
  intro hflat
  rcases pushOrAbort_abort h with hpush | ⟨s2, hpush, hk⟩
  · obtain ⟨-, ⟨k, -, -, herror⟩, -⟩ := State.pushBytes_aborted hpush
    rw [State.translate_flat hflat] at herror
    cases herror
  · obtain ⟨target, htarget⟩ := abortOf_eq_none.1
      ((abortOf_brkTarget_of_done hpush).trans (abortOf_eq_none.2 (State.brkTarget_flat hflat)))
    rw [htarget, orAbort_ok] at hk
    cases hk

/-- A TRAP that completes was allowed and is in hypervisor mode at its target. -/
theorem trapEffect_next {n : Byte} {s t : State} (h : trapEffect n s = .next t) :
    n.toNat < s.tmv ∧ t.mode = .hyp ∧ t.trapTarget n = .ok t.pc := by
  by_cases hn : n.toNat < s.tmv
  · rw [trapEffect_of_lt hn] at h
    obtain ⟨s1, -, hk⟩ := pushOrAbort_next h
    obtain ⟨target, htarget, ht⟩ := orAbort_next hk
    cases ht
    exact ⟨hn, rfl, htarget⟩
  · have hmax : trapEffect n s = .abort .maxtrap s := if_neg (by rwa [s.trapAllowed_iff])
    rw [hmax] at h
    cases h

/-- JPU completes only in hypervisor mode. -/
theorem enterUser_next_mode {s t : State} {k : State → Effect} (h : enterUser s k = .next t) : s.mode = .hyp := by
  unfold enterUser at h
  split at h
  · split at h
    · cases h
    · assumption
  · cases h

/-- In user mode an instruction that completes stays there, with the hypervisor stack pointer as it was, or is a TRAP. -/
theorem instrEffect_next_of_user {i : Instr} {s t : State} (hmode : s.mode = .user) (h : instrEffect i s = .next t) :
    (t.mode = .user ∧ t.spHyp = s.spHyp)
    ∨ ∃ n, i = .trap n ∧ n.toNat < s.tmv ∧ t.mode = .hyp ∧ t.trapTarget n = .ok t.pc := by
  have hnot := Mode.ne_hyp_of_user hmode
  cases i with
  | brk =>
    obtain ⟨hm, hsp⟩ := brkEffect_next h
    exact .inl ⟨hm.trans hmode, hsp hmode⟩
  | rti =>
    rcases rtiEffect_next h with ⟨b, sp1, a, sp, -, -, -, rfl⟩ | ⟨b, sp1, e, sp2, w, a, sp, -, -, -, hpriv, -, -, -, rfl⟩
    · exact .inl ⟨by simp [hmode], by simp [hmode]⟩
    · exact .inl ⟨by simp [hpriv hmode], by simp [hmode]⟩
  | cli => cases h; exact .inl ⟨hmode, rfl⟩
  | sei => cases h; exact .inl ⟨hmode, rfl⟩
  | trap n => exact .inr ⟨n, rfl, trapEffect_next h⟩
  | rtu =>
    obtain ⟨e, sp1, w, a, sp, hm, -⟩ := rtuEffect_next h
    exact absurd hm hnot
  | jpuAbs operand =>
    rw [instrEffect, jpuAbsEffect] at h
    exact absurd (enterUser_next_mode h) hnot
  | jpuInd operand =>
    rw [instrEffect, jpuIndEffect] at h
    exact absurd (enterUser_next_mode h) hnot

/-- An instruction that takes the machine from hypervisor mode to user mode is a JPU, or a return that pulls an image which
says user mode. -/
theorem instrEffect_next_of_hyp {i : Instr} {s t : State} (hmode : s.mode = .hyp) (ht : t.mode = .user)
    (h : instrEffect i s = .next t) :
    (∃ operand, i = .jpuAbs operand ∨ i = .jpuInd operand)
    ∨ (i = .rti ∧ ∃ b e sp, s.pullBytes .hyp 2 s.spHyp = .ok ([b, e], sp) ∧ b.getLsbD 5 = false
        ∧ s.cfg.esr.decodeMode e = .user)
    ∨ (i = .rtu ∧ ∃ e sp, s.pullBytes .hyp 1 s.spHyp = .ok ([e], sp) ∧ s.cfg.esr.decodeMode e = .user) := by
  have hnot : t.mode ≠ s.mode := by rw [hmode, ht]; nofun
  cases i with
  | brk => exact absurd (brkEffect_next h).1 hnot
  | rti =>
    rcases rtiEffect_next h with ⟨b, sp1, a, sp, -, -, -, rfl⟩ | ⟨b, sp1, e, sp2, w, a, sp, hb, hstd, he, -, -, -, -, rfl⟩
    · exact absurd (by simp) hnot
    · rw [hmode] at hb he
      exact .inr (.inl ⟨rfl, b, e, sp2, State.pullBytes_two_eq_ok.2 ⟨sp1, hb, he⟩, hstd, by simpa using ht⟩)
  | cli => cases h; exact absurd rfl hnot
  | sei => cases h; exact absurd rfl hnot
  | trap n =>
    obtain ⟨-, hm, -⟩ := trapEffect_next h
    exact absurd (hm.trans hmode.symm) hnot
  | rtu =>
    obtain ⟨e, sp1, w, a, sp, -, he, -, -, -, rfl⟩ := rtuEffect_next h
    exact .inr (.inr ⟨rfl, e, sp1, State.pullBytes_one_eq_ok.2 he, by simpa using ht⟩)
  | jpuAbs operand => exact .inl ⟨operand, .inl rfl⟩
  | jpuInd operand => exact .inl ⟨operand, .inr rfl⟩

/-! ### What a boundary comes to -/

/-- A boundary that goes on takes an interrupt, makes a configuration action, takes the abort that its fetch or its
instruction raises, or completes its instruction. -/
theorem runBoundary_ways {s t : State} (h : runBoundary s = .next t) :
    (∃ n, s.nextInterrupt = some n ∧ takeInterrupt n s = .next t)
    ∨ (s.nextInterrupt = none ∧
      ((∃ a rest, s.inputs = .config a :: rest ∧ configAction a { s with inputs := rest } = .next t)
      ∨ (∃ c s1, s.Aborts c s1 ∧ raiseAbort c s1 = .next t)
      ∨ ∃ i, s.fetchInstr = .instr i ∧ instrEffect i s = .next t)) := by
  refine (runBoundary_next h).imp_right fun ⟨hn, h⟩ => ⟨hn, h.imp_right fun ⟨_, h⟩ => ?_⟩
  rcases h with ⟨i, hf, h⟩ | ⟨c, hf, h⟩
  · rw [exec_eq_finish] at h
    rcases Effect.finish_next h with he | ⟨c, s1, he, hr⟩
    · exact .inr ⟨i, hf, he⟩
    · exact .inl ⟨c, s1, .inr ⟨i, hf, he⟩, hr⟩
  · exact .inl ⟨c, s, .inl ⟨hf, rfl⟩, h⟩

/-- The ways out of user mode. -/
theorem runBoundary_user_to_hyp {s t : State} (h : runBoundary s = .next t) (hmode : s.mode = .user) (ht : t.mode = .hyp) :
    (∃ n, s.nextInterrupt = some n ∧ takeInterrupt n s = .next t ∧ t.interruptTarget n = .ok t.pc)
    ∨ (s.nextInterrupt = none ∧
      ((∃ c s1, s.Aborts c s1 ∧ raiseAbort c s1 = .next t ∧ t.abortTarget c = .ok t.pc)
      ∨ ∃ n : Byte, s.fetchInstr = .instr (.trap n) ∧ n.toNat < s.tmv
          ∧ instrEffect (.trap n) s = .next t ∧ t.trapTarget n = .ok t.pc)) := by
  have hnot := Mode.ne_hyp_of_user hmode
  rcases runBoundary_ways h with ⟨n, hn, h⟩ | ⟨hn, ⟨a, rest, -, h⟩ | ⟨c, s1, ha, h⟩ | ⟨i, hf, h⟩⟩
  · obtain ⟨-, htarget, -⟩ := takeInterrupt_next h
    exact .inl ⟨n, hn, h, htarget⟩
  · exact absurd (configAction_mode h).1 hnot
  · obtain ⟨-, htarget, -⟩ := raiseAbort_next h
    exact .inr ⟨hn, .inl ⟨c, s1, ha, h, htarget⟩⟩
  · rcases instrEffect_next_of_user hmode h with ⟨hu, -⟩ | ⟨n, rfl, hlt, -, htarget⟩
    · rw [ht] at hu
      cases hu
    · exact .inr ⟨hn, .inr ⟨n, hf, hlt, h, htarget⟩⟩

/-- The ways into user mode. -/
theorem runBoundary_hyp_to_user {s t : State} (h : runBoundary s = .next t) (hmode : s.mode = .hyp) (ht : t.mode = .user) :
    ∃ i, s.fetchInstr = .instr i ∧ exec i s = .next t ∧
      ((∃ operand, i = .jpuAbs operand ∨ i = .jpuInd operand)
      ∨ (i = .rti ∧ ∃ b e sp, s.pullBytes .hyp 2 s.spHyp = .ok ([b, e], sp) ∧ b.getLsbD 5 = false
          ∧ s.cfg.esr.decodeMode e = .user)
      ∨ (i = .rtu ∧ ∃ e sp, s.pullBytes .hyp 1 s.spHyp = .ok ([e], sp) ∧ s.cfg.esr.decodeMode e = .user)) := by
  have hnot := Mode.ne_hyp_of_user ht
  rcases runBoundary_ways h with ⟨n, -, h⟩ | ⟨-, ⟨a, rest, -, h⟩ | ⟨c, s1, -, h⟩ | ⟨i, hf, h⟩⟩
  · exact absurd (takeInterrupt_mode h) hnot
  · exact absurd (configAction_mode h).2 hnot
  · exact absurd (raiseAbort_mode h) hnot
  · exact ⟨i, hf, by rw [exec_eq_finish, h, Effect.finish_of_next], instrEffect_next_of_hyp hmode ht h⟩

/-- BRK stays in its mode, but where it is itself aborted. -/
theorem exec_brk_mode {s t : State} (h : exec .brk s = .next t) :
    t.mode = s.mode ∨ (¬ s.Flat ∧ ∃ c s1, instrEffect .brk s = .abort c s1 ∧ raiseAbort c s1 = .next t) := by
  rw [exec_eq_finish] at h
  rcases Effect.finish_next h with he | ⟨c, s1, he, hr⟩
  · exact .inl (brkEffect_next he).1
  · exact .inr ⟨brkEffect_abort he, c, s1, he, hr⟩

/-- Settles O56: a step without a reset is the boundary of the sampled state, which differs from the state in its lines and
inputs alone; each of its ways has one effect on the mode. -/
theorem waysBetweenModes : Obligations.WaysBetweenModes := by
  intro s t h
  have hflat : s.sampled.Flat ↔ s.Flat := by rw [State.Flat, s.sampled_cfg, s.sampled_xlateOn]
  refine ⟨fun hmode ht hreset => ?_, fun hmode ht => ?_, fun hquiet hfetch => ?_, fun hreset => step_mode_of_reset hreset h⟩
  · rw [step_of_noReset hreset] at h
    rw [← s.sampled_tmv]
    exact runBoundary_user_to_hyp h (s.sampled_mode.trans hmode) ht
  · by_cases hreset : s.NoReset
    · rw [step_of_noReset hreset] at h
      rw [← s.sampled_cfg]
      exact runBoundary_hyp_to_user h (s.sampled_mode.trans hmode) ht
    · rw [step_mode_of_reset hreset h] at ht
      cases ht
  · rw [step_of_quiet hquiet, runInstruction, hfetch] at h
    rw [← s.sampled_mode, ← hflat]
    exact exec_brk_mode h

/-! ### What user mode cannot change -/

/-- The configuration state but EIM: the parameters, the translation switch, the base registers with their active flags,
TMV, UIM and the opaque registers. -/
def State.configuration (s : State) :=
  (s.tables, s.tmv, s.uim, s.other)

theorem State.configuration_sampled (s : State) : s.sampled.configuration = s.configuration := by
  obtain ⟨lines, inputs, heq, -⟩ := s.sampled_eq
  rw [heq]
  rfl

/-- A boundary in user mode changes no configuration state but EIM: the one action that would is refused there. -/
theorem runBoundary_configuration_of_user {s t : State} (hmode : s.mode = .user) (h : runBoundary s = .next t) :
    t.configuration = s.configuration := by
  have hkeeps : Survives fun u => u.configuration = s.configuration :=
    Survives.of_unwritten State.configuration (fun _ _ _ _ _ _ _ _ => rfl) _
  have hnot := Mode.ne_hyp_of_user hmode
  exact hkeeps.runBoundary (fun _ _ _ _ hu => hu) (fun _ hu => hu) rfl
    (fun _ _ _ ha => absurd (configAction_mode ha).1 hnot) h

/-- A boundary that stays in user mode leaves the hypervisor stack pointer alone: both entries leave user mode. -/
theorem runBoundary_spHyp_of_user {s t : State} (hmode : s.mode = .user) (h : runBoundary s = .next t)
    (ht : t.mode = .user) : t.spHyp = s.spHyp := by
  have hnot := Mode.ne_hyp_of_user ht
  rcases runBoundary_ways h with ⟨n, -, h⟩ | ⟨-, ⟨a, rest, -, h⟩ | ⟨c, s1, -, h⟩ | ⟨i, -, h⟩⟩
  · exact absurd (takeInterrupt_mode h) hnot
  · exact absurd (configAction_mode h).2 hnot
  · exact absurd (raiseAbort_mode h) hnot
  · rcases instrEffect_next_of_user hmode h with ⟨-, hsp⟩ | ⟨n, -, -, hm, -⟩
    · exact hsp
    · exact absurd hm hnot

/-- Settles O57: the configuration state survives every boundary in user mode, and the hypervisor stack pointer every one
that stays there. -/
theorem userModeCannotConfigure : Obligations.UserModeCannotConfigure := by
  intro s t h hmode hreset
  rw [step_of_noReset hreset] at h
  have huser : s.sampled.mode = .user := s.sampled_mode.trans hmode
  have hconf := (runBoundary_configuration_of_user huser h).trans s.configuration_sampled
  simp only [State.configuration, Prod.mk.injEq, State.tables_eq_iff] at hconf
  obtain ⟨⟨hcfg, hx, ⟨hibr, hibrActive⟩, ⟨habr, habrActive⟩, htbr, htbrActive⟩, htmv, huim, hother⟩ := hconf
  exact ⟨⟨hibr, habr, htbr⟩, ⟨hibrActive, habrActive, htbrActive⟩, ⟨htmv, huim, hx, hother, hcfg⟩,
    fun ht => (runBoundary_spHyp_of_user huser h ht).trans s.sampled_spHyp⟩

end Sys2Proof.Machine

/-! PROOF. Reset (70_reset_and_hazards.md R84; 60_exceptions.md R79 item 1): the state it comes to, at a boundary and in the
middle of a step, and that the bytes a boundary stores are what it leaves in memory. -/

namespace Sys2Proof.Machine

/-! ### Memory after the two entries and the configuration actions -/

/-- Abort entry leaves in memory the bytes of its frame (60_exceptions.md R78). -/
theorem raiseAbort_mem {c : AbortCause} {s t : State} (h : raiseAbort c s = .next t) :
    t.mem = (s.storeAll s.entryStores).mem := by
  obtain ⟨s1, hpush, -, ht⟩ := raiseAbort_eq_next.1 h
  have hmem : s1.mem = (s.storeAll s.entryStores).mem := State.mem_of_pushBytes_done hpush
  rw [ht, ← hmem]

/-- Interrupt entry leaves in memory the bytes of its frame (60_exceptions.md R77). -/
theorem takeInterrupt_mem {n : Nat} {s t : State} (h : takeInterrupt n s = .next t) :
    t.mem = (s.storeAll s.entryStores).mem := by
  unfold takeInterrupt at h
  split at h
  · cases h
  · next s1 hpush =>
    have hmem : s1.mem = (s.storeAll s.entryStores).mem := State.mem_of_pushBytes_done hpush
    split at h
    · cases h
    · cases h
      exact hmem

theorem configAction_mem {a : ConfigAction} {s t : State} (h : configAction a s = .next t) : t.mem = s.mem := by
  cases a with
  | write v =>
    obtain ⟨-, ⟨a, -, -, rfl⟩ | ⟨a, -, -, rfl⟩ | ⟨a, -, -, rfl⟩ | ⟨n, -, rfl⟩ | ⟨e, -, rfl⟩ | ⟨u, -, rfl⟩
      | ⟨b, -, -, rfl⟩⟩ := writeConfig_next h
    all_goals rfl
  | read r =>
    obtain ⟨-, rfl⟩ := readConfig_next h
    rfl

/-! ### Memory after an instruction -/

/-- The state that a run of pushes leaves, done or aborted, has in memory what `pushStores` lists. -/
theorem State.pushBytes_mem (m : Mode) (bs : List Byte) (s : State) :
    (State.pushBytes m bs s).All fun u => u.mem = (s.storeAll (s.pushStores m bs (s.sp m))).mem := by
  cases h : State.pushBytes m bs s with
  | done t => exact State.mem_of_pushBytes_done h
  | aborted c t => exact State.mem_of_pushBytes_aborted h

theorem trapEffect_mem (n : Byte) (s : State) :
    (trapEffect n s).All fun u => u.mem = (s.storeAll (trapStores n s)).mem := by
  unfold trapEffect trapStores
  split
  · exact pushOrAbort_all (State.pushBytes_mem _ _ s) fun _ hs1 => orAbort_all hs1 fun _ _ => hs1
  · rfl

theorem brkEffect_mem (s : State) : (brkEffect s).All fun u => u.mem = (s.storeAll (brkStores s)).mem := by
  refine pushOrAbort_all (State.pushBytes_mem _ _ s) fun s1 hs1 => ?_
  have hflag := s1.brkSetsFlag_mem.trans hs1
  exact orAbort_all hflag fun _ _ => hflag

theorem rtiEffect_mem (s : State) : (rtiEffect s).All fun u => u.mem = s.mem := by
  refine Effect.all_of_cases (fun t h => ?_) fun c t h => by rw [rtiEffect_abort h]
  rcases rtiEffect_next h with ⟨b, sp1, a, sp, -, -, -, rfl⟩ | ⟨b, sp1, e, sp2, w, a, sp, -, -, -, -, -, -, -, rfl⟩
  all_goals simp only [State.loadPc_mem, State.rtiCommit_mem, State.setSp_mem]

theorem rtuEffect_mem (s : State) : (rtuEffect s).All fun u => u.mem = s.mem := by
  refine Effect.all_of_cases (fun t h => ?_) fun c t h => by rw [rtuEffect_abort h]
  obtain ⟨e, sp1, w, a, sp, -, -, -, -, -, rfl⟩ := rtuEffect_next h
  exact State.loadPc_mem _ _ _

/-- JPU's privilege test raises its abort in the state before it, or goes on in user mode. -/
theorem enterUser_all {P : State → Prop} {s : State} {k : State → Effect} (hs : P s)
    (hk : (k { s with mode := .user }).All P) : (enterUser s k).All P := by
  unfold enterUser
  split
  · split
    · exact hs
    · exact hk
  · trivial

theorem jpuAbsEffect_mem (operand : Half) (s : State) : (jpuAbsEffect operand s).All fun u => u.mem = s.mem :=
  enterUser_all (P := fun u => u.mem = s.mem) rfl rfl

theorem jpuIndEffect_mem (operand : Half) (s : State) : (jpuIndEffect operand s).All fun u => u.mem = s.mem :=
  enterUser_all rfl (orAbort_all (P := fun u => u.mem = s.mem) rfl fun _ _ => State.loadPc_mem _ _ _)

/-- What an instruction itself comes to, complete or aborted, has in memory the bytes that the instruction stores. -/
theorem instrEffect_mem (i : Instr) (s : State) :
    (instrEffect i s).All fun u => u.mem = (s.storeAll (ownStores i s)).mem := by
  cases i with
  | brk => exact brkEffect_mem s
  | rti => exact rtiEffect_mem s
  | cli => rfl
  | sei => rfl
  | trap n => exact trapEffect_mem n s
  | rtu => exact rtuEffect_mem s
  | jpuAbs operand => exact jpuAbsEffect_mem operand s
  | jpuInd operand => exact jpuIndEffect_mem operand s

theorem instrEffect_cfg (i : Instr) (s : State) : (instrEffect i s).All fun u => u.cfg = s.cfg :=
  (Survives.of_unwritten State.cfg (fun _ _ _ _ _ _ _ _ => rfl) s.cfg).instrEffect (fun _ _ h => h) (fun _ _ _ h => h) rfl

/-- An instruction that goes on leaves in memory the bytes that it stores itself and then those of the abort entry, if it
raises an abort. -/
theorem exec_mem {i : Instr} {s t : State} (h : exec i s = .next t) :
    t.mem = (s.storeAll (ownStores i s ++ (instrEffect i s).abortStores)).mem := by
  have hmem := instrEffect_mem i s
  have hcfg := instrEffect_cfg i s
  rw [exec_eq_finish] at h
  rcases Effect.finish_next h with he | ⟨c, s1, he, hr⟩
  · rw [he] at hmem ⊢
    rwa [Effect.abortStores, List.append_nil]
  · rw [he] at hmem hcfg ⊢
    rw [raiseAbort_mem hr, State.storeAll_append]
    exact State.storeAll_mem_congr (hcfg.trans (s.storeAll_cfg _).symm) hmem _

/-! ### Memory after a boundary -/

/-- What a boundary stores where neither an interrupt nor a configuration action comes first. -/
theorem State.boundaryStores_of_instruction {s : State} (hn : s.nextInterrupt = none)
    (h : ∀ a, s.inputs.head? ≠ some (.config a)) : s.boundaryStores = s.instructionStores := by
  unfold State.boundaryStores
  rw [hn]
  cases hi : s.inputs with
  | nil => rfl
  | cons x rest =>
    cases x with
    | config a => exact absurd (by rw [hi]; rfl) (h a)
    | lines l => rfl
    | reset => rfl
    | resetWithin k => rfl

/-- `boundaryStores` is what a boundary stores: memory after one that goes on. -/
theorem runBoundary_mem {s t : State} (h : runBoundary s = .next t) : t.mem = (s.storeAll s.boundaryStores).mem := by
  rcases runBoundary_next h with ⟨n, hn, h⟩ | ⟨hn, ⟨a, rest, hi, h⟩ | ⟨hi, ⟨i, hf, h⟩ | ⟨c, hf, h⟩⟩⟩
  · simp only [State.boundaryStores, hn, takeInterrupt_mem h]
  · simp only [State.boundaryStores, hn, hi, configAction_mem h, State.storeAll]
  · simp only [State.boundaryStores_of_instruction hn hi, State.instructionStores, hf, exec_mem h]
  · simp only [State.boundaryStores_of_instruction hn hi, State.instructionStores, hf, raiseAbort_mem h]

/-! ### Reset in the middle of a step -/

theorem resetWithin_of_le {k : Nat} {s : State} (h : k ≤ s.boundaryStores.length) :
    resetWithin k s = .next (s.storeAll (s.boundaryStores.take k)).resetSequence := if_pos h

theorem resetWithin_of_lt {k : Nat} {s : State} (h : s.boundaryStores.length < k) :
    resetWithin k s = mapNext State.resetSequence (runBoundary s) := by
  rw [resetWithin, if_neg (Nat.not_le.2 h)]
  cases runBoundary s <;> rfl

/-- Settles O13: a reset at the boundary is the reset sequence; one within the step is the same of a state that differs in
its memory alone; and each way a boundary can go leaves in memory the bytes that `boundaryStores` lists for it. -/
theorem resetInputRestartsMachine : Obligations.ResetInputRestartsMachine := by
  refine fun s => ⟨fun rest hin => ?_, fun k rest b hin hb => ?_, fun t => runBoundary_mem⟩
  · rw [step_of_reset (by rw [hin]; rfl), hin]
    rfl
  · rw [step_of_resetWithin hin, ← hb]
    refine ⟨fun hk => ?_, resetWithin_of_lt⟩
    rw [resetWithin_of_le hk, step_of_reset rfl, State.storeAll_eq, hb]
    rfl

end Sys2Proof.Machine

/-! PROOF. What stops the two entries (93_implementation_defined.md U8), and that no run changes the parameters of the
machine (00_scope.md section 4). -/

namespace Sys2Proof.Machine

/-! ### An abort inside an entry -/

/-- Pushes meet an abort wherever some address may not be written. -/
theorem State.pushBytes_of_not_canPush {m : Mode} {bs : List Byte} {s : State} (h : ¬ s.CanPush m bs.length) :
    ∃ d s1, State.pushBytes m bs s = .aborted d s1 := by
  cases hpush : State.pushBytes m bs s with
  | done s1 =>
    obtain ⟨-, -, hcan, -⟩ := State.pushBytes_done hpush
    exact absurd hcan h
  | aborted d s1 => exact ⟨d, s1, rfl⟩

theorem raiseAbort_of_aborted {s s1 : State} {d : AbortCause}
    (hpush : State.pushBytes .hyp (s.entryFrame s.pc) s = .aborted d s1) (c : AbortCause) :
    raiseAbort c s = .fault (.abortInEntry d) := by
  simp only [raiseAbort, hpush]

theorem takeInterrupt_of_aborted {s s1 : State} {d : AbortCause}
    (hpush : State.pushBytes .hyp (s.entryFrame s.pc) s = .aborted d s1) (n : Nat) :
    takeInterrupt n s = .fault (.abortInEntry d) := by
  simp only [takeInterrupt, hpush]

/-- The pushes leave the vector of the abort where it is, so it cannot be read after them either. -/
theorem raiseAbort_of_vector_error {s s1 : State} {c d : AbortCause}
    (hpush : State.pushBytes .hyp (s.entryFrame s.pc) s = .done s1) (hvector : s.abortTarget c = .error d) :
    raiseAbort c s = .fault (.abortInEntry d) := by
  have htables : s1.tables = s.tables := State.tables_of_pushBytes hpush
  have hafter : ({ s1 with mode := .hyp } : State).abortTarget c = .error d :=
    abortOf_eq_some.1 ((State.abortOf_abortTarget_congr htables c).trans (abortOf_eq_some.2 hvector))
  simp only [raiseAbort, hpush, hafter]

/-- The pushes leave the vector of the interrupt where it is, so it cannot be read after them either. -/
theorem takeInterrupt_of_vector_error {s s1 : State} {n : Nat} {d : AbortCause}
    (hpush : State.pushBytes .hyp (s.entryFrame s.pc) s = .done s1) (hvector : s.interruptTarget n = .error d) :
    takeInterrupt n s = .fault (.abortInEntry d) := by
  have htables : s1.tables = s.tables := State.tables_of_pushBytes hpush
  have hafter : ({ s1 with mode := .hyp, eim := .entered s1.eim n } : State).interruptTarget n = .error d :=
    abortOf_eq_some.1 ((State.abortOf_interruptTarget_congr htables n).trans (abortOf_eq_some.2 hvector))
  simp only [takeInterrupt, hpush, hafter]

/-- Settles O50: both entries make the same pushes; where those are not done the entry is a fault, and where they are the
vector answers as it did before them. -/
theorem abortInsideEntryFaults : Obligations.AbortInsideEntryFaults := by
  intro s n c
  rw [← s.entryFrame_length s.pc]
  refine ⟨fun hcannot => ?_, fun hcan => ?_⟩
  · obtain ⟨d, s1, hpush⟩ := State.pushBytes_of_not_canPush hcannot
    exact ⟨⟨d, raiseAbort_of_aborted hpush c⟩, d, takeInterrupt_of_aborted hpush n⟩
  · obtain ⟨s1, hpush⟩ := State.pushBytes_of_canPush hcan
    exact ⟨fun d => raiseAbort_of_vector_error hpush, fun d => takeInterrupt_of_vector_error hpush⟩

/-! ### The parameters -/

/-- A configuration action changes the configuration registers, the translation switch and the model's record of the last
read, and nothing else (10_state.md R19, R22). -/
theorem configAction_frame {a : ConfigAction} {s t : State} (h : configAction a s = .next t) :
    t = { s with ibr := t.ibr, abr := t.abr, tbr := t.tbr, ibrActive := t.ibrActive, abrActive := t.abrActive,
                 tbrActive := t.tbrActive, tmv := t.tmv, eim := t.eim, uim := t.uim, xlateOn := t.xlateOn,
                 configRead := t.configRead } := by
  cases a with
  | write v =>
    obtain ⟨-, ⟨a, -, -, rfl⟩ | ⟨a, -, -, rfl⟩ | ⟨a, -, -, rfl⟩ | ⟨n, -, rfl⟩ | ⟨e, -, rfl⟩ | ⟨u, -, rfl⟩
      | ⟨b, -, -, rfl⟩⟩ := writeConfig_next h
    all_goals rfl
  | read r =>
    obtain ⟨-, rfl⟩ := readConfig_next h
    rfl

theorem configAction_cfg {a : ConfigAction} {s t : State} (h : configAction a s = .next t) : t.cfg = s.cfg := by
  rw [configAction_frame h]

theorem runBoundary_cfg {s t : State} (h : runBoundary s = .next t) : t.cfg = s.cfg := by
  have hkeeps : Survives fun u => u.cfg = s.cfg := Survives.of_unwritten State.cfg (fun _ _ _ _ _ _ _ _ => rfl) _
  exact hkeeps.runBoundary (fun _ _ _ _ hu => hu) (fun _ hu => hu) rfl (fun _ _ _ ha => (configAction_cfg ha).trans rfl) h

/-- A reset within the step keeps the parameters, whether it discards the boundary's end or follows it. -/
theorem resetWithin_cfg {k : Nat} {s t : State} (h : resetWithin k s = .next t) : t.cfg = s.cfg := by
  rcases resetWithin_next h with ⟨-, rfl⟩ | ⟨u, hu, rfl⟩
  · rw [State.resetSequence_cfg, State.storeAll_cfg]
  · rw [State.resetSequence_cfg, runBoundary_cfg hu]

theorem step_cfg {s t : State} (h : step s = .next t) : t.cfg = s.cfg := by
  rcases s.noReset_cases with hno | hin | ⟨k, rest, hin⟩
  · rw [step_of_noReset hno] at h
    rw [runBoundary_cfg h, State.sampled_cfg]
  · rw [step_of_reset hin] at h
    cases h
    exact State.resetSequence_cfg _
  · rw [step_of_resetWithin hin] at h
    exact (resetWithin_cfg h).trans s.sampled_cfg

/-- Settles O60, by induction on the run: each step keeps the parameters, a reset included. -/
theorem parametersNeverChange : Obligations.ParametersNeverChange := by
  intro s t h
  induction h with
  | refl => rfl
  | step _ hstep ih => exact (step_cfg hstep).trans ih

end Sys2Proof.Machine
